-- ==== Sys2Proof/Word.lean ====
section
/-! DEFINITION. Word.lean: the words of the block: 32-bit host words (R7 `WORD_BITS`, R62), 8-bit symbols (R7 `SYMBOL_BITS`). -/

namespace Sys2Proof

/-- R7 `WORD_BITS` = `COUNT_BITS` = 32: the width of every host access and of every register. -/
abbrev Word := BitVec 32

/-- R7 `SYMBOL_BITS` = 8: a symbol, and a byte of IBUF or OBUF. -/
abbrev Byte := BitVec 8

end Sys2Proof
end

