-- ==== Sys2Proof/Config.lean ====
section
/-! DEFINITION. Config.lean: what is fixed for one block: its size parameters (R6), its fixed constants (R7, R24, R25, R40),
and the values the spec leaves free (R56, R71), which are constants without a body. -/

namespace Sys2Proof

/-- The implementation parameters of R6. They are part of the state of the model as a constant that no step changes, so that a
statement speaks of every block the constraints allow, not of the defaults only. -/
structure Params where
  /-- `IBUF_BYTES`: size of the input buffer; the largest legal IN_LEN. -/
  ibufBytes : Nat
  /-- `OBUF_BYTES`: size of the output buffer. -/
  obufBytes : Nat
  /-- `DICT_CAP`: the most LZW dictionary entries, the 256 initial ones included. -/
  dictCap : Nat
  /-- `BASE`: host bus address of offset 0. -/
  base : Nat
  deriving DecidableEq, Repr

namespace Config

/-- R60: the block answers 2^22 bytes of offsets. -/
def spanBytes : Nat := 2 ^ 22

/-- FREE VALUE (R6, U11): `BASE` is open to the platform, but a multiple of 2^22; this is the multiple. -/
opaque baseIndex : Nat

/-- The default parameters of R6 (`BASE` stays open). -/
def defaults : Params where
  ibufBytes := 65536
  obufBytes := 262144
  dictCap := 65792
  base := baseIndex * spanBytes

/-- FREE VALUE (R56, R244, U1, U2): what byte `j` of a buffer reads as while nothing has written it. `seed` tells the buffers
apart, and one hardware reset from the next: a draw for each byte, fixed until it is written. -/
opaque freeByte (seed j : Nat) : Byte

/-- FREE VALUE (R71, U3): the word the `n`-th read of a result location while BUSY returns. -/
opaque freeRead (n : Nat) : Word

/-- R24: what ID reads as, the bytes of "CORE". -/
def idWord : Word := 0x434F5245#32

/-- R25: what VERSION reads as. -/
def versionWord : Word := 0x00010000#32

/-- R40: HUF_ROOT's value NONE, "no tree". -/
def noRoot : Word := 0xFFFFFFFF#32

end Config
end Sys2Proof
end

