-- ==== Sys2Proof/Syntax.lean ====
section
/-! DEFINITION. Syntax.lean: the commands of the block (R92), which play the part of instructions (00_scope.md, Glossary).
No command carries an operand (R94), so every constructor is a plain name. -/

namespace Sys2Proof

/-- One constructor per row of spec/opcode_table.json (R92). -/
inductive Instr where
  /-- NOP, OP 0x0 (R115). -/
  | nop
  /-- HUF_ENCODE, OP 0x1 (R141). -/
  | hufEncode
  /-- LZW_ENCODE, OP 0x2 (R176). -/
  | lzwEncode
  /-- RLE_ENCODE, OP 0x3 (R194). -/
  | rleEncode
  /-- HUF_FREQ, OP 0x4 (R132). -/
  | hufFreq
  /-- HUF_TREE, OP 0x5 (R135). -/
  | hufTree
  /-- HUF_CODES, OP 0x6 (R138). -/
  | hufCodes
  /-- HUF_PACK, OP 0x7 (R140). -/
  | hufPack
  /-- SOFT_RESET, OP 0xF (R116). -/
  | softReset
  deriving DecidableEq, Repr

end Sys2Proof
end

