-- ==== Sys2Proof/Machine/State.lean ====
section
/-! DEFINITION. Machine/State.lean: the architectural state of 10_state.md as plain data, the reasons a step can stop, and the
state after hardware reset (R56). -/

namespace Sys2Proof.Machine

/-! ### Buffers (R55) -/

/-- The bytes of a buffer that something has written, as (index, byte) pairs. Canonical form: indices strictly rising. An
unlisted index has no value of its own here: it reads as the buffer's free draw (`Buffer.read`). -/
abbrev Memory := List Host.Cell

/-- IBUF or OBUF (R55). `seed` selects the draws its unwritten bytes read as (R56: "each byte any value"). -/
structure Buffer where
  cells : Memory
  seed : Nat
  deriving DecidableEq, Repr

/-! ### Status (R27 to R32) -/

/-- The error codes of R210. Codes 6 to 15 are reserved and never reported (U9): there is no constructor for them. -/
inductive ErrKind where
  /-- E_BAD_CMD, code 1. -/
  | badCmd
  /-- E_LEN, code 2. -/
  | len
  /-- E_OBUF_OVF, code 3. -/
  | obufOvf
  /-- E_DICT_FULL, code 4. -/
  | dictFull
  /-- E_NO_CODE, code 5. -/
  | noCode
  deriving DecidableEq, Repr

/-- STATUS (R27) less BUSY, which is `Engine.busy` (R54). ERR and ERRCODE are one field: ERR = 1 exactly when an error is held,
and ERRCODE is its code (R27, R30). `statusWord` gives the 32-bit value a host reads; the reserved bits are 0 there. -/
structure Status where
  /-- STATUS.DONE (R29). -/
  done : Bool
  /-- STATUS.ERR and STATUS.ERRCODE (R30). -/
  error : Option ErrKind
  /-- STATUS.HAZ (R31). -/
  haz : Bool
  /-- STATUS.LASTOP (R32). -/
  lastop : BitVec 4
  deriving DecidableEq, Repr

/-! ### Huffman state (R38 to R40, R46 to R49) -/

/-- What a node of the arena is: LEAF(i) with SYM(i), or LEFT(i) and RIGHT(i) (R47). -/
inductive NodeKind where
  | leaf (sym : Byte)
  | internal (left right : BitVec 9)
  deriving DecidableEq, Repr

/-- An entry of the node arena (R47). -/
structure Node where
  nfreq : Word
  kind : NodeKind
  deriving DecidableEq, Repr

/-- An entry of the code table: CODE_VALID, CODE_LEN, CODE_VAL (R49). -/
structure CodeEntry where
  valid : Bool
  len : BitVec 8
  val : BitVec 256
  deriving DecidableEq, Repr

/-- The Huffman encoder's state. -/
structure Huffman where
  /-- FREQ(s) (R46). -/
  freq : Vector Word 256
  /-- ORDER(0), ORDER(1), … (R46). -/
  order : List Byte
  /-- HUF_NSYM (R38). -/
  nsym : Word
  /-- HUF_NNODES (R39). -/
  nnodes : Word
  /-- HUF_ROOT (R40). -/
  root : Word
  /-- The valid entries of the node arena, in index order (R47). -/
  arena : List Node
  /-- The working collection W (R48). -/
  work : List Nat
  /-- CODE_VALID(s), CODE_LEN(s), CODE_VAL(s) (R49). -/
  codes : Vector CodeEntry 256
  deriving DecidableEq, Repr

/-! ### LZW and RLE state (R37, R50 to R52) -/

/-- A dictionary entry (DPREFIX(c), DBYTE(c)) (R50). -/
structure DictEntry where
  pfx : Word
  byte : Byte
  deriving DecidableEq, Repr

/-- The LZW encoder's state. -/
structure Lzw where
  /-- DICT_COUNT (R37). -/
  dictCount : Word
  /-- The entries of the codes 256, 257, …, in code order (R50). -/
  dict : List DictEntry
  /-- ACC when ACC_VALID = 1; `none` when ACC_VALID = 0, the empty accumulator (R51). -/
  acc : Option Word
  deriving DecidableEq, Repr

/-- The RLE run registers RUN_SYM, RUN_CNT, RUN_START (R52). -/
structure Rle where
  runSym : Byte
  runCnt : Word
  runStart : Word
  deriving DecidableEq, Repr

/-! ### The whole block -/

/-- What the engine owns while BUSY (R54): the result locations and all internal state. -/
structure Owned where
  /-- OBUF (R55). -/
  obuf : Buffer
  /-- OUT_LEN (R34). -/
  outLen : Word
  /-- ERR_POS (R35). -/
  errPos : Word
  /-- The sequencer position POS (R53). -/
  pos : Word
  huf : Huffman
  lzw : Lzw
  rle : Rle
  deriving DecidableEq, Repr

/-- The state a command reads (R112: "only IBUF, IN_LEN and engine-owned state"). -/
structure Snapshot where
  inLen : Word
  ibuf : Buffer
  own : Owned
  deriving DecidableEq, Repr

/-- ENGINE (R54). While BUSY it holds PENDING, the accepted command word, and SNAP, the state at acceptance. -/
inductive Engine where
  | idle
  | busy (pending : Word) (snap : Snapshot)
  deriving DecidableEq, Repr

/-- What the host asks of the port. `write` and `read` are one bus access each (R12), of the stated number of bytes at a bus
address; `wait` is the polling loop WAIT of R101: reads of STATUS until one returns DONE = 1. -/
inductive HostOp where
  | write (bytes addr : Nat) (v : Word)
  | read (bytes addr : Nat)
  | wait
  deriving DecidableEq, Repr

/-- Who moves: the host (one bus access), the engine (its completion step), or the hardware reset input (R20, R72). -/
inductive Turn where
  | host
  | engine
  | hwReset
  deriving DecidableEq, Repr

/-- The state of the block, and of its environment as far as the block can tell: the host's remaining accesses, the schedule,
and what its reads have returned. -/
structure State where
  /-- The parameters (R6, R41). No step changes them. -/
  params : Params
  /-- CMD (R26). -/
  cmd : Word
  /-- STATUS less BUSY (R27). -/
  status : Status
  /-- IN_LEN (R33). -/
  inLen : Word
  /-- IRQ_EN.DONE_IE (R36). -/
  irqEn : Bool
  /-- IBUF (R55). -/
  ibuf : Buffer
  /-- What the engine owns while BUSY (R54). -/
  own : Owned
  /-- ENGINE, PENDING, SNAP (R54). -/
  engine : Engine
  /-- MODEL: the accesses the host has still to make, in the order it issues them (R72). -/
  host : List HostOp
  /-- MODEL: who moves in the coming steps (R262, U4). Past its end the engine moves while BUSY, and the host otherwise. -/
  turns : List Turn
  /-- MODEL: the words the host's reads have returned, the latest first. -/
  reads : List Word
  /-- MODEL: how many free draws have been used (R56, R71). -/
  draws : Nat
  deriving DecidableEq, Repr

/-- Why the machine stops with a fault. -/
inductive Fault where
  /-- Raised by `hostStep`: the host's next access is at a bus address this block does not answer (R61: it "responds only to
  addresses with BASE <= A < BASE + 2^22"). SAFE: the model says nothing of what lies there. -/
  | outsideBlock
  deriving DecidableEq, Repr

/-- Why the model refuses to go on. -/
inductive Refusal where
  /-- Raised by `exec` for an instruction that has no meaning yet; no arm raises it. SAFE. -/
  | notModelled (mnemonic : String)
  /-- Raised by `hostStep`: a host access of a width other than 32 bits (R62: "A model refuses it, which errs toward
  unprovable"; U6). SAFE. -/
  | accessWidth
  deriving DecidableEq, Repr

/-! ### Reset (R56) -/

/-- R49: the cleared code table. -/
def clearedCodes : Vector CodeEntry 256 := Vector.replicate 256 ⟨false, 0#8, 0#256⟩

/-- R56: the Huffman state after hardware reset. -/
def Huffman.reset : Huffman where
  freq := Vector.replicate 256 0#32
  order := []
  nsym := 0#32
  nnodes := 0#32
  root := Config.noRoot
  arena := []
  work := []
  codes := clearedCodes

/-- R56: what the engine owns, after hardware reset. OBUF is unwritten: its bytes are the draws of `seed`. POS, ACC and the run
registers have "no meaning" there; DESIGN CHOICE (log 4): 0 and the empty accumulator. -/
def Owned.reset (seed : Nat) : Owned where
  obuf := ⟨[], seed⟩
  outLen := 0#32
  errPos := 0#32
  pos := 0#32
  huf := Huffman.reset
  lzw := ⟨0#32, [], none⟩
  rle := ⟨0#8, 0#32, 0#32⟩

/-- R56: the block right after a hardware reset, with parameters `p`; its buffers' bytes are the draws `seed` and `seed + 1`.
The host has nothing to do and the schedule is empty. -/
def State.resetWith (p : Params) (seed : Nat) : State where
  params := p
  cmd := 0#32
  status := ⟨false, none, false, 0#4⟩
  inLen := 0#32
  irqEn := false
  ibuf := ⟨[], seed⟩
  own := Owned.reset (seed + 1)
  engine := .idle
  host := []
  turns := []
  reads := []
  draws := seed + 2

/-- The block right after its first hardware reset, with the default parameters (R6, R56). -/
def State.reset : State := State.resetWith Config.defaults 0

end Sys2Proof.Machine
end

