-- ==== Sys2Proof/Machine/Ops.lean ====
section
/-! DEFINITION. Machine/Ops.lean: the named operations over the state that every command and every host access is made of:
the buffers (R11, R55), clearing the Huffman state (R46, R49), taking a command (R111), completing one with or without an error
(R13, R112, R214), and hardware reset (R240). -/

namespace Sys2Proof.Machine

/-! ### Memory -/

/-- Canonical form: the indices rise strictly. -/
abbrev Memory.wf (m : Memory) : Prop := m.Pairwise fun x y => x.1 < y.1

/-- The byte written at `a`, if any has been. -/
def Memory.get? : Memory → Nat → Option Byte
  | [], _ => none
  | (b, v) :: m, a => if b = a then some v else Memory.get? m a

/-- Writes one byte, keeping the indices rising. -/
def Memory.set : Memory → Nat → Byte → Memory
  | [], a, v => [(a, v)]
  | (b, u) :: m, a, v =>
    if a < b then (a, v) :: (b, u) :: m
    else if a = b then (a, v) :: m
    else (b, u) :: Memory.set m a v

/-- R11 `ibuf(i)`, `obuf(j)`: the byte last written at `i`, or the draw of an unwritten byte (R56). -/
def Buffer.read (b : Buffer) (i : Nat) : Byte :=
  (Memory.get? b.cells i).getD (Config.freeByte b.seed i)

/-- R11 `obuf(j) <- v`, and the host's write of one byte of IBUF (R66). -/
def Buffer.write (b : Buffer) (i : Nat) (v : Byte) : Buffer :=
  { b with cells := Memory.set b.cells i v }

/-- The bytes `vs` at `i`, `i + 1`, … in this order. -/
def Buffer.writeList (b : Buffer) (i : Nat) : List Byte → Buffer
  | [] => b
  | v :: vs => Buffer.writeList (b.write i v) (i + 1) vs

/-- R68: the four bytes of a word, the lowest offset first (little-endian). -/
def wordBytes (w : Word) : List Byte :=
  [w.extractLsb' 0 8, w.extractLsb' 8 8, w.extractLsb' 16 8, w.extractLsb' 24 8]

/-- R11 `obuf_word(k) <- w`, and a host write of a word of IBUF (R66). -/
def Buffer.writeWord (b : Buffer) (k : Nat) (w : Word) : Buffer :=
  b.writeList k (wordBytes w)

/-- R66, R67: the word a host reads at byte index `k` of a buffer. -/
def Buffer.readWord (b : Buffer) (k : Nat) : Word :=
  b.read (k + 3) ++ b.read (k + 2) ++ b.read (k + 1) ++ b.read k

/-! ### Huffman state -/

/-- FREQ(s) (R46). -/
def Huffman.freqOf (h : Huffman) (s : Byte) : Word := h.freq[s.toNat]'s.isLt

/-- The code-table entry of `s` (R49). -/
def Huffman.codeOf (h : Huffman) (s : Byte) : CodeEntry := h.codes[s.toNat]'s.isLt

/-- The first four lines of FreqCount (R131), and SOFT_RESET's part in the Huffman state (R116): every count 0, HUF_NSYM and
HUF_NNODES 0, so that ORDER and the arena have no entry with a meaning (R46, R47), HUF_ROOT = NONE, the code table cleared. -/
def Huffman.clear (h : Huffman) : Huffman :=
  { h with
    freq := Vector.replicate 256 0#32, order := [], nsym := 0#32
    nnodes := 0#32, arena := [], root := Config.noRoot, codes := clearedCodes }

/-! ### The state of the engine -/

/-- STATUS.BUSY (R27, R54: ENGINE "equal to STATUS.BUSY"). -/
def Engine.isBusy : Engine → Bool
  | .idle => false
  | .busy _ _ => true

/-- STATUS.BUSY (R28). -/
def State.busy (s : State) : Bool := s.engine.isBusy

/-- What a command would read now: IBUF, IN_LEN and the engine-owned state (R112). -/
def State.snapshot (s : State) : Snapshot := ⟨s.inLen, s.ibuf, s.own⟩

/-- Acceptance of the word `v` (R111), in one atomic step; SNAP is the state at acceptance (R54, R112). HAZ and IRQ_EN are
unchanged. -/
def State.accept (s : State) (v : Word) : State :=
  let own := { s.own with errPos := 0#32 }
  { s with
    cmd := v
    status := { s.status with done := false, error := none, lastop := v.extractLsb' 0 4 }
    own := own
    engine := .busy v ⟨s.inLen, s.ibuf, own⟩ }

/-! ### How a command ends (R13) -/

/-- The outcome of `Exec` (R112): `complete()`, or `raise E(pos)`. -/
inductive CmdOutcome where
  | done
  | error (e : ErrKind) (pos : Word)
  deriving DecidableEq, Repr

/-- What `Exec` answers (R112): the engine-owned state as the command leaves it, and the outcome. What a command wrote before it
raised an error stays (R214). -/
structure Result where
  own : Owned
  outcome : CmdOutcome
  deriving DecidableEq, Repr

/-- `complete()` (R13). -/
def Result.complete (o : Owned) : Result := ⟨o, .done⟩

/-- `raise E(pos)` (R13, R214): nothing is undone. -/
def Result.raise (o : Owned) (e : ErrKind) (pos : Nat) : Result := ⟨o, .error e (BitVec.ofNat 32 pos)⟩

/-- The input-length check (R113), before any other effect: a command that reads input raises E_LEN(0) when IN_LEN exceeds
IBUF_BYTES, and otherwise runs its body. -/
def checkLen (p : Params) (x : Snapshot) (body : Result) : Result :=
  if x.inLen.toNat > p.ibufBytes then Result.raise x.own .len 0 else body

/-- The completion step (R112): the engine-owned locations take what the command left, BUSY falls, DONE rises, and an error, if
the command raised one, goes to ERR, ERRCODE and ERR_POS (R214; this is the block's nearest thing to a trap entry, R222). It
shows at the IRQ output as DONE does (R220). -/
def State.complete (s : State) (r : Result) : State :=
  match r.outcome with
  | .done =>
    { s with own := r.own, engine := .idle, status := { s.status with done := true } }
  | .error e pos =>
    { s with
      own := { r.own with errPos := pos }, engine := .idle
      status := { s.status with done := true, error := some e } }

/-- Exec of an illegal word (R211): E_BAD_CMD(0), and nothing else changes. -/
def badCmdResult (x : Snapshot) : Result := Result.raise x.own .badCmd 0

/-! ### Hardware reset (R240) -/

/-- Hardware reset: every piece of the block's state takes its value of R56 and a running command is abandoned; the buffers'
bytes are fresh draws. The host's program, the schedule and what it has read are not the block's. -/
def State.hardReset (s : State) : State :=
  { State.resetWith s.params s.draws with host := s.host, turns := s.turns, reads := s.reads }

end Sys2Proof.Machine
end

