-- ==== Sys2Proof/Machine/Flags.lean ====
section
/-! DEFINITION. Machine/Flags.lean: STATUS and the interrupt: error codes (R210), STATUS as the host reads it (R27), the
write-one-to-clear bits (R29, R31), HAZ (R31), IRQ (R220). -/

namespace Sys2Proof.Machine

/-- R210: the code an error is reported by. -/
def ErrKind.code : ErrKind → BitVec 4
  | .badCmd => 1#4
  | .len => 2#4
  | .obufOvf => 3#4
  | .dictFull => 4#4
  | .noCode => 5#4

/-- STATUS.ERR (R30). -/
def Status.err (t : Status) : Bool := t.error.isSome

/-- STATUS.ERRCODE (R30): 0 when ERR = 0. -/
def Status.errcode (t : Status) : BitVec 4 :=
  match t.error with
  | none => 0#4
  | some e => e.code

/-- R27: STATUS as a word: LASTOP[15:12], HAZ[8], ERRCODE[7:4], ERR[2], DONE[1], BUSY[0]; every other bit 0. -/
def statusWord (busy : Bool) (t : Status) : Word :=
  0#16 ++ t.lastop ++ 0#3 ++ BitVec.ofBool t.haz ++ t.errcode ++ 0#1 ++ BitVec.ofBool t.err ++
    BitVec.ofBool t.done ++ BitVec.ofBool busy

/-- R27, R29, R31: a host write of `v` to STATUS clears DONE if bit 1 of `v` is 1, and HAZ if bit 8 is; nothing else. -/
def Status.clearBits (t : Status) (v : Word) : Status :=
  { t with done := t.done && !v.getLsbD 1, haz := t.haz && !v.getLsbD 8 }

/-- R31, R250: a host write dropped because BUSY = 1 sets HAZ and does nothing else. -/
def State.dropWrite (s : State) : State :=
  { s with status := { s.status with haz := true } }

/-- R116: SOFT_RESET clears HAZ. -/
def State.clearHaz (s : State) : State :=
  { s with status := { s.status with haz := false } }

/-- R220: the IRQ output, a level. -/
def State.irq (s : State) : Bool := s.status.done && s.irqEn

/-- R36: IRQ_EN as the host reads it; bits 31:1 are 0. -/
def irqEnWord (b : Bool) : Word := 0#31 ++ BitVec.ofBool b

end Sys2Proof.Machine
end

