-- ==== Sys2Proof/Machine/Operands.lean ====
section
/-! DEFINITION. Machine/Operands.lean: the operands of a command, all of them implicit (R94), and the places a host access can
name: the address map (R60), its decoding (R61, R63), and the word each place reads as (R23, R42 to R45, R66, R67). -/

namespace Sys2Proof.Machine

/-- R94: the input of a command, `ibuf(0) .. ibuf(IN_LEN-1)`. -/
def Snapshot.input (x : Snapshot) : List Byte :=
  (List.range x.inLen.toNat).map x.ibuf.read

/-- R9, R49: the code of an entry as a bit-string, its first bit most significant: bit `k` from the left is
CODE_VAL[CODE_LEN-1-k]. -/
def CodeEntry.bits (c : CodeEntry) : List Bool :=
  (List.range c.len.toNat).map fun k => c.val.getLsbD (c.len.toNat - 1 - k)

/-! ### Places of the address map -/

/-- The registers of R23. -/
inductive Reg where
  | id | version | cmd | status | inLen | outLen | errPos | irqEn
  | dictCount | hufNsym | hufNnodes | hufRoot | paramIbuf | paramObuf | paramDict
  deriving DecidableEq, Repr

/-- What a word of the address space is (R60). `ibuf` and `obuf` carry the byte index of the word's lowest byte. -/
inductive Loc where
  | reg (r : Reg)
  /-- FREQ window (R42). -/
  | freq (s : Byte)
  /-- CODELEN window (R43). -/
  | codeLen (s : Byte)
  /-- CODE window (R44): word `w` of CODE_VAL(s). -/
  | code (s : Byte) (w : BitVec 3)
  /-- NODE window (R45): word `f` of arena entry `i`. -/
  | node (i : BitVec 9) (f : BitVec 2)
  | ibuf (j : Nat)
  | obuf (j : Nat)
  /-- Reserved space (R64). -/
  | reserved
  deriving DecidableEq, Repr

/-- R23: the register at word index `n` (offset `4 * n`), for `n` < 15. -/
def regAt : Nat → Loc
  | 0 => .reg .id
  | 1 => .reg .version
  | 2 => .reg .cmd
  | 3 => .reg .status
  | 4 => .reg .inLen
  | 5 => .reg .outLen
  | 6 => .reg .errPos
  | 7 => .reg .irqEn
  | 8 => .reg .dictCount
  | 9 => .reg .hufNsym
  | 10 => .reg .hufNnodes
  | 11 => .reg .hufRoot
  | 12 => .reg .paramIbuf
  | 13 => .reg .paramObuf
  | 14 => .reg .paramDict
  | _ => .reserved

/-- R23: the word index of a register. -/
def Reg.index : Reg → Nat
  | .id => 0
  | .version => 1
  | .cmd => 2
  | .status => 3
  | .inLen => 4
  | .outLen => 5
  | .errPos => 6
  | .irqEn => 7
  | .dictCount => 8
  | .hufNsym => 9
  | .hufNnodes => 10
  | .hufRoot => 11
  | .paramIbuf => 12
  | .paramObuf => 13
  | .paramDict => 14

/-- R61: the offset a bus address names, if the block answers it. -/
def busOffset (p : Params) (addr : Nat) : Option Nat :=
  if p.base ≤ addr ∧ addr < p.base + Config.spanBytes then some (addr - p.base) else none

/-- R60: what the word at the byte offset `o`, a multiple of 4, is. -/
def locOfWord (p : Params) (o : Nat) : Loc :=
  if o < 0x3C then regAt (o / 4)
  else if o < 0x400 then .reserved
  else if o < 0x800 then .freq (BitVec.ofNat 8 ((o - 0x400) / 4))
  else if o < 0xC00 then .codeLen (BitVec.ofNat 8 ((o - 0x800) / 4))
  else if o < 0x2000 then .reserved
  else if o < 0x4000 then .code (BitVec.ofNat 8 ((o - 0x2000) / 32)) (BitVec.ofNat 3 ((o - 0x2000) % 32 / 4))
  else if o < 0x6000 then .node (BitVec.ofNat 9 ((o - 0x4000) / 16)) (BitVec.ofNat 2 ((o - 0x4000) % 16 / 4))
  else if o < 0x100000 then .reserved
  else if o < 0x100000 + p.ibufBytes then .ibuf (o - 0x100000)
  else if o < 0x200000 then .reserved
  else if o < 0x200000 + p.obufBytes then .obuf (o - 0x200000)
  else .reserved

/-- R63: the place a byte offset names; bits 1:0 of the offset are ignored. -/
def locAt (p : Params) (off : Nat) : Loc := locOfWord p (off / 4 * 4)

/-- R23, R42 to R45, R66, R67: the byte offset of a place. A host script names places so (R100). Reserved space has no one
offset; 0x3C, its first word, stands for it. -/
def Loc.offset : Loc → Nat
  | .reg r => 4 * r.index
  | .freq s => 0x400 + 4 * s.toNat
  | .codeLen s => 0x800 + 4 * s.toNat
  | .code s w => 0x2000 + 32 * s.toNat + 4 * w.toNat
  | .node i f => 0x4000 + 16 * i.toNat + 4 * f.toNat
  | .ibuf j => 0x100000 + j
  | .obuf j => 0x200000 + j
  | .reserved => 0x3C

/-- R71: the result locations, whose value a host read while BUSY does not fix. -/
def Loc.isResult : Loc → Bool
  | .reg .outLen | .reg .errPos | .reg .dictCount | .reg .hufNsym | .reg .hufNnodes | .reg .hufRoot => true
  | .freq _ | .codeLen _ | .code _ _ | .node _ _ | .obuf _ => true
  | .reg .id | .reg .version | .reg .cmd | .reg .status | .reg .inLen | .reg .irqEn => false
  | .reg .paramIbuf | .reg .paramObuf | .reg .paramDict | .ibuf _ | .reserved => false

/-! ### What a place reads as -/

/-- R23 to R41. -/
def State.readReg (s : State) : Reg → Word
  | .id => Config.idWord
  | .version => Config.versionWord
  | .cmd => s.cmd
  | .status => statusWord s.busy s.status
  | .inLen => s.inLen
  | .outLen => s.own.outLen
  | .errPos => s.own.errPos
  | .irqEn => irqEnWord s.irqEn
  | .dictCount => s.own.lzw.dictCount
  | .hufNsym => s.own.huf.nsym
  | .hufNnodes => s.own.huf.nnodes
  | .hufRoot => s.own.huf.root
  | .paramIbuf => BitVec.ofNat 32 s.params.ibufBytes
  | .paramObuf => BitVec.ofNat 32 s.params.obufBytes
  | .paramDict => BitVec.ofNat 32 s.params.dictCap

/-- R43: a word of the CODELEN window. -/
def CodeEntry.lenWord (c : CodeEntry) : Word := 0#23 ++ BitVec.ofBool c.valid ++ c.len

/-- R44: word `w` of CODE_VAL. -/
def CodeEntry.valWord (c : CodeEntry) (w : BitVec 3) : Word := c.val.extractLsb' (32 * w.toNat) 32

/-- R45: the words NFREQ, NKIND, NLEFT, NRIGHT of a node. -/
def Node.word (n : Node) (f : BitVec 2) : Word :=
  match n.kind, f.toNat with
  | _, 0 => n.nfreq
  | .leaf s, 1 => 0#16 ++ s ++ 1#8
  | .internal l _, 2 => l.setWidth 32
  | .internal _ r, 3 => r.setWidth 32
  | _, _ => 0#32

/-- R45: a word of the NODE window; entries at and past HUF_NNODES read 0. -/
def Huffman.nodeWord (h : Huffman) (i : BitVec 9) (f : BitVec 2) : Word :=
  if i.toNat < h.nnodes.toNat then
    match h.arena[i.toNat]? with
    | some n => n.word f
    | none => 0#32
  else 0#32

/-- The word a place reads as while the engine is idle, and for a place that is no result location always (R64 to R67, R71). -/
def State.readLoc (s : State) : Loc → Word
  | .reg r => s.readReg r
  | .freq b => s.own.huf.freqOf b
  | .codeLen b => (s.own.huf.codeOf b).lenWord
  | .code b w => (s.own.huf.codeOf b).valWord w
  | .node i f => s.own.huf.nodeWord i f
  | .ibuf j => s.ibuf.readWord j
  | .obuf j => s.own.obuf.readWord j
  | .reserved => 0#32

end Sys2Proof.Machine
end

