-- ==== Sys2Proof/WellFormed.lean ====
section
/-! DEFINITION. WellFormed.lean: the checks on what is given to the block: a command word (R90, R91), the size parameters (R6),
the width of a host access (R62). An instruction itself has no operand (R94), so every `Instr` is well formed. -/

namespace Sys2Proof

/-- R94: no command carries an operand, so there is nothing an instruction could get wrong. -/
def Instr.wf (_ : Instr) : Bool := true

/-- R90: RSV, bits 31:4 of a command word. -/
def cmdRsv (w : Word) : BitVec 28 := w.extractLsb' 4 28

/-- R90: OP, bits 3:0 of a command word. -/
def cmdOp (w : Word) : BitVec 4 := w.extractLsb' 0 4

/-- R91: a command word is legal exactly when RSV is 0 and OP is one of the nine values of R92 (0x0 to 0x7, and 0xF). -/
def cmdLegal (w : Word) : Bool :=
  cmdRsv w == 0#28 && (cmdOp w < 8#4 || cmdOp w == 15#4)

/-- R6: the constraints on the parameters. -/
def Params.wf (p : Params) : Bool :=
  p.ibufBytes % 4 == 0 && decide (4 ≤ p.ibufBytes) && decide (p.ibufBytes ≤ 2 ^ 20) &&
  (p.obufBytes % 4 == 0 && decide (4 ≤ p.obufBytes) && decide (p.obufBytes ≤ 2 ^ 21)) &&
  (decide (256 ≤ p.dictCap) && decide (p.dictCap ≤ 2 ^ 21)) &&
  p.base % Config.spanBytes == 0

/-- R62: every host access moves exactly 32 bits; no other width is part of the interface. -/
def accessWidthOk (bytes : Nat) : Bool := bytes == 4

end Sys2Proof
end

