-- ==== Sys2Proof/Machine/Bus.lean ====
section
/-! DEFINITION. Machine/Bus.lean: the host's side of the port: one host write (R26 to R36, R64 to R66), one host read (R65, R71),
one access of the host's program (R12, R61, R62), the polling loop (R101). -/

namespace Sys2Proof.Machine

/-- A host write of `v` to a place. CMD, IN_LEN and IBUF drop it while BUSY and set HAZ (R26, R33, R66, R250); STATUS takes its
write-one-to-clear bits (R27) and IRQ_EN its bit 0 (R36) always; anything else ignores it (R64). -/
def State.writeLoc (s : State) (v : Word) : Loc → State
  | .reg .cmd => if s.busy then s.dropWrite else s.accept v
  | .reg .status => { s with status := s.status.clearBits v }
  | .reg .inLen => if s.busy then s.dropWrite else { s with inLen := v }
  | .reg .irqEn => { s with irqEn := v.getLsbD 0 }
  | .ibuf j => if s.busy then s.dropWrite else { s with ibuf := s.ibuf.writeWord j v }
  | .reg .id | .reg .version | .reg .outLen | .reg .errPos | .reg .dictCount | .reg .hufNsym => s
  | .reg .hufNnodes | .reg .hufRoot | .reg .paramIbuf | .reg .paramObuf | .reg .paramDict => s
  | .freq _ | .codeLen _ | .code _ _ | .node _ _ | .obuf _ | .reserved => s

/-- The word a host read of a place returns: while BUSY a result location returns the next free draw (R71). -/
def State.readValue (s : State) (l : Loc) : Word :=
  if s.busy && l.isResult then Config.freeRead s.draws else s.readLoc l

/-- A host read of a place: the word it returns is recorded, and a draw it took is used up. Nothing of the block changes (R65). -/
def State.hostRead (s : State) (l : Loc) : State :=
  { s with
    reads := s.readValue l :: s.reads
    draws := if s.busy && l.isResult then s.draws + 1 else s.draws }

/-- One bus access (R12): its width must be 4 bytes (R62) and its address the block's (R61). -/
def busAccess (s : State) (bytes addr : Nat) (act : State → Loc → State) : Host.Outcome State Fault Refusal :=
  if accessWidthOk bytes then
    match busOffset s.params addr with
    | some off => .next (act s (locAt s.params off))
    | none => .fault .outsideBlock
  else .refused .accessWidth

/-- The host's turn: its next access, if it has one. A poll of WAIT reads STATUS once and ends the loop if DONE was 1 (R101). -/
def hostStep (s : State) : Host.Outcome State Fault Refusal :=
  match s.host with
  | [] => .next s
  | .write bytes addr v :: rest => busAccess { s with host := rest } bytes addr fun t l => t.writeLoc v l
  | .read bytes addr :: rest => busAccess { s with host := rest } bytes addr State.hostRead
  | .wait :: rest => .next ({ s with host := if s.status.done then rest else s.host }.hostRead (.reg .status))

end Sys2Proof.Machine
end

