-- ==== Sys2Proof/Decode.lean ====
section
/-! DEFINITION. Decode.lean: the decoder of command words (R90 to R93), total on every 32-bit word and rejecting by name; after
it the encoder, written from the same table (R92). -/

namespace Sys2Proof

/-- Why a command word is no instruction (R93). Both are reported as E_BAD_CMD (R211). -/
inductive DecodeError where
  /-- RSV, bits 31:4, is not 0. -/
  | reservedBits
  /-- OP is one of 0x8 to 0xE. -/
  | reservedOp
  deriving DecidableEq, Repr

/-- R92: the instruction an OP value selects; 0x8 to 0xE select none (R93). -/
def decodeOp (op : BitVec 4) : Except DecodeError Instr :=
  match op.toNat with
  | 0 => .ok .nop
  | 1 => .ok .hufEncode
  | 2 => .ok .lzwEncode
  | 3 => .ok .rleEncode
  | 4 => .ok .hufFreq
  | 5 => .ok .hufTree
  | 6 => .ok .hufCodes
  | 7 => .ok .hufPack
  | 15 => .ok .softReset
  | _ => .error .reservedOp

/-- R91, R93: a word with a nonzero RSV is illegal whatever its OP; otherwise OP decides. -/
def decode (w : Word) : Except DecodeError Instr :=
  if cmdRsv w = 0#28 then decodeOp (cmdOp w) else .error .reservedBits

/-- R92: the OP value of an instruction. -/
def Instr.op : Instr → BitVec 4
  | .nop => 0x0#4
  | .hufEncode => 0x1#4
  | .lzwEncode => 0x2#4
  | .rleEncode => 0x3#4
  | .hufFreq => 0x4#4
  | .hufTree => 0x5#4
  | .hufCodes => 0x6#4
  | .hufPack => 0x7#4
  | .softReset => 0xF#4

/-- R90, R92: the command word of an instruction, RSV = 0 above its OP. -/
def encode (i : Instr) : Word := 0#28 ++ i.op

/-- The instruction the decoder reads from a word whose bits are `w`, numbered as spec/opcode_table.json numbers them. A command
is one 32-bit word and a register value carries no byte order (R68, R95), so the word given to the decoder is `w` itself, its
bits at and above `nbits` being 0. -/
def decodeTableWord (nbits w : Nat) : Option Instr :=
  let v := w % 2 ^ nbits
  if v < 2 ^ 32 then
    match decode (BitVec.ofNat 32 v) with
    | .ok i => some i
    | .error _ => none
  else none

end Sys2Proof
end

