-- ==== Sys2Proof/Machine/Huffman.lean ====
section
/-! DEFINITION. Machine/Huffman.lean: the Huffman encoder (41_huffman.md): frequency counter, tree builder, code-table generator,
bit-packer, and the five commands made of them. -/

namespace Sys2Proof.Machine

/-! ### Frequency counter (R131) -/

/-- One pass of FreqCount's loop for the byte `b` (R131). -/
def Huffman.count (h : Huffman) (b : Byte) : Huffman :=
  let h' := if h.freqOf b = 0#32 then { h with order := h.order ++ [b], nsym := h.nsym + 1#32 } else h
  { h' with freq := h'.freq.set b.toNat (h.freqOf b + 1#32) b.isLt }

/-- FreqCount (R131). -/
def freqCount (input : List Byte) (o : Owned) : Owned :=
  { o with huf := input.foldl Huffman.count o.huf.clear, pos := BitVec.ofNat 32 input.length }

/-! ### Tree builder (R133 to R135) -/

/-- NFREQ(i). -/
def nfreqAt (arena : List Node) (i : Nat) : Nat :=
  match arena[i]? with
  | some n => n.nfreq.toNat
  | none => 0

/-- R134: the key (NFREQ(i), i) of `i` is below that of `j`: NFREQ first, then the arena index. -/
def keyLt (arena : List Node) (i j : Nat) : Bool :=
  decide (nfreqAt arena i < nfreqAt arena j) || (nfreqAt arena i == nfreqAt arena j && decide (i < j))

/-- R134: the element of W with the least key. -/
def leastKey (arena : List Node) : List Nat → Option Nat
  | [] => none
  | i :: w =>
    match leastKey arena w with
    | none => some i
    | some j => if keyLt arena j i then some j else some i

/-- R133: leaf `j`, of the symbol ORDER(j) and its count. -/
def Huffman.leafNode (h : Huffman) (j : Nat) : Node :=
  let s := (h.order[j]?).getD 0#8
  ⟨h.freqOf s, .leaf s⟩

/-- The lines of BuildTree before its loop (R135). -/
def Huffman.plantLeaves (h : Huffman) : Huffman :=
  { h with
    codes := clearedCodes
    arena := (List.range h.nsym.toNat).map h.leafNode
    nnodes := h.nsym
    work := List.range h.nsym.toNat }

/-- The merge of `a` and `b` in BuildTree's loop (R135): the first selected becomes LEFT, the second RIGHT; the new node joins W. -/
def Huffman.merge (h : Huffman) (a b : Nat) : Huffman :=
  let freq : Word := BitVec.ofNat 32 (nfreqAt h.arena a + nfreqAt h.arena b)
  { h with
    arena := h.arena ++ [⟨freq, .internal (BitVec.ofNat 9 a) (BitVec.ofNat 9 b)⟩]
    nnodes := h.nnodes + 1#32
    work := (h.work.erase a).erase b ++ [h.nnodes.toNat] }

/-- BuildTree's loop "while |W| >= 2" (R135). Each pass takes two elements from W and adds one, so |W| passes are enough. -/
def mergeLoop : Nat → Huffman → Huffman
  | 0, h => h
  | n + 1, h =>
    match leastKey h.arena h.work with
    | none => h
    | some a =>
      match leastKey h.arena (h.work.erase a) with
      | none => h
      | some b => mergeLoop n (h.merge a b)

/-- The lines of BuildTree after its loop (R135). -/
def Huffman.setRoot (h : Huffman) : Huffman :=
  { h with root := if h.nsym = 0#32 then Config.noRoot else h.nnodes - 1#32, work := [] }

/-- BuildTree (R135). -/
def buildTree (h : Huffman) : Huffman :=
  (mergeLoop h.nsym.toNat h.plantLeaves).setRoot

/-! ### Code-table generator (R137) -/

/-- Visit(i, v, l) (R137). A path of an acyclic arena visits each node once, so HUF_NNODES levels are enough. -/
def visit (arena : List Node) : Nat → Nat → Nat → Nat → Vector CodeEntry 256 → Vector CodeEntry 256
  | 0, _, _, _, t => t
  | n + 1, i, v, l, t =>
    match arena[i]? with
    | none => t
    | some nd =>
      match nd.kind with
      | .leaf s => t.set s.toNat ⟨true, BitVec.ofNat 8 l, BitVec.ofNat 256 v⟩ s.isLt
      | .internal a b =>
        visit arena n b.toNat (2 * v + 1) (l + 1) (visit arena n a.toNat (2 * v) (l + 1) t)

/-- GenCodes (R137). -/
def genCodes (h : Huffman) : Huffman :=
  { h with
    codes :=
      if h.root = Config.noRoot then clearedCodes
      else visit h.arena h.nnodes.toNat h.root.toNat 0 0 clearedCodes }

/-! ### Bit-packer (R139) -/

/-- One bit of output (R139, R69): bit 7 - (p mod 8) of OBUF byte p div 8, the byte cleared first when p begins it. -/
def Owned.putBit (o : Owned) (d : Bool) : Owned :=
  let p := o.outLen.toNat
  let obuf := if p % 8 = 0 then o.obuf.write (p / 8) 0#8 else o.obuf
  let bit : Byte := if d then BitVec.ofNat 8 (2 ^ (7 - p % 8)) else 0#8
  { o with obuf := obuf.write (p / 8) (obuf.read (p / 8) + bit), outLen := o.outLen + 1#32 }

/-- The bits of one symbol's code, in order (R139). -/
def Owned.putBits (o : Owned) (bits : List Bool) : Owned := bits.foldl Owned.putBit o

/-- Pack's loop (R139), from the input byte of index `i` on. A symbol's code is checked whole before any of its bits is written;
E_NO_CODE is tested before E_OBUF_OVF (R215). -/
def packLoop (p : Params) : List Byte → Nat → Owned → Result
  | [], i, o => Result.complete { o with pos := BitVec.ofNat 32 i }
  | b :: bs, i, o =>
    let o := { o with pos := BitVec.ofNat 32 i }
    let c := o.huf.codeOf b
    if !c.valid then Result.raise o .noCode i
    else if o.outLen.toNat + c.len.toNat > 8 * p.obufBytes then Result.raise o .obufOvf i
    else packLoop p bs (i + 1) (o.putBits c.bits)

/-- Pack (R139). -/
def pack (p : Params) (input : List Byte) (o : Owned) : Result :=
  packLoop p input 0 { o with outLen := 0#32 }

/-! ### The commands -/

/-- Exec of HUF_FREQ (R132). -/
def hufFreqResult (p : Params) (x : Snapshot) : Result :=
  checkLen p x (Result.complete (freqCount x.input x.own))

/-- HUF_FREQ (R132). -/
def execHufFreq (s : State) : Host.Outcome State Fault Refusal :=
  .next (s.complete (hufFreqResult s.params s.snapshot))

/-- Exec of HUF_TREE (R135). It reads no input, so it makes no length check. -/
def hufTreeResult (x : Snapshot) : Result :=
  Result.complete { x.own with huf := buildTree x.own.huf }

/-- HUF_TREE (R135). -/
def execHufTree (s : State) : Host.Outcome State Fault Refusal :=
  .next (s.complete (hufTreeResult s.snapshot))

/-- Exec of HUF_CODES (R138). -/
def hufCodesResult (x : Snapshot) : Result :=
  Result.complete { x.own with huf := genCodes x.own.huf }

/-- HUF_CODES (R138). -/
def execHufCodes (s : State) : Host.Outcome State Fault Refusal :=
  .next (s.complete (hufCodesResult s.snapshot))

/-- Exec of HUF_PACK (R140). -/
def hufPackResult (p : Params) (x : Snapshot) : Result :=
  checkLen p x (pack p x.input x.own)

/-- HUF_PACK (R140). -/
def execHufPack (s : State) : Host.Outcome State Fault Refusal :=
  .next (s.complete (hufPackResult s.params s.snapshot))

/-- The four steps of HUF_ENCODE (R141), on the engine-owned state. -/
def hufEncodeBody (p : Params) (input : List Byte) (o : Owned) : Result :=
  let o1 := freqCount input o
  pack p input { o1 with huf := genCodes (buildTree o1.huf) }

/-- Exec of HUF_ENCODE (R141). -/
def hufEncodeResult (p : Params) (x : Snapshot) : Result :=
  checkLen p x (hufEncodeBody p x.input x.own)

/-- HUF_ENCODE (R141). -/
def execHufEncode (s : State) : Host.Outcome State Fault Refusal :=
  .next (s.complete (hufEncodeResult s.params s.snapshot))

end Sys2Proof.Machine
end

