-- ==== Sys2Proof/Machine/LzwEncoder.lean ====
section
/-! DEFINITION. Machine/LzwEncoder.lean: the LZW encoder (42_lzw.md): the dictionary engine (R170 to R173), the code sequencer
(R174, R175), the command LZW_ENCODE (R176). -/

namespace Sys2Proof.Machine

/-- The search of Lookup (R171) through entries whose first one has the code `c`. -/
def dictSearch (p : Word) (b : Byte) : List DictEntry → Nat → Option Nat
  | [], _ => none
  | e :: es, c => if e.pfx = p ∧ e.byte = b then some c else dictSearch p b es (c + 1)

/-- Lookup(p, b) (R171): the code bound to (p, b), or MISS. -/
def Lzw.lookup (z : Lzw) (p : Word) (b : Byte) : Option Word :=
  (dictSearch p b z.dict 256).map (BitVec.ofNat 32)

/-- InitDict (R173): DICT_COUNT = 256, and no entry above it. -/
def Lzw.initDict (z : Lzw) : Lzw := { z with dictCount := 256#32, dict := [] }

/-- Insert(p, b) into a dictionary that is not full (R172): the next free code is bound to (p, b). -/
def Lzw.insert (z : Lzw) (p : Word) (b : Byte) : Lzw :=
  { z with dictCount := z.dictCount + 1#32, dict := z.dict ++ [⟨p, b⟩] }

/-- R172: the dictionary is full, DICT_COUNT = DICT_CAP. -/
def Lzw.full (p : Params) (z : Lzw) : Bool := z.dictCount.toNat == p.dictCap

/-- R175: a further code does not fit in OBUF. -/
def Owned.codeOverflows (p : Params) (o : Owned) : Bool :=
  decide (4 * (o.outLen.toNat + 1) > p.obufBytes)

/-- Emit(c) where it fits (R175): the code as a little-endian word, and OUT_LEN one up. -/
def Owned.emitCode (o : Owned) (c : Word) : Owned :=
  { o with obuf := o.obuf.writeWord (4 * o.outLen.toNat) c, outLen := o.outLen + 1#32 }

/-- The accumulator takes a code. -/
def Owned.setAcc (o : Owned) (c : Word) : Owned := { o with lzw := { o.lzw with acc := some c } }

/-- LzwLoop (R174) from the input byte of index `i` on; at the end of the input the accumulator's code is emitted, at position
IN_LEN. Emit comes before Insert (R174, R215). -/
def lzwLoop (p : Params) : List Byte → Nat → Owned → Result
  | [], i, o =>
    let o := { o with pos := BitVec.ofNat 32 i }
    match o.lzw.acc with
    | none => Result.complete o
    | some a => if o.codeOverflows p then Result.raise o .obufOvf i else Result.complete (o.emitCode a)
  | b :: bs, i, o =>
    let o := { o with pos := BitVec.ofNat 32 i }
    match o.lzw.acc with
    | none => lzwLoop p bs (i + 1) (o.setAcc (b.setWidth 32))
    | some a =>
      match o.lzw.lookup a b with
      | some c => lzwLoop p bs (i + 1) (o.setAcc c)
      | none =>
        if o.codeOverflows p then Result.raise o .obufOvf i
        else
          let o := o.emitCode a
          if o.lzw.full p then Result.raise o .dictFull i
          else lzwLoop p bs (i + 1) ({ o with lzw := o.lzw.insert a b }.setAcc (b.setWidth 32))

/-- The body of LZW_ENCODE after its length check (R176). -/
def lzwEncodeBody (p : Params) (input : List Byte) (o : Owned) : Result :=
  lzwLoop p input 0 { o with outLen := 0#32, lzw := { o.lzw.initDict with acc := none } }

/-- Exec of LZW_ENCODE (R176). -/
def lzwEncodeResult (p : Params) (x : Snapshot) : Result :=
  checkLen p x (lzwEncodeBody p x.input x.own)

/-- LZW_ENCODE (R176). -/
def execLzwEncode (s : State) : Host.Outcome State Fault Refusal :=
  .next (s.complete (lzwEncodeResult s.params s.snapshot))

end Sys2Proof.Machine
end

