-- ==== Sys2Proof/Machine/RleEncoder.lean ====
section
/-! DEFINITION. Machine/RleEncoder.lean: the RLE encoder (43_rle.md): the run detector (R191), the run encoder (R192), the command
RLE_ENCODE (R194). -/

namespace Sys2Proof.Machine

/-- dec(n) (R14) with at most `fuel` digits: the decimal digits of n, most significant first, no leading zero. -/
def decDigits : Nat → Nat → List Nat
  | 0, _ => []
  | fuel + 1, n => if n < 10 then [n] else decDigits fuel (n / 10) ++ [n % 10]

/-- R14: the byte 0x30 + d of the digit d. -/
def asciiDigit (d : Nat) : Byte := BitVec.ofNat 8 (0x30 + d)

/-- R99, R192: the bytes of a run: its symbol, then the digits of its count. A 32-bit count has at most 10 digits. -/
def runBytes (s : Byte) (c : Word) : List Byte := s :: (decDigits 10 c.toNat).map asciiDigit

/-- R192: the current run's bytes do not fit in OBUF. -/
def Owned.runOverflows (p : Params) (o : Owned) : Bool :=
  decide (o.outLen.toNat + (runBytes o.rle.runSym o.rle.runCnt).length > p.obufBytes)

/-- EmitRun where it fits (R192), on the run registers: the run's bytes, and OUT_LEN up by their number. -/
def Owned.emitRun (o : Owned) : Owned :=
  let bytes := runBytes o.rle.runSym o.rle.runCnt
  { o with obuf := o.obuf.writeList o.outLen.toNat bytes, outLen := o.outLen + BitVec.ofNat 32 bytes.length }

/-- A run of length 1 begins at index `i` (R191). -/
def Owned.startRun (o : Owned) (b : Byte) (i : Nat) : Owned :=
  { o with rle := ⟨b, 1#32, BitVec.ofNat 32 i⟩ }

/-- RleLoop (R191) from the input byte of index `i` ≥ 1 on; at the end of the input the final run is emitted. -/
def rleLoop (p : Params) : List Byte → Nat → Owned → Result
  | [], i, o =>
    let o := { o with pos := BitVec.ofNat 32 i }
    if o.runOverflows p then Result.raise o .obufOvf o.rle.runStart.toNat else Result.complete o.emitRun
  | b :: bs, i, o =>
    let o := { o with pos := BitVec.ofNat 32 i }
    if b = o.rle.runSym then
      rleLoop p bs (i + 1) { o with rle := { o.rle with runCnt := o.rle.runCnt + 1#32 } }
    else if o.runOverflows p then Result.raise o .obufOvf o.rle.runStart.toNat
    else rleLoop p bs (i + 1) (o.emitRun.startRun b i)

/-- The body of RLE_ENCODE after its length check (R191, R194). -/
def rleEncodeBody (p : Params) (input : List Byte) (o : Owned) : Result :=
  let o := { o with outLen := 0#32, pos := 0#32 }
  match input with
  | [] => Result.complete o
  | b :: bs => rleLoop p bs 1 (o.startRun b 0)

/-- Exec of RLE_ENCODE (R194). -/
def rleEncodeResult (p : Params) (x : Snapshot) : Result :=
  checkLen p x (rleEncodeBody p x.input x.own)

/-- RLE_ENCODE (R194). -/
def execRleEncode (s : State) : Host.Outcome State Fault Refusal :=
  .next (s.complete (rleEncodeResult s.params s.snapshot))

end Sys2Proof.Machine
end

