-- ==== Sys2Proof/Machine/System.lean ====
section
/-! DEFINITION. Machine/System.lean: the meanings of NOP (R115) and SOFT_RESET (R116). A meaning is the whole completion step of
R112 for its command: `Exec` on the state as it stands, and what the completion writes. -/

namespace Sys2Proof.Machine

/-- Exec of NOP (R115). -/
def nopResult (x : Snapshot) : Result := Result.complete x.own

/-- NOP (R115). -/
def execNop (s : State) : Host.Outcome State Fault Refusal :=
  .next (s.complete (nopResult s.snapshot))

/-- What SOFT_RESET writes of the engine-owned state (R116): OUT_LEN, ERR_POS, DICT_COUNT (so the dictionary has no entry, R50)
and the Huffman state. OBUF is kept. -/
def Owned.softReset (o : Owned) : Owned :=
  { o with
    outLen := 0#32, errPos := 0#32
    lzw := { o.lzw with dictCount := 0#32, dict := [] }
    huf := o.huf.clear }

/-- Exec of SOFT_RESET (R116), but for HAZ. -/
def softResetResult (x : Snapshot) : Result := Result.complete x.own.softReset

/-- SOFT_RESET (R116): its completion also clears HAZ. -/
def execSoftReset (s : State) : Host.Outcome State Fault Refusal :=
  .next (s.complete (softResetResult s.snapshot)).clearHaz

end Sys2Proof.Machine
end

