-- ==== Sys2Proof/Machine/Dispatch.lean ====
section
/-! DEFINITION. Machine/Dispatch.lean: the meaning of each instruction (R92): the completion step (R112) of the command it is. -/

namespace Sys2Proof.Machine

def exec (i : Instr) (s : State) : Host.Outcome State Fault Refusal :=
  match i with
  | .nop => Sys2Proof.Machine.execNop s
  | .hufEncode => Sys2Proof.Machine.execHufEncode s
  | .lzwEncode => Sys2Proof.Machine.execLzwEncode s
  | .rleEncode => Sys2Proof.Machine.execRleEncode s
  | .hufFreq => Sys2Proof.Machine.execHufFreq s
  | .hufTree => Sys2Proof.Machine.execHufTree s
  | .hufCodes => Sys2Proof.Machine.execHufCodes s
  | .hufPack => Sys2Proof.Machine.execHufPack s
  | .softReset => Sys2Proof.Machine.execSoftReset s

end Sys2Proof.Machine
end

