-- ==== Sys2Proof/Machine/Sequencer.lean ====
section
/-! DEFINITION. Machine/Sequencer.lean: the command sequencer (R110 to R112) and whose turn it is (R20, R72, R262). -/

namespace Sys2Proof.Machine

/-- Whose turn it is: the schedule's next entry; past its end the engine moves while BUSY, so that every accepted command
completes (R117, R262: weak fairness), and the host otherwise. -/
def State.turn (s : State) : Turn :=
  match s.turns with
  | t :: _ => t
  | [] => if s.busy then .engine else .host

/-- The state with the schedule's entry taken. -/
def State.takeTurn (s : State) : State := { s with turns := s.turns.tail }

/-- The engine's turn: while BUSY its one step is the completion step of the pending word (R112), which is that of the
instruction the word decodes to (R91), or of E_BAD_CMD for an illegal word (R211). While idle the engine has no step (R110). -/
def engineStep (s : State) : Host.Outcome State Fault Refusal :=
  match s.engine with
  | .idle => .next s
  | .busy w _ =>
    match decode w with
    | .ok i => exec i s
    | .error _ => .next (s.complete (badCmdResult s.snapshot))

/-- The bits of an instruction of `nbits` bits as the command word that is written to CMD: the bits above are 0 (R90, R95). -/
def fetchWord (nbits w : Nat) : Word := BitVec.ofNat 32 (w % 2 ^ nbits)

end Sys2Proof.Machine
end

