-- ==== Sys2Proof/Machine/Step.lean ====
section
/-! DEFINITION. Machine/Step.lean: one step of the machine: one agent moves (R20, R72). The block fetches no instructions (R21):
the word its engine runs is PENDING, which an accepted host write to CMD put there (R111). -/

namespace Sys2Proof.Machine

/-- One step: the agent whose turn it is moves. -/
def step (s : State) : Host.Outcome State Fault Refusal :=
  match s.turn with
  | .host => hostStep s.takeTurn
  | .engine => engineStep s.takeTurn
  | .hwReset => .next s.takeTurn.hardReset

/-- `s` with the command word whose bits are `w` accepted as a host write to CMD accepts it (R111), and the engine's turn next,
so that the very next step runs it. -/
def State.withFetchWord (s : State) (nbits w : Nat) : State :=
  let t := s.accept (fetchWord nbits w)
  { t with turns := .engine :: t.turns }

end Sys2Proof.Machine
end

