-- ==== Sys2Proof/Machine/Script.lean ====
section
/-! DEFINITION. Machine/Script.lean: host scripts (R100 to R102): the statements a driver is written in, the bus accesses each
stands for, and its encoding as a list of bus triples. -/

namespace Sys2Proof.Machine

/-- A statement of a host script: the base statements WR and RD (R100), and the pseudo-statements of R101. A place is named by its
`Loc`; the name a script gives a word it reads is not part of the access. -/
inductive Stmt where
  /-- `WR <loc>, <value>`. -/
  | wr (l : Loc) (v : Word)
  /-- `RD <loc>`. -/
  | rd (l : Loc)
  /-- `CMD <mnemonic>`. -/
  | cmd (i : Instr)
  /-- `WAIT`. -/
  | wait
  /-- `ACK`. -/
  | ack
  /-- `LOAD [b0, b1, ...]`. -/
  | load (bytes : List Byte)
  /-- `RUN <mnemonic>`. -/
  | run (i : Instr)
  deriving DecidableEq, Repr

/-- One host access of R12 at the place `l` of a block at `base`: a write of 4 bytes. -/
def HostOp.wr (base : Nat) (l : Loc) (v : Word) : HostOp := .write 4 (base + l.offset) v

/-- One host access of R12 at the place `l` of a block at `base`: a read of 4 bytes. -/
def HostOp.rd (base : Nat) (l : Loc) : HostOp := .read 4 (base + l.offset)

/-- R101: byte `i` of a LOAD, 0 past the end of the text. -/
def loadByte (bytes : List Byte) (i : Nat) : Byte := (bytes[i]?).getD 0#8

/-- R101: the word LOAD writes at IBUF+4m. -/
def loadWord (bytes : List Byte) (m : Nat) : Word :=
  loadByte bytes (4 * m + 3) ++ loadByte bytes (4 * m + 2) ++ loadByte bytes (4 * m + 1) ++ loadByte bytes (4 * m)

/-- R100, R101: the host accesses a statement stands for, for a block at `base`. -/
def Stmt.ops (base : Nat) : Stmt → List HostOp
  | .wr l v => [.wr base l v]
  | .rd l => [.rd base l]
  | .cmd i => [.wr base (.reg .cmd) (encode i)]
  | .wait => [.wait]
  | .ack => [.wr base (.reg .status) 0x00000002#32]
  | .load bytes =>
    (List.range ((bytes.length + 3) / 4)).map (fun m => .wr base (.ibuf (4 * m)) (loadWord bytes m)) ++
      [.wr base (.reg .inLen) (BitVec.ofNat 32 bytes.length)]
  | .run i => [.wr base (.reg .cmd) (encode i), .wait]

/-- R102: a bus triple (direction, offset, data). -/
structure BusTriple where
  isWrite : Bool
  offset : Nat
  data : Option Word
  deriving DecidableEq, Repr

/-- R102: the triples of one host access relative to BASE. A WAIT contributes one read of STATUS per poll: the one it always makes
(R101: "one or more reads"), and `more` after it. -/
def HostOp.triples (base more : Nat) : HostOp → List BusTriple
  | .write _ addr v => [⟨true, addr - base, some v⟩]
  | .read _ addr => [⟨false, addr - base, none⟩]
  | .wait => List.replicate (more + 1) ⟨false, (Loc.reg .status).offset, none⟩

/-- R102: the triples of a list of host accesses. `more` holds, for each WAIT in order, how many polls it makes after its first; a
WAIT past the end of `more` polls once. No number of polls is fixed (R262), so every list `more` gives an encoding. -/
def accessTriples (base : Nat) : List Nat → List HostOp → List BusTriple
  | _, [] => []
  | more, .wait :: ops => HostOp.wait.triples base (more.headD 0) ++ accessTriples base more.tail ops
  | more, .write n addr v :: ops => (HostOp.write n addr v).triples base 0 ++ accessTriples base more ops
  | more, .read n addr :: ops => (HostOp.read n addr).triples base 0 ++ accessTriples base more ops

/-- R102: the encoding of a script whose WAITs make the polls that `more` gives. -/
def scriptTriples (base : Nat) (more : List Nat) (script : List Stmt) : List BusTriple :=
  accessTriples base more (script.flatMap (Stmt.ops base))

end Sys2Proof.Machine
end

