-- ==== Sys2Proof/Safety/Reference.lean ====
section
/-! DEFINITION. Safety/Reference.lean: the terms the claims are stated in, written from the source's algorithms and formats and not
from the machine: what an output says, the tree of a Huffman arena, a decoder that has the code table, the LZW encoder over
strings, the runs of an input. -/

namespace Sys2Proof.Reference

open Sys2Proof.Machine

/-! ### Outputs (R97 to R99) -/

/-- R97: the bit-string that OBUF holds in its first `n` bits: bit `p` is bit 7 - (p mod 8) of byte p div 8. -/
def bitsOf (b : Buffer) (n : Nat) : List Bool :=
  (List.range n).map fun p => (b.read (p / 8)).getLsbD (7 - p % 8)

/-- R98: the `n` code words OBUF holds. -/
def wordsOf (b : Buffer) (n : Nat) : List Word := (List.range n).map fun k => b.readWord (4 * k)

/-- R99: the first `n` bytes of OBUF. -/
def bytesOf (b : Buffer) (n : Nat) : List Byte := (List.range n).map b.read

/-- How many bytes `n` bits take. -/
def bytesForBits (n : Nat) : Nat := (n + 7) / 8

/-! ### Huffman (R133 to R137, R142, R143) -/

/-- The input through the code table: the bit-strings of its bytes in order, with no separator (R139). -/
def packedBits (h : Huffman) (input : List Byte) : List Bool := input.flatMap fun b => (h.codeOf b).bits

/-- R142: the sum of the code lengths of the input's bytes. -/
def packedLength (h : Huffman) (input : List Byte) : Nat := (input.map fun b => (h.codeOf b).len.toNat).sum

/-- The sum of the counts of the distinct symbols. -/
def totalCount (h : Huffman) : Nat := (h.order.map fun b => (h.freqOf b).toNat).sum

/-- The kind of the node that the bits lead to from node `i`: `false` to the left child, `true` to the right one (R137). -/
def follow (arena : List Node) : Nat → List Bool → Option NodeKind
  | i, [] => (arena[i]?).map Node.kind
  | i, d :: ds =>
    match (arena[i]?).map Node.kind with
    | some (.internal a b) => follow arena (if d then b.toNat else a.toNat) ds
    | _ => none

/-- `i` is a child of node `n`. -/
def isChild (arena : List Node) (n i : Nat) : Prop :=
  ∃ a b : BitVec 9, (arena[n]?).map Node.kind = some (.internal a b) ∧ (a.toNat = i ∨ b.toNat = i)

/-- R134: the key (NFREQ(i), i) of `i` is less than that of `j`. -/
def keyLess (arena : List Node) (i j : Nat) : Prop :=
  nfreqAt arena i < nfreqAt arena j ∨ (nfreqAt arena i = nfreqAt arena j ∧ i < j)

/-- `i` is in W when node `n` is made, `k` being the number of leaves: it has entered, and no earlier merge has taken it. -/
def waiting (arena : List Node) (k n i : Nat) : Prop :=
  i < n ∧ ∀ m, k ≤ m → m < n → ¬ isChild arena m i

/-- R136: the shape of the tree over the symbols ORDER(0), …, ORDER(k-1) of `h`, k ≥ 1. -/
structure TreeShape (h : Huffman) : Prop where
  nnodes : h.nnodes.toNat = 2 * h.order.length - 1
  arena : h.arena.length = 2 * h.order.length - 1
  root : h.root.toNat = 2 * h.order.length - 2
  /-- The leaves come first, in ORDER order, each with its symbol's count (R133). -/
  leaves : ∀ (j : Nat) (s : Byte), h.order[j]? = some s → h.arena[j]? = some (Node.mk (h.freqOf s) (.leaf s))
  /-- Every later node is internal; its children have smaller indices and its NFREQ is the sum of theirs. -/
  internals : ∀ n : Nat, h.order.length ≤ n → n < h.arena.length → ∃ f a b,
    h.arena[n]? = some (Node.mk f (.internal a b)) ∧ a.toNat < n ∧ b.toNat < n ∧
      f.toNat = nfreqAt h.arena a.toNat + nfreqAt h.arena b.toNat
  /-- Each node except the root is the child of exactly one node. -/
  parent : ∀ i, i < 2 * h.order.length - 2 → ∃! n, isChild h.arena n i
  rootFreq : nfreqAt h.arena h.root.toNat = totalCount h
  /-- The tree is at most k - 1 deep. -/
  depth : ∀ bits, follow h.arena h.root.toNat bits ≠ none → bits.length ≤ h.order.length - 1

/-- R134: every merge took the two least of the nodes then in W, the least as LEFT and the next as RIGHT. -/
def SelectsLeast (h : Huffman) : Prop :=
  ∀ (n : Nat) (f : Word) (a b : BitVec 9), h.arena[n]? = some (Node.mk f (.internal a b)) →
    waiting h.arena h.order.length n a.toNat ∧ waiting h.arena h.order.length n b.toNat ∧ a ≠ b ∧
    (∀ i, waiting h.arena h.order.length n i → i ≠ a.toNat → keyLess h.arena a.toNat i) ∧
    (∀ i, waiting h.arena h.order.length n i → i ≠ a.toNat → i ≠ b.toNat → keyLess h.arena b.toNat i)

/-- The symbol whose valid code is exactly `bits`, if there is one: what a reader of the CODELEN and CODE windows finds. -/
def symbolOf (h : Huffman) (bits : List Bool) : Option Byte :=
  ((List.range 256).map (BitVec.ofNat 8)).find? fun s => (h.codeOf s).valid && (h.codeOf s).bits == bits

/-- A decoder that has the code table: it gathers bits until they are a symbol's code, gives that symbol, and starts afresh. -/
def decodeBits (h : Huffman) : List Bool → List Bool → List Byte
  | _, [] => []
  | seen, d :: ds =>
    match symbolOf h (seen ++ [d]) with
    | some s => s :: decodeBits h [] ds
    | none => decodeBits h (seen ++ [d]) ds

/-! ### LZW over strings (§4.2 as R170 to R175 quote it) -/

/-- The code of a string: a single byte is its own code; `keys` are the strings of the codes 256, 257, … -/
def stringCode (keys : List (List Byte)) (str : List Byte) : Option Nat :=
  match str with
  | [b] => some b.toNat
  | _ => (keys.idxOf? str).map (256 + ·)

/-- The source's LZW encoder over strings, from input index `i` on: the codes it emits, each with the input index at which it
emits it. `cur` is the accumulator. -/
def lzwCodes (keys : List (List Byte)) (cur : List Byte) : List Byte → Nat → List (Nat × Nat)
  | [], i => if cur = [] then [] else [((stringCode keys cur).getD 0, i)]
  | b :: bs, i =>
    if (stringCode keys (cur ++ [b])).isSome then lzwCodes keys (cur ++ [b]) bs (i + 1)
    else ((stringCode keys cur).getD 0, i) :: lzwCodes (keys ++ [cur ++ [b]]) [b] bs (i + 1)

/-- The source's `lzwEncode` with its positions. -/
def lzwOutput (input : List Byte) : List (Nat × Nat) := lzwCodes [] [] input 0

/-! ### RLE (§4.3 as R190 to R193 quote it) -/

/-- The maximal runs of the input, in order: each symbol with its count. -/
def runsOf (input : List Byte) : List (Byte × Nat) :=
  (input.splitBy (· == ·)).map fun g => (g.headD 0#8, g.length)

/-- R99: the bytes of a run: the symbol, then the decimal digits of its count as ASCII, most significant first. -/
def runText (r : Byte × Nat) : List Byte :=
  r.1 :: (Nat.digits 10 r.2).reverse.map fun d => BitVec.ofNat 8 (0x30 + d)

/-- R99: the text of a list of runs. -/
def runsText (rs : List (Byte × Nat)) : List Byte := rs.flatMap runText

end Sys2Proof.Reference
end

