-- ==== Sys2Proof/Safety.lean ====
section
/-! DEFINITION. Safety.lean: what holds of the machine between steps, in the terms claims use: the invariants of the buffers, of the
command protocol, of the Huffman chain and of the LZW dictionary; and when a host's program stays inside the interface. -/

namespace Sys2Proof.Machine

/-- A host access inside the interface: 32 bits wide (R62) and at an address the block answers (R61). -/
def HostOp.legal (p : Params) : HostOp → Bool
  | .write bytes addr _ => accessWidthOk bytes && (busOffset p addr).isSome
  | .read bytes addr => accessWidthOk bytes && (busOffset p addr).isSome
  | .wait => true

/-- Every access the host has still to make is inside the interface. A step of such a state neither faults nor refuses. -/
abbrev State.HostLegal (s : State) : Prop := ∀ op ∈ s.host, op.legal s.params = true

/-- A buffer of `n` bytes in canonical form: indices strictly rising, all of them below `n` (R55). -/
abbrev Buffer.Wf (n : Nat) (b : Buffer) : Prop := Memory.wf b.cells ∧ ∀ c ∈ b.cells, c.1 < n

/-- The parameters meet R6, and IBUF and OBUF are in canonical form within their sizes (R55). -/
structure State.BuffersOk (s : State) : Prop where
  params : s.params.wf = true
  ibuf : Buffer.Wf s.params.ibufBytes s.ibuf
  obuf : Buffer.Wf s.params.obufBytes s.own.obuf

/-- The command protocol (R26 to R35, R111, R112). -/
structure State.ControlOk (s : State) : Prop where
  /-- While BUSY, PENDING is CMD, and SNAP is still what a command would read (R112). -/
  snap : ∀ w x, s.engine = .busy w x → w = s.cmd ∧ x = s.snapshot
  /-- While BUSY, DONE, ERR, ERRCODE and ERR_POS are 0 (R29, R30, R35). -/
  running : s.busy = true → s.status.done = false ∧ s.status.error = none
  /-- LASTOP is CMD's OP (R32). -/
  lastop : s.status.lastop = s.cmd.extractLsb' 0 4
  /-- ERR_POS is 0 when no error is held (R210). -/
  errPos : s.status.error = none → s.own.errPos = 0#32

/-- The frequency table (R46): HUF_NSYM is the number of distinct symbols, each once in ORDER, and they are the symbols of a nonzero
count. -/
structure Huffman.CountsOk (h : Huffman) : Prop where
  nsym : h.nsym.toNat = h.order.length
  nodup : h.order.Nodup
  counted : ∀ b, b ∈ h.order ↔ h.freqOf b ≠ 0#32
  bounded : Reference.totalCount h ≤ 2 ^ 20

/-- The tree of `h` is that of its counts: what BuildTree makes of them (R135). -/
def Huffman.TreeCurrent (h : Huffman) : Prop :=
  h.arena = (buildTree h).arena ∧ h.nnodes = (buildTree h).nnodes ∧ h.root = (buildTree h).root

/-- The Huffman chain (R130): the counts are well formed, W is empty (R48), the tree is empty or that of the counts, the code table
is clear or that of the tree. -/
structure Huffman.ChainOk (h : Huffman) : Prop extends Huffman.CountsOk h where
  work : h.work = []
  tree : (h.arena = [] ∧ h.nnodes = 0#32 ∧ h.root = Config.noRoot) ∨ h.TreeCurrent
  codes : h.codes = clearedCodes ∨ h.codes = (genCodes h).codes

/-- The LZW dictionary (R37, R50, R170): no entries before the first LZW_ENCODE; else DICT_COUNT counts them and the 256 implicit
ones, at most DICT_CAP; an entry's prefix is an earlier code; no pair occurs twice. -/
structure Lzw.DictOk (cap : Nat) (z : Lzw) : Prop where
  count : (z.dictCount = 0#32 ∧ z.dict = []) ∨ z.dictCount.toNat = 256 + z.dict.length
  capacity : z.dictCount.toNat ≤ cap
  earlier : ∀ (k : Nat) (e : DictEntry), z.dict[k]? = some e → e.pfx.toNat < 256 + k
  nodup : z.dict.Nodup

/-- `l` names a word of a block with parameters `p`: IBUF and OBUF words begin at a multiple of 4 inside the buffer (R66, R67). -/
def Loc.Valid (p : Params) : Loc → Prop
  | .ibuf j => j % 4 = 0 ∧ j < p.ibufBytes
  | .obuf j => j % 4 = 0 ∧ j < p.obufBytes
  | .reg _ | .freq _ | .codeLen _ | .code _ _ | .node _ _ | .reserved => True

/-- `off` lies in reserved space (R60). -/
def reservedOffset (p : Params) (off : Nat) : Prop :=
  (0x3C ≤ off ∧ off < 0x400) ∨ (0xC00 ≤ off ∧ off < 0x2000) ∨ (0x6000 ≤ off ∧ off < 0x100000) ∨
  (0x100000 + p.ibufBytes ≤ off ∧ off < 0x200000) ∨ (0x200000 + p.obufBytes ≤ off ∧ off < 0x400000)

/-- The host is to move, its next access being `op` and `rest` the accesses after it. -/
def State.HostTurn (s : State) (op : HostOp) (rest : List HostOp) : Prop := s.turn = .host ∧ s.host = op :: rest

/-- `s` when the host's turn and its access have been taken, and nothing else has happened. -/
def State.tookAccess (s : State) (rest : List HostOp) : State := { s with host := rest, turns := s.turns.tail }

/-- What a completion without an error leaves (R112), the engine-owned state being `own`. -/
def State.finished (s : State) (own : Owned) : State :=
  { s with own := own, engine := .idle, status := { s.status with done := true } }

/-- What a completion with the error `e` at position `pos` leaves (R112, R214), the engine-owned state being `own` but for ERR_POS. -/
def State.failed (s : State) (own : Owned) (e : ErrKind) (pos : Nat) : State :=
  { s with
    own := { own with errPos := BitVec.ofNat 32 pos }, engine := .idle
    status := { s.status with done := true, error := some e } }

/-- The invariant of the whole machine. -/
structure State.Inv (s : State) : Prop where
  buffers : s.BuffersOk
  control : s.ControlOk
  huffman : s.own.huf.ChainOk
  lzw : s.own.lzw.DictOk s.params.dictCap

end Sys2Proof.Machine
end

