-- ==== Sys2Proof/Certificates/Slice0/Obligations.lean ====
section
/-! DEFINITION. Certificates/Slice0/Obligations.lean: the statements about the model, for the provers. Each docstring names the rule
of spec/ it formalises. A value that rests on a choice of the model's is named with its log entry. -/

open Sys2Proof Sys2Proof.Machine Sys2Proof.Reference

/-! ### Encoding -/

/-- R92, R93: words written out from the opcode map, and reserved neighbours of theirs. A sanity statement. -/
def Obligations.TableWordsDecode : Prop :=
  decode 0x00000000#32 = .ok .nop ∧ decode 0x00000001#32 = .ok .hufEncode ∧
  decode 0x00000002#32 = .ok .lzwEncode ∧ decode 0x00000003#32 = .ok .rleEncode ∧
  decode 0x00000004#32 = .ok .hufFreq ∧ decode 0x00000005#32 = .ok .hufTree ∧
  decode 0x00000006#32 = .ok .hufCodes ∧ decode 0x00000007#32 = .ok .hufPack ∧
  decode 0x0000000F#32 = .ok .softReset ∧
  decode 0x00000008#32 = .error .reservedOp ∧ decode 0x0000000E#32 = .error .reservedOp ∧
  decode 0x00000010#32 = .error .reservedBits ∧ decode 0x80000002#32 = .error .reservedBits

/-- R91, R92: the decoder reads an instruction from a word exactly when the word is that instruction's encoding; in particular
every instruction decodes from its encoding. -/
def Obligations.DecodeInvertsEncode : Prop :=
  ∀ (i : Instr) (w : Word), decode w = .ok i ↔ w = encode i

/-- R91, R93: a word is legal exactly when bits 31:4 are 0 and bits 3:0 are one of the nine OP values; any other word is
rejected, by the reason R93 gives. -/
def Obligations.LegalWordsAreTheNine : Prop :=
  ∀ w : Word,
    ((∃ i, decode w = .ok i) ↔ w.toNat / 16 = 0 ∧ (w.toNat % 16 ≤ 7 ∨ w.toNat % 16 = 15)) ∧
    (decode w = .error .reservedBits ↔ w.toNat / 16 ≠ 0) ∧
    (decode w = .error .reservedOp ↔ w.toNat / 16 = 0 ∧ 8 ≤ w.toNat % 16 ∧ w.toNat % 16 ≤ 14)

/-! ### The step -/

/-- R91, R112: at the engine's turn, when PENDING decodes to an instruction, the step is that instruction's meaning, the turn having
been taken. Whose turn it is, is the model's schedule (log 3). -/
def Obligations.EngineTurnRunsPending : Prop :=
  ∀ (s : State) (w : Word) (x : Snapshot) (i : Instr),
    s.turn = .engine → s.engine = .busy w x → decode w = .ok i →
    step s = exec i { s with turns := s.turns.tail }

/-- R211: an illegal pending word completes with E_BAD_CMD at position 0, and nothing else changes; after the host's write of it to
CMD and that completion, CMD is the word, LASTOP its OP, and everything the engine owns is as before but ERR_POS, which is 0. -/
def Obligations.IllegalWordCompletesWithBadCmd : Prop :=
  ∀ (s : State) (w : Word), (w.toNat / 16 ≠ 0 ∨ (8 ≤ w.toNat % 16 ∧ w.toNat % 16 ≤ 14)) →
    (∀ x : Snapshot, s.turn = .engine → s.engine = .busy w x →
      step s = .next ({ s with turns := s.turns.tail }.failed s.own .badCmd 0)) ∧
    (∀ rest : List HostOp, s.busy = false → s.turns = [.host, .engine] →
      s.host = .write 4 (s.params.base + 0x008) w :: rest →
      core.run 2 s = .next { s with
        cmd := w, host := rest, turns := []
        status := ⟨true, some .badCmd, s.status.haz, BitVec.ofNat 4 (w.toNat % 16)⟩
        own := { s.own with errPos := 0#32 } })

/-- R110, R230: the engine's turn while idle, and the host's turn with nothing to do, change nothing but the schedule. That such a
turn is a step at all is the model's choice (log 3). -/
def Obligations.IdleBlockKeepsItsState : Prop :=
  ∀ s : State,
    (s.turn = .engine → s.busy = false → step s = .next { s with turns := s.turns.tail }) ∧
    (s.turn = .host → s.host = [] → step s = .next { s with turns := s.turns.tail })

/-- R56, R240: a hardware reset gives every piece of state the value the spec states, whatever ran; IBUF and OBUF bytes become free
draws (log 1). The engine's POS, ACC and run registers, which the spec gives no value, are left out (log 4); the host's side is
kept (log 12). -/
def Obligations.HardwareResetValues : Prop :=
  ∀ s : State, s.turn = .hwReset →
    ∃ t, step s = .next t ∧
      t.engine = .idle ∧ t.cmd = 0#32 ∧ t.inLen = 0#32 ∧ t.irqEn = false ∧
      statusWord t.busy t.status = 0#32 ∧ t.irq = false ∧
      t.own.outLen = 0#32 ∧ t.own.errPos = 0#32 ∧ t.own.lzw.dictCount = 0#32 ∧
      t.own.huf.nsym = 0#32 ∧ t.own.huf.nnodes = 0#32 ∧ t.own.huf.root = 0xFFFFFFFF#32 ∧
      (∀ b, t.own.huf.freqOf b = 0#32) ∧ (∀ b, t.own.huf.codeOf b = ⟨false, 0#8, 0#256⟩) ∧
      (∀ j, t.ibuf.read j = Config.freeByte s.draws j) ∧
      (∀ j, t.own.obuf.read j = Config.freeByte (s.draws + 1) j) ∧
      t.params = s.params ∧ t.host = s.host ∧ t.turns = s.turns.tail ∧ t.reads = s.reads

/-! ### The host port -/

/-- R60, R63: the address map: the word a place's offset names, at each of its four byte offsets, is that place; and the block
answers all of them. R23, R42 to R45, R66, R67: the offsets themselves. -/
def Obligations.AddressMapNamesEveryPlace : Prop :=
  (∀ (p : Params) (l : Loc) (k : Nat), p.wf = true → l.Valid p → k < 4 →
    locAt p (l.offset + k) = l ∧ busOffset p (p.base + l.offset + k) = some (l.offset + k)) ∧
  [Reg.id, .version, .cmd, .status, .inLen, .outLen, .errPos, .irqEn, .dictCount, .hufNsym, .hufNnodes, .hufRoot, .paramIbuf,
      .paramObuf, .paramDict].map (fun r => (Loc.reg r).offset) =
    [0x000, 0x004, 0x008, 0x00C, 0x010, 0x014, 0x018, 0x01C, 0x020, 0x024, 0x028, 0x02C, 0x030, 0x034, 0x038] ∧
  (∀ b : Byte, (Loc.freq b).offset = 0x0400 + 4 * b.toNat ∧ (Loc.codeLen b).offset = 0x0800 + 4 * b.toNat) ∧
  (∀ (b : Byte) (w : BitVec 3), (Loc.code b w).offset = 0x2000 + 32 * b.toNat + 4 * w.toNat) ∧
  (∀ (i : BitVec 9) (f : BitVec 2), (Loc.node i f).offset = 0x4000 + 16 * i.toNat + 4 * f.toNat) ∧
  (∀ j : Nat, (Loc.ibuf j).offset = 0x100000 + j ∧ (Loc.obuf j).offset = 0x200000 + j)

/-- R111: a host write of any word to CMD while BUSY = 0 is accepted: CMD, BUSY, DONE, ERR, ERRCODE, LASTOP, ERR_POS and PENDING take
their values in one step, and nothing else of the block changes (HAZ and IRQ_EN among it); SNAP is the state at acceptance. While
BUSY = 1 it is not accepted: it only sets HAZ (R26). -/
def Obligations.CommandAcceptance : Prop :=
  ∀ (s : State) (v : Word) (k : Nat) (rest : List HostOp),
    s.HostTurn (.write 4 (s.params.base + (0x008 + k)) v) rest → k < 4 →
    (s.busy = false → step s = .next { s.tookAccess rest with
      cmd := v
      status := { done := false, error := none, haz := s.status.haz, lastop := BitVec.ofNat 4 (v.toNat % 16) }
      own := { s.own with errPos := 0#32 }
      engine := .busy v ⟨s.inLen, s.ibuf, { s.own with errPos := 0#32 }⟩ }) ∧
    (s.busy = true → step s = .next { s.tookAccess rest with status := { s.status with haz := true } })

/-- R250, R26, R33, R66: while BUSY a host write to CMD, IN_LEN or IBUF is dropped, sets HAZ, and does nothing else. -/
def Obligations.BusyWriteDropped : Prop :=
  ∀ (s : State) (l : Loc) (v : Word) (k : Nat) (rest : List HostOp),
    s.params.wf = true → l.Valid s.params → (l = .reg .cmd ∨ l = .reg .inLen ∨ ∃ j, l = .ibuf j) →
    s.HostTurn (.write 4 (s.params.base + l.offset + k) v) rest → k < 4 → s.busy = true →
    step s = .next { s.tookAccess rest with status := { s.status with haz := true } }

/-- R27, R29, R31: a host write to STATUS, busy or not, clears DONE where bit 1 of the word is 1 and HAZ where bit 8 is, and changes
nothing else. -/
def Obligations.StatusWriteClearsDoneAndHaz : Prop :=
  ∀ (s : State) (v : Word) (k : Nat) (rest : List HostOp),
    s.HostTurn (.write 4 (s.params.base + (0x00C + k)) v) rest → k < 4 →
    step s = .next { s.tookAccess rest with
      status := { s.status with
        done := if v.toNat / 2 % 2 = 1 then false else s.status.done
        haz := if v.toNat / 256 % 2 = 1 then false else s.status.haz } }

/-- R33, R36: IN_LEN takes any word written while idle, unchanged; IRQ_EN takes bit 0 of a word written, busy or not. -/
def Obligations.InLenAndIrqEnWrites : Prop :=
  ∀ (s : State) (v : Word) (k : Nat) (rest : List HostOp), k < 4 →
    (s.HostTurn (.write 4 (s.params.base + (0x010 + k)) v) rest → s.busy = false →
      step s = .next { s.tookAccess rest with inLen := v }) ∧
    (s.HostTurn (.write 4 (s.params.base + (0x01C + k)) v) rest →
      step s = .next { s.tookAccess rest with irqEn := v.toNat % 2 == 1 })

/-- R66: a host write of a word to IBUF while idle sets its four bytes, the lowest offset from bits 7:0, and no other byte; while BUSY
it is dropped and sets HAZ; nothing else changes. A host read of that word returns its four bytes, BUSY or not. -/
def Obligations.IbufWindow : Prop :=
  ∀ (s : State) (j k : Nat) (rest : List HostOp),
    s.params.wf = true → j % 4 = 0 → j < s.params.ibufBytes → k < 4 →
    (∀ v : Word, s.HostTurn (.write 4 (s.params.base + (0x100000 + j + k)) v) rest → s.busy = false →
      ∃ b, step s = .next { s.tookAccess rest with ibuf := b } ∧
        (∀ n, n < 4 → (b.read (j + n)).toNat = v.toNat / 256 ^ n % 256) ∧
        (∀ a, a < j ∨ j + 4 ≤ a → b.read a = s.ibuf.read a)) ∧
    (∀ v : Word, s.HostTurn (.write 4 (s.params.base + (0x100000 + j + k)) v) rest → s.busy = true →
      step s = .next { s.tookAccess rest with status := { s.status with haz := true } }) ∧
    (s.HostTurn (.read 4 (s.params.base + (0x100000 + j + k))) rest →
      ∃ v : Word, step s = .next { s.tookAccess rest with reads := v :: s.reads } ∧
        ∀ n, n < 4 → v.toNat / 256 ^ n % 256 = (s.ibuf.read (j + n)).toNat)

/-- R64, R23: a host write to reserved space, to a read-only register or to a read-only window is ignored; it sets no HAZ. -/
def Obligations.ReadOnlyWriteIgnored : Prop :=
  ∀ (s : State) (l : Loc) (v : Word) (k : Nat) (rest : List HostOp),
    s.params.wf = true → l.Valid s.params → k < 4 →
    (l ≠ .reg .cmd ∧ l ≠ .reg .status ∧ l ≠ .reg .inLen ∧ l ≠ .reg .irqEn ∧ ∀ j, l ≠ .ibuf j) →
    s.HostTurn (.write 4 (s.params.base + l.offset + k) v) rest →
    step s = .next (s.tookAccess rest)

/-- R64: every offset of reserved space reads 0, busy or not, and a write there is ignored. -/
def Obligations.ReservedSpaceReadsZero : Prop :=
  ∀ (s : State) (off : Nat) (v : Word) (rest : List HostOp), s.params.wf = true → reservedOffset s.params off →
    (s.HostTurn (.read 4 (s.params.base + off)) rest →
      step s = .next { s.tookAccess rest with reads := 0#32 :: s.reads }) ∧
    (s.HostTurn (.write 4 (s.params.base + off) v) rest → step s = .next (s.tookAccess rest))

/-- R65: no host read has a side effect: of the state, only the record of what was read grows, by one word, and the counter of free
draws may (log 6). R101: a poll of WAIT is such a read, of STATUS; the WAIT is over exactly when the poll saw DONE = 1 (bit 1 of the
word it returned), and otherwise stays first in the host's list. -/
def Obligations.HostReadHasNoSideEffect : Prop :=
  (∀ (s t : State) (bytes addr : Nat) (rest : List HostOp),
    s.HostTurn (.read bytes addr) rest → step s = .next t →
    t = { s.tookAccess rest with reads := t.reads, draws := t.draws } ∧ t.reads.tail = s.reads ∧
      t.reads.length = s.reads.length + 1) ∧
  (∀ (s : State) (rest : List HostOp), s.HostTurn .wait rest →
    ((statusWord s.busy s.status).getLsbD 1 = true →
      step s = .next { s.tookAccess rest with reads := statusWord s.busy s.status :: s.reads }) ∧
    ((statusWord s.busy s.status).getLsbD 1 = false →
      step s = .next { s.tookAccess (.wait :: rest) with reads := statusWord s.busy s.status :: s.reads }))

/-- R71, U3: while BUSY a read of a result location returns a free draw, a fresh one for each such read; a read of any other place
returns its defined value. While idle every place reads as its defined value. The draws are the model's (log 6). R23, R26, R27, R33
to R40, R67: the defined values of the registers that hold state, and of a word of OBUF, its lowest byte in bits 7:0. -/
def Obligations.ReadsWhileBusy : Prop :=
  ∀ s : State,
    (∀ (l : Loc) (k : Nat) (rest : List HostOp),
      s.params.wf = true → l.Valid s.params → k < 4 →
      s.HostTurn (.read 4 (s.params.base + l.offset + k)) rest →
      (s.busy = true → l.isResult = true →
        step s = .next { s.tookAccess rest with reads := Config.freeRead s.draws :: s.reads, draws := s.draws + 1 }) ∧
      (s.busy = false ∨ l.isResult = false →
        step s = .next { s.tookAccess rest with reads := s.readLoc l :: s.reads })) ∧
    s.readLoc (.reg .cmd) = s.cmd ∧ s.readLoc (.reg .status) = statusWord s.busy s.status ∧
    s.readLoc (.reg .inLen) = s.inLen ∧ s.readLoc (.reg .outLen) = s.own.outLen ∧
    s.readLoc (.reg .errPos) = s.own.errPos ∧ (s.readLoc (.reg .irqEn)).toNat = s.irqEn.toNat ∧
    s.readLoc (.reg .dictCount) = s.own.lzw.dictCount ∧ s.readLoc (.reg .hufNsym) = s.own.huf.nsym ∧
    s.readLoc (.reg .hufNnodes) = s.own.huf.nnodes ∧ s.readLoc (.reg .hufRoot) = s.own.huf.root ∧
    (∀ j n, n < 4 → (s.readLoc (.obuf j)).toNat / 256 ^ n % 256 = (s.own.obuf.read (j + n)).toNat)

/-- R41, and R24 and R25 as far as reads go: ID, VERSION and PARAM_* read as their constants in every state, busy or not. -/
def Obligations.ConstantRegistersRead : Prop :=
  ∀ (s t : State) (rest : List HostOp), s.params.wf = true → step s = .next t →
    (s.HostTurn (.read 4 (s.params.base + 0x000)) rest → t.reads.head? = some 0x434F5245#32) ∧
    (s.HostTurn (.read 4 (s.params.base + 0x004)) rest → t.reads.head? = some 0x00010000#32) ∧
    (s.HostTurn (.read 4 (s.params.base + 0x030)) rest → t.reads.head?.map BitVec.toNat = some s.params.ibufBytes) ∧
    (s.HostTurn (.read 4 (s.params.base + 0x034)) rest → t.reads.head?.map BitVec.toNat = some s.params.obufBytes) ∧
    (s.HostTurn (.read 4 (s.params.base + 0x038)) rest → t.reads.head?.map BitVec.toNat = some s.params.dictCap)

/-- R27, R30, R210: STATUS as the host reads it: BUSY, DONE, ERR, ERRCODE, HAZ and LASTOP at their bits, every other bit 0. -/
def Obligations.StatusReadsItsFields : Prop :=
  ∀ (busy : Bool) (t : Status),
    (statusWord busy t).toNat =
      busy.toNat + 2 * t.done.toNat + 4 * t.error.isSome.toNat +
      16 * (match t.error with
        | none => 0 | some .badCmd => 1 | some .len => 2 | some .obufOvf => 3 | some .dictFull => 4 | some .noCode => 5) +
      256 * t.haz.toNat + 4096 * t.lastop.toNat

/-- R42 to R45: what the Huffman windows read as while idle, the CODE words of a symbol being the digits of CODE_VAL in base 2^32; an
entry of the NODE window at or past HUF_NNODES reads 0. -/
def Obligations.HuffmanWindowsRead : Prop :=
  ∀ s : State,
    (∀ b, s.readLoc (.freq b) = s.own.huf.freqOf b) ∧
    (∀ b, (s.readLoc (.codeLen b)).toNat = (s.own.huf.codeOf b).len.toNat + 256 * (s.own.huf.codeOf b).valid.toNat) ∧
    (∀ b (w : BitVec 3), (s.readLoc (.code b w)).toNat = (s.own.huf.codeOf b).val.toNat / 2 ^ (32 * w.toNat) % 2 ^ 32) ∧
    (∀ (i : BitVec 9) (n : Node), i.toNat < s.own.huf.nnodes.toNat → s.own.huf.arena[i.toNat]? = some n →
      s.readLoc (.node i 0#2) = n.nfreq ∧
      (∀ b, n.kind = .leaf b → (s.readLoc (.node i 1#2)).toNat = 1 + 256 * b.toNat ∧
        s.readLoc (.node i 2#2) = 0#32 ∧ s.readLoc (.node i 3#2) = 0#32) ∧
      (∀ a b, n.kind = .internal a b → s.readLoc (.node i 1#2) = 0#32 ∧
        (s.readLoc (.node i 2#2)).toNat = a.toNat ∧ (s.readLoc (.node i 3#2)).toNat = b.toNat)) ∧
    (∀ (i : BitVec 9) (f : BitVec 2), s.own.huf.nnodes.toNat ≤ i.toNat → s.readLoc (.node i f) = 0#32)

/-- R61, R62: an access of a width other than 32 bits is refused; one at an address the block does not answer is a fault (the model's
choice for what lies outside, log 8); every other access is made. -/
def Obligations.AccessesOutsideTheInterfaceStop : Prop :=
  ∀ (s : State) (op : HostOp) (rest : List HostOp) (bytes addr : Nat),
    s.HostTurn op rest → (op = .read bytes addr ∨ ∃ v, op = .write bytes addr v) →
    (bytes ≠ 4 → step s = .refused .accessWidth) ∧
    (bytes = 4 → (addr < s.params.base ∨ s.params.base + 2 ^ 22 ≤ addr) → step s = .fault .outsideBlock) ∧
    (bytes = 4 → s.params.base ≤ addr → addr < s.params.base + 2 ^ 22 → ∃ t, step s = .next t)

/-- R220: the IRQ output is DONE AND DONE_IE as the host reads the two. A completion, with or without an error, makes it DONE_IE; a
write to IRQ_EN makes it DONE where bit 0 is 1, and 0 where it is 0; a write that clears DONE, an acceptance and a hardware reset
make it 0. -/
def Obligations.IrqFollowsDoneAndEnable : Prop :=
  (∀ s : State, s.irq = ((s.readReg .status).getLsbD 1 && (s.readReg .irqEn).getLsbD 0)) ∧
  (∀ s t : State, step s = .next t →
    (s.turn = .engine → s.busy = true → t.irq = s.irqEn) ∧
    (∀ v rest, s.HostTurn (.write 4 (s.params.base + 0x01C) v) rest → t.irq = (s.status.done && v.getLsbD 0)) ∧
    (∀ v rest, s.HostTurn (.write 4 (s.params.base + 0x00C) v) rest → v.getLsbD 1 = true → t.irq = false) ∧
    (∀ v rest, s.HostTurn (.write 4 (s.params.base + 0x008) v) rest → s.busy = false → t.irq = false) ∧
    (s.turn = .hwReset → t.irq = false))

/-- R101, R74, R66: the accesses of a LOAD, made one after another while idle, leave IN_LEN and IBUF such that a command's input is
exactly the loaded bytes; of the block nothing else changes. The host moves because no schedule is left (log 3). -/
def Obligations.LoadGivesTheInput : Prop :=
  ∀ (s : State) (bytes : List Byte), s.params.wf = true → bytes.length ≤ s.params.ibufBytes → s.busy = false →
    s.turns = [] → s.host = (Stmt.load bytes).ops s.params.base →
    ∃ b, core.run s.host.length s = .next { s with host := [], inLen := BitVec.ofNat 32 bytes.length, ibuf := b } ∧
      Snapshot.input ⟨BitVec.ofNat 32 bytes.length, b, s.own⟩ = bytes

/-! ### System commands -/

/-- R115: NOP completes without an error and changes nothing but ENGINE and DONE. So a host's write of 0x00000000 to CMD, and the
completion, leave DONE = 1, ERR = 0, ERRCODE = 0, LASTOP = 0, the IRQ output at DONE_IE, and every output, table and count as it
was; a nonzero RSV above OP = 0 makes the word illegal. -/
def Obligations.NopCompletes : Prop :=
  (∀ s : State, exec .nop s = .next (s.finished s.own)) ∧
  (∀ (s : State) (rest : List HostOp), s.busy = false → s.turns = [.host, .engine] →
    s.host = .write 4 (s.params.base + 0x008) 0x00000000#32 :: rest →
    ∃ t, core.run 2 s = .next t ∧ t.irq = s.irqEn ∧
      t = { s with
        cmd := 0#32, host := rest, turns := []
        status := ⟨true, none, s.status.haz, 0#4⟩, own := { s.own with errPos := 0#32 } }) ∧
  (∀ w : Word, w.toNat % 16 = 0 → w ≠ 0x00000000#32 → decode w = .error .reservedBits)

/-- R116: SOFT_RESET completes; OUT_LEN, ERR_POS, DICT_COUNT, HUF_NSYM, HUF_NNODES, FREQ and HAZ are 0, HUF_ROOT is NONE and the code
table is cleared; IBUF, OBUF, IN_LEN, IRQ_EN, CMD and all else are kept. With their counts at 0, ORDER, the arena and the dictionary
have no entries (R46, R47, R50; log 10). Accepted and completed it leaves STATUS = 0x0000F002, whatever was dropped meanwhile. -/
def Obligations.SoftResetCompletes : Prop :=
  ∀ s : State, (∃ t, exec .softReset (s.accept 0x0000000F#32) = .next t ∧ statusWord t.busy t.status = 0x0000F002#32) ∧
   ∃ h : Huffman,
    exec .softReset s = .next { s with
      engine := .idle
      status := { s.status with done := true, haz := false }
      own := { s.own with
        outLen := 0#32, errPos := 0#32, lzw := { s.own.lzw with dictCount := 0#32, dict := [] }, huf := h } } ∧
    h.nsym = 0#32 ∧ h.nnodes = 0#32 ∧ h.root = 0xFFFFFFFF#32 ∧ h.order = [] ∧ h.arena = [] ∧ h.work = s.own.huf.work ∧
    (∀ b, h.freqOf b = 0#32) ∧ (∀ b, h.codeOf b = ⟨false, 0#8, 0#256⟩)

/-- R113, R213: a command that reads input, run with IN_LEN > IBUF_BYTES, completes with E_LEN at position 0 and changes nothing
but STATUS and ERR_POS. With IN_LEN ≤ IBUF_BYTES no command raises E_LEN, and NOP, HUF_TREE, HUF_CODES and SOFT_RESET never do. -/
def Obligations.InputLengthCheck : Prop :=
  ∀ (s : State) (i : Instr),
    ((i = .hufFreq ∨ i = .hufPack ∨ i = .hufEncode ∨ i = .lzwEncode ∨ i = .rleEncode) →
      s.params.ibufBytes < s.inLen.toNat → exec i s = .next (s.failed s.own .len 0)) ∧
    ((i = .nop ∨ i = .hufTree ∨ i = .hufCodes ∨ i = .softReset ∨ s.inLen.toNat ≤ s.params.ibufBytes) →
      s.status.error = none → ∃ t, exec i s = .next t ∧ t.status.error ≠ some .len)

/-! ### Huffman -/

/-- R131, R132, R46: HUF_FREQ completes; FREQ(s) is the number of occurrences of s in the input, they sum to IN_LEN, ORDER is the
distinct symbols by first occurrence, HUF_NSYM their number; the tree and the code table are emptied; nothing else changes but the
hidden POS. -/
def Obligations.HufFreqCounts : Prop :=
  ∀ s : State, s.inLen.toNat ≤ s.params.ibufBytes →
    ∃ (h : Huffman) (p : Word),
      exec .hufFreq s = .next (s.finished { s.own with huf := h, pos := p }) ∧
      (∀ b, (h.freqOf b).toNat = s.snapshot.input.count b) ∧ totalCount h = s.inLen.toNat ∧
      h.order.Nodup ∧ (∀ b, b ∈ h.order ↔ b ∈ s.snapshot.input) ∧
      h.order.Pairwise (fun a b => s.snapshot.input.idxOf a < s.snapshot.input.idxOf b) ∧
      h.nsym.toNat = h.order.length ∧ h.nnodes = 0#32 ∧ h.arena = [] ∧ h.root = 0xFFFFFFFF#32 ∧
      (∀ b, h.codeOf b = ⟨false, 0#8, 0#256⟩) ∧ h.work = s.own.huf.work

/-- R133, R135, R136: HUF_TREE completes; from counts of k ≥ 1 symbols it makes the tree of R136, from none the empty tree; the code
table is cleared; FREQ, ORDER, HUF_NSYM and all else are kept. -/
def Obligations.HufTreeShape : Prop :=
  ∀ s : State, s.own.huf.CountsOk →
    ∃ h : Huffman,
      exec .hufTree s = .next (s.finished { s.own with huf := h }) ∧
      h.freq = s.own.huf.freq ∧ h.order = s.own.huf.order ∧ h.nsym = s.own.huf.nsym ∧ h.work = [] ∧
      (∀ b, h.codeOf b = ⟨false, 0#8, 0#256⟩) ∧
      (h.order ≠ [] → TreeShape h) ∧
      (h.order = [] → h.arena = [] ∧ h.nnodes = 0#32 ∧ h.root = 0xFFFFFFFF#32)

/-- R134: each merge takes the two nodes of W least under (NFREQ, index), the first as LEFT and the second as RIGHT. -/
def Obligations.HufTreeSelectsLeast : Prop :=
  ∀ s t : State, s.own.huf.CountsOk → exec .hufTree s = .next t → SelectsLeast t.own.huf

/-- R137, R138, R49: HUF_CODES completes; from the tree of the current counts, the code of a symbol is the path of 0s (left) and 1s
(right) from the root to its leaf, its value below 2^CODE_LEN; a symbol without a leaf has a cleared entry; without a tree the
table is cleared; nothing else changes. -/
def Obligations.HufCodesArePaths : Prop :=
  ∀ s : State, s.own.huf.CountsOk →
    (s.own.huf.order ≠ [] → s.own.huf.TreeCurrent →
      ∃ h : Huffman,
        exec .hufCodes s = .next (s.finished { s.own with huf := h }) ∧ h = { s.own.huf with codes := h.codes } ∧
        (∀ b bits, (h.codeOf b).valid = true ∧ (h.codeOf b).bits = bits ↔
          follow h.arena h.root.toNat bits = some (.leaf b)) ∧
        (∀ b, (h.codeOf b).val.toNat < 2 ^ (h.codeOf b).len.toNat) ∧
        (∀ b, b ∉ h.order → h.codeOf b = ⟨false, 0#8, 0#256⟩)) ∧
    (s.own.huf.root = 0xFFFFFFFF#32 →
      exec .hufCodes s = .next (s.finished { s.own with huf := { s.own.huf with codes := clearedCodes } }))

/-- R139, R140, R97, R142, R96: HUF_PACK on an input whose bytes all have codes that fit completes without an error; OUT_LEN is the
sum of the code lengths, OBUF holds the codes one after another, first bit in bit 7 of byte 0, the rest of the last byte 0; every
later byte of OBUF reads as before; nothing else changes but the hidden POS. -/
def Obligations.HufPackConcatenatesCodes : Prop :=
  ∀ s : State, s.params.wf = true → s.inLen.toNat ≤ s.params.ibufBytes →
    (∀ b ∈ s.snapshot.input, (s.own.huf.codeOf b).valid = true) →
    packedLength s.own.huf s.snapshot.input ≤ 8 * s.params.obufBytes →
    ∃ o : Owned,
      exec .hufPack s = .next (s.finished o) ∧
      o = { s.own with obuf := o.obuf, outLen := o.outLen, pos := o.pos } ∧
      o.outLen.toNat = packedLength s.own.huf s.snapshot.input ∧
      bitsOf o.obuf o.outLen.toNat = packedBits s.own.huf s.snapshot.input ∧
      (∀ p, o.outLen.toNat ≤ p → p < 8 * bytesForBits o.outLen.toNat →
        (o.obuf.read (p / 8)).getLsbD (7 - p % 8) = false) ∧
      (∀ j, bytesForBits o.outLen.toNat ≤ j → o.obuf.read j = s.own.obuf.read j)

/-- R139, R140, R212, R214, R215: HUF_PACK stops at the first byte `i` that has no code or whose code does not fit: E_NO_CODE(i), or
E_OBUF_OVF(i) for a byte that has a code; OUT_LEN and OBUF hold exactly the codes of the bytes before it, the rest of the last byte
0 (R97). -/
def Obligations.HufPackStopsAtFirstFailingByte : Prop :=
  ∀ (s : State) (i : Nat) (b : Byte), s.params.wf = true → s.inLen.toNat ≤ s.params.ibufBytes →
    s.snapshot.input[i]? = some b →
    (∀ c ∈ s.snapshot.input.take i, (s.own.huf.codeOf c).valid = true) →
    packedLength s.own.huf (s.snapshot.input.take i) ≤ 8 * s.params.obufBytes →
    ((s.own.huf.codeOf b).valid = false ∨
      8 * s.params.obufBytes < packedLength s.own.huf (s.snapshot.input.take i) + (s.own.huf.codeOf b).len.toNat) →
    ∃ o : Owned,
      exec .hufPack s = .next (s.failed o (if (s.own.huf.codeOf b).valid then .obufOvf else .noCode) i) ∧
      o = { s.own with obuf := o.obuf, outLen := o.outLen, pos := o.pos } ∧
      o.outLen.toNat = packedLength s.own.huf (s.snapshot.input.take i) ∧
      bitsOf o.obuf o.outLen.toNat = packedBits s.own.huf (s.snapshot.input.take i) ∧
      (∀ p, o.outLen.toNat ≤ p → p < 8 * bytesForBits o.outLen.toNat →
        (o.obuf.read (p / 8)).getLsbD (7 - p % 8) = false) ∧
      (∀ j, bytesForBits o.outLen.toNat ≤ j → o.obuf.read j = s.own.obuf.read j)

/-- R130, R141: on a legal input length, HUF_FREQ, HUF_TREE, HUF_CODES and HUF_PACK, each accepted and completed in turn, leave the
state that one HUF_ENCODE leaves, but for CMD and LASTOP. -/
def Obligations.HufEncodeIsTheChain : Prop :=
  ∀ s a b c d t : State, s.inLen.toNat ≤ s.params.ibufBytes →
    exec .hufFreq (s.accept (encode .hufFreq)) = .next a → exec .hufTree (a.accept (encode .hufTree)) = .next b →
    exec .hufCodes (b.accept (encode .hufCodes)) = .next c → exec .hufPack (c.accept (encode .hufPack)) = .next d →
    exec .hufEncode (s.accept (encode .hufEncode)) = .next t →
    t = { d with cmd := t.cmd, status := { d.status with lastop := t.status.lastop } }

/-- R142, R141: after HUF_ENCODE or HUF_PACK without an error, OUT_LEN is the sum of the code lengths of the input's bytes; after
HUF_ENCODE that is the sum over the symbols of FREQ times CODE_LEN. HUF_ENCODE of an input of legal length completes, its tables
belonging to that input, and without an error if the codes it makes fit in OBUF. -/
def Obligations.HuffmanOutputLength : Prop :=
  ∀ s : State, s.params.wf = true →
    (∀ t, (exec .hufPack s = .next t ∨ exec .hufEncode s = .next t) → s.status.error = none → t.status.error = none →
      t.own.outLen.toNat = packedLength t.own.huf s.snapshot.input) ∧
    (∀ t, exec .hufEncode s = .next t → s.status.error = none → t.status.error = none →
      t.own.outLen.toNat =
        (t.own.huf.order.map fun b => (t.own.huf.freqOf b).toNat * (t.own.huf.codeOf b).len.toNat).sum) ∧
    (s.inLen.toNat ≤ s.params.ibufBytes →
      ∃ t, exec .hufEncode s = .next t ∧ t.own.huf.CountsOk ∧ totalCount t.own.huf = s.inLen.toNat ∧
        t.own.huf.TreeCurrent ∧
        (packedLength t.own.huf s.snapshot.input ≤ 8 * s.params.obufBytes → t = s.finished t.own))

/-- R143: after HUF_ENCODE on an input of two or more distinct symbols, no valid code is a prefix of another symbol's, and none is
empty. -/
def Obligations.HuffmanCodesArePrefixFree : Prop :=
  ∀ s t : State, s.params.wf = true → s.inLen.toNat ≤ s.params.ibufBytes → exec .hufEncode s = .next t →
    2 ≤ t.own.huf.order.length →
    ∀ a b : Byte, (t.own.huf.codeOf a).valid = true → (t.own.huf.codeOf b).valid = true →
      (t.own.huf.codeOf a).bits ≠ [] ∧ ((t.own.huf.codeOf a).bits <+: (t.own.huf.codeOf b).bits → a = b)

/-- R143: after HUF_ENCODE without an error, on an input of two or more distinct symbols, the OUT_LEN bits of OBUF decode, with the
code table, to the input. -/
def Obligations.HuffmanRoundTrip : Prop :=
  ∀ s t : State, s.params.wf = true → s.inLen.toNat ≤ s.params.ibufBytes → s.status.error = none →
    exec .hufEncode s = .next t → t.status.error = none → 2 ≤ t.own.huf.order.length →
    decodeBits t.own.huf [] (bitsOf t.own.obuf t.own.outLen.toNat) = s.snapshot.input

/-- R144: HUF_ENCODE with IN_LEN = 0 completes without an error, with OUT_LEN = 0, no symbol, no tree, no code, and OBUF as it was. -/
def Obligations.HufEncodeOfEmptyInput : Prop :=
  ∀ s : State, s.inLen = 0#32 →
    ∃ (h : Huffman) (p : Word),
      exec .hufEncode s = .next (s.finished { s.own with outLen := 0#32, pos := p, huf := h }) ∧
      h.nsym = 0#32 ∧ h.order = [] ∧ h.nnodes = 0#32 ∧ h.arena = [] ∧ h.root = 0xFFFFFFFF#32 ∧ h.work = [] ∧
      (∀ b, h.freqOf b = 0#32) ∧ (∀ b, h.codeOf b = ⟨false, 0#8, 0#256⟩)

/-- R145: HUF_ENCODE of n ≥ 1 copies of one byte: one symbol, a tree that is one leaf of count n, the empty code, OUT_LEN = 0, and
OBUF as it was. -/
def Obligations.HufEncodeOfOneSymbol : Prop :=
  ∀ (s : State) (n : Nat) (b : Byte), s.params.wf = true → s.inLen.toNat ≤ s.params.ibufBytes →
    s.snapshot.input = List.replicate (n + 1) b →
    ∃ (h : Huffman) (p : Word),
      exec .hufEncode s = .next (s.finished { s.own with outLen := 0#32, pos := p, huf := h }) ∧
      h.nsym = 1#32 ∧ h.order = [b] ∧ h.nnodes = 1#32 ∧ h.root = 0#32 ∧
      h.arena = [⟨BitVec.ofNat 32 (n + 1), .leaf b⟩] ∧ h.codeOf b = ⟨true, 0#8, 0#256⟩ ∧
      (h.freqOf b).toNat = n + 1 ∧ (∀ c, c ≠ b → h.freqOf c = 0#32 ∧ h.codeOf c = ⟨false, 0#8, 0#256⟩)

/-! ### LZW -/

/-- R170 to R176, R98: LZW_ENCODE refines the source's encoder over strings: where its codes and entries fit, it completes without
an error, OBUF holds those codes as little-endian words, OUT_LEN counts them, DICT_COUNT is 256 and one for each code but the last;
every later byte of OBUF reads as before; Huffman and RLE state and all else are kept but the hidden POS and ACC. -/
def Obligations.LzwRefinesStringEncoder : Prop :=
  ∀ s : State, s.params.wf = true → s.inLen.toNat ≤ s.params.ibufBytes →
    4 * (lzwOutput s.snapshot.input).length ≤ s.params.obufBytes →
    256 + ((lzwOutput s.snapshot.input).length - 1) ≤ s.params.dictCap →
    ∃ o : Owned,
      exec .lzwEncode s = .next (s.finished o) ∧
      o = { s.own with obuf := o.obuf, outLen := o.outLen, pos := o.pos, lzw := o.lzw } ∧
      o.outLen.toNat = (lzwOutput s.snapshot.input).length ∧
      (wordsOf o.obuf o.outLen.toNat).map BitVec.toNat = (lzwOutput s.snapshot.input).map Prod.fst ∧
      o.lzw.dictCount.toNat = 256 + ((lzwOutput s.snapshot.input).length - 1) ∧
      (∀ j, 4 * o.outLen.toNat ≤ j → o.obuf.read j = s.own.obuf.read j)

/-- R175, R172, R212, R214, R215: where the codes or the entries of an input do not fit, LZW_ENCODE ends at the first that does not,
Emit coming before Insert: E_OBUF_OVF at the position of the code that does not fit, the codes before it kept; or E_DICT_FULL at the
position of the entry that does not fit, the code emitted there kept too. -/
def Obligations.LzwStopsAtFirstFailingUnit : Prop :=
  ∀ (s : State) (k c pos : Nat), s.params.wf = true → s.inLen.toNat ≤ s.params.ibufBytes →
    (lzwOutput s.snapshot.input)[k]? = some (c, pos) →
    (4 * k = s.params.obufBytes → 256 + k ≤ s.params.dictCap →
      ∃ o : Owned, exec .lzwEncode s = .next (s.failed o .obufOvf pos) ∧ o.outLen.toNat = k ∧
        o.lzw.dictCount.toNat = 256 + k ∧ o.huf = s.own.huf ∧ o.rle = s.own.rle ∧
        (wordsOf o.obuf k).map BitVec.toNat = ((lzwOutput s.snapshot.input).take k).map Prod.fst) ∧
    (256 + k = s.params.dictCap → 4 * (k + 1) ≤ s.params.obufBytes → k + 1 < (lzwOutput s.snapshot.input).length →
      ∃ o : Owned, exec .lzwEncode s = .next (s.failed o .dictFull pos) ∧ o.outLen.toNat = k + 1 ∧
        o.lzw.dictCount.toNat = 256 + k ∧ o.huf = s.own.huf ∧ o.rle = s.own.rle ∧
        (wordsOf o.obuf (k + 1)).map BitVec.toNat = ((lzwOutput s.snapshot.input).take (k + 1)).map Prod.fst)

/-- R177: no forward references: the k-th code LZW_ENCODE emits, error or none, is below the DICT_COUNT of that moment, 256 + k. -/
def Obligations.LzwHasNoForwardReferences : Prop :=
  ∀ s t : State, s.params.wf = true → s.inLen.toNat ≤ s.params.ibufBytes → exec .lzwEncode s = .next t →
    ∀ (k : Nat) (w : Word), (wordsOf t.own.obuf t.own.outLen.toNat)[k]? = some w → w.toNat < 256 + k

/-- R178: with room for every input (OBUF_BYTES ≥ 4 * IBUF_BYTES, DICT_CAP ≥ 255 + IBUF_BYTES), LZW_ENCODE completes without an error;
OUT_LEN ≤ IN_LEN, DICT_COUNT is 255 + OUT_LEN for a nonempty input, and OUT_LEN = IN_LEN exactly when the adjacent byte pairs are
all different. -/
def Obligations.LzwOutputSize : Prop :=
  ∀ s : State, s.params.wf = true → s.inLen.toNat ≤ s.params.ibufBytes →
    4 * s.params.ibufBytes ≤ s.params.obufBytes → 255 + s.params.ibufBytes ≤ s.params.dictCap →
    ∃ o : Owned, exec .lzwEncode s = .next (s.finished o) ∧ o.outLen.toNat ≤ s.inLen.toNat ∧
      (s.inLen ≠ 0#32 → o.lzw.dictCount.toNat = 255 + o.outLen.toNat ∧
        (o.outLen.toNat = s.inLen.toNat ↔ (s.snapshot.input.zip s.snapshot.input.tail).Nodup)) ∧
      (s.inLen = 0#32 → o.outLen = 0#32 ∧ o.lzw.dictCount = 256#32)

/-! ### RLE -/

/-- R190 to R194, R99: RLE_ENCODE, where its output fits, completes without an error; OBUF holds, for each maximal run in order, the
symbol and its count's decimal digits, OUT_LEN the number of those bytes; every later byte of OBUF reads as before; Huffman and LZW
state and all else are kept but the hidden POS and run registers. -/
def Obligations.RleWritesTheRuns : Prop :=
  ∀ s : State, s.params.wf = true → s.inLen.toNat ≤ s.params.ibufBytes →
    (runsText (runsOf s.snapshot.input)).length ≤ s.params.obufBytes →
    ∃ o : Owned,
      exec .rleEncode s = .next (s.finished o) ∧
      o = { s.own with obuf := o.obuf, outLen := o.outLen, pos := o.pos, rle := o.rle } ∧
      o.outLen.toNat = (runsText (runsOf s.snapshot.input)).length ∧
      bytesOf o.obuf o.outLen.toNat = runsText (runsOf s.snapshot.input) ∧
      (∀ j, o.outLen.toNat ≤ j → o.obuf.read j = s.own.obuf.read j)

/-- R192, R194, R212, R214: RLE_ENCODE ends at the first run whose bytes do not fit, with E_OBUF_OVF at the index of that run's first
byte; OUT_LEN and OBUF hold exactly the runs before it. -/
def Obligations.RleStopsAtFirstFailingRun : Prop :=
  ∀ (s : State) (k : Nat) (r : Byte × Nat), s.params.wf = true → s.inLen.toNat ≤ s.params.ibufBytes →
    (runsOf s.snapshot.input)[k]? = some r →
    (runsText ((runsOf s.snapshot.input).take k)).length ≤ s.params.obufBytes →
    s.params.obufBytes < (runsText ((runsOf s.snapshot.input).take k)).length + (runText r).length →
    ∃ o : Owned,
      exec .rleEncode s =
        .next (s.failed o .obufOvf (((runsOf s.snapshot.input).take k).map Prod.snd).sum) ∧
      o.huf = s.own.huf ∧ o.lzw = s.own.lzw ∧
      o.outLen.toNat = (runsText ((runsOf s.snapshot.input).take k)).length ∧
      bytesOf o.obuf o.outLen.toNat = runsText ((runsOf s.snapshot.input).take k) ∧
      (∀ j, o.outLen.toNat ≤ j → o.obuf.read j = s.own.obuf.read j)

/-- R196: with OBUF_BYTES ≥ 2 * IBUF_BYTES, RLE_ENCODE never raises E_OBUF_OVF; OUT_LEN is the number of runs and of the decimal
digits of their counts, at most 2 * IN_LEN, which it reaches when every run has length 1. -/
def Obligations.RleOutputSize : Prop :=
  ∀ s : State, s.params.wf = true → s.inLen.toNat ≤ s.params.ibufBytes → 2 * s.params.ibufBytes ≤ s.params.obufBytes →
    ∃ o : Owned, exec .rleEncode s = .next (s.finished o) ∧
      o.outLen.toNat = (runsOf s.snapshot.input).length +
        ((runsOf s.snapshot.input).map fun r => (Nat.digits 10 r.2).length).sum ∧
      o.outLen.toNat ≤ 2 * s.inLen.toNat ∧
      ((∀ r ∈ runsOf s.snapshot.input, r.2 = 1) → o.outLen.toNat = 2 * s.inLen.toNat)

/-! ### What every command leaves alone -/

/-- R112, R28 to R30: whatever instruction completes: BUSY is 0 and DONE is 1; IBUF, IN_LEN, CMD, IRQ_EN, LASTOP and the parameters
are unchanged, and HAZ too unless the instruction is SOFT_RESET, which clears it; the host's side is untouched. -/
def Obligations.CompletionFrame : Prop :=
  ∀ (i : Instr) (s : State), ∃ t, exec i s = .next t ∧
    t = { s with
      own := t.own, engine := .idle
      status := { s.status with done := true, error := t.status.error, haz := if i = .softReset then false else s.status.haz } }

/-- R58, R130, R176, R194: no command of one encoder changes another encoder's state, NOP changes none; and NOP, HUF_FREQ, HUF_TREE
and HUF_CODES leave OUT_LEN and every byte of OBUF, SOFT_RESET every byte of OBUF. -/
def Obligations.EncodersKeepToThemselves : Prop :=
  ∀ (i : Instr) (s t : State), exec i s = .next t →
    (i = .nop ∨ i = .lzwEncode ∨ i = .rleEncode → t.own.huf = s.own.huf) ∧
    (i ≠ .lzwEncode → i ≠ .softReset → t.own.lzw = s.own.lzw) ∧
    (i ≠ .rleEncode → t.own.rle = s.own.rle) ∧
    (i = .nop ∨ i = .hufFreq ∨ i = .hufTree ∨ i = .hufCodes →
      t.own.outLen = s.own.outLen ∧ ∀ j, t.own.obuf.read j = s.own.obuf.read j) ∧
    (i = .softReset → ∀ j, t.own.obuf.read j = s.own.obuf.read j)

/-- R96, R252: an output command, error or none, changes no byte of OBUF past its own output: past ceil(OUT_LEN/8) bytes after
HUF_ENCODE and HUF_PACK, 4 * OUT_LEN after LZW_ENCODE, OUT_LEN after RLE_ENCODE. (After E_LEN it changes none.) -/
def Obligations.OutputStaysInItsRange : Prop :=
  ∀ (s t : State) (j : Nat), s.params.wf = true →
    ((exec .hufPack s = .next t ∨ exec .hufEncode s = .next t) → bytesForBits t.own.outLen.toNat ≤ j →
      t.own.obuf.read j = s.own.obuf.read j) ∧
    (exec .lzwEncode s = .next t → 4 * t.own.outLen.toNat ≤ j → t.own.obuf.read j = s.own.obuf.read j) ∧
    (exec .rleEncode s = .next t → t.own.outLen.toNat ≤ j → t.own.obuf.read j = s.own.obuf.read j)

/-- R210, R141: which errors a command can raise: NOP, SOFT_RESET, HUF_TREE and HUF_CODES none; HUF_FREQ only E_LEN; HUF_PACK E_LEN,
E_OBUF_OVF, E_NO_CODE; HUF_ENCODE and RLE_ENCODE E_LEN, E_OBUF_OVF; LZW_ENCODE E_LEN, E_OBUF_OVF, E_DICT_FULL. -/
def Obligations.ErrorsOfEachCommand : Prop :=
  ∀ (i : Instr) (s t : State) (e : ErrKind), s.params.wf = true → s.status.error = none → exec i s = .next t →
    t.status.error = some e →
    (e = .len ∧ i ∈ [.hufFreq, .hufPack, .hufEncode, .lzwEncode, .rleEncode]) ∨
    (e = .obufOvf ∧ i ∈ [.hufPack, .hufEncode, .lzwEncode, .rleEncode]) ∨
    (e = .dictFull ∧ i = .lzwEncode) ∨ (e = .noCode ∧ i = .hufPack)

/-! ### The whole machine -/

/-- The invariant holds of the block after reset (R56). That ORDER, the arena, the dictionary and W are empty there, which the
invariant reads, is the model's choice (log 4), as is holding them as lists of their valid entries (log 10): R56 gives them no
meaning. -/
def Obligations.InvariantHoldsAtReset : Prop := State.reset.Inv

/-- R6, R55: every step keeps the parameters, and IBUF and OBUF in canonical form within their sizes: no access of the host or of a
command leaves its buffer. -/
def Obligations.StepKeepsBuffers : Prop :=
  ∀ s t : State, s.BuffersOk → step s = .next t → t.BuffersOk ∧ t.params = s.params

/-- R26, R29 to R32, R35, R112: every step keeps the command protocol: while BUSY, PENDING is CMD, the state a command reads is still
that of its acceptance, and DONE and ERR are 0; LASTOP is CMD's OP; ERR_POS is 0 where there is no error. -/
def Obligations.StepKeepsControl : Prop :=
  ∀ s t : State, s.ControlOk → step s = .next t → t.ControlOk

/-- R46, R48, R130: every step keeps the Huffman chain: a tree belongs to the current counts, a code table to the current tree. -/
def Obligations.StepKeepsHuffmanChain : Prop :=
  ∀ s t : State, s.params.wf = true → s.own.huf.ChainOk → step s = .next t → t.own.huf.ChainOk

/-- R37, R50, R170: every step keeps the LZW dictionary well formed. -/
def Obligations.StepKeepsDictionary : Prop :=
  ∀ s t : State, s.params.wf = true → s.own.lzw.DictOk s.params.dictCap → step s = .next t →
    t.own.lzw.DictOk t.params.dictCap

/-- R76, R112, R250: while BUSY, no move of the host changes what the command will read, nor PENDING. -/
def Obligations.BusyFreezesTheInput : Prop :=
  ∀ s t : State, s.busy = true → s.turn = .host → step s = .next t →
    t.snapshot = s.snapshot ∧ t.engine = s.engine ∧ t.params = s.params ∧ t.cmd = s.cmd ∧ t.status.error = s.status.error

/-- R112, R262: a command's result does not depend on when its completion fires: after any number `n` of host moves the completion
leaves the same engine-owned state and the same error as it would have left at once. -/
def Obligations.ResultIndependentOfDelay : Prop :=
  ∀ (s t u : State) (n : Nat), s.busy = true →
    step { s with turns := [.engine] } = .next t →
    core.run (n + 1) { s with turns := List.replicate n .host ++ [.engine] } = .next u →
    u.own = t.own ∧ u.status.error = t.status.error ∧ u.engine = .idle ∧ u.inLen = t.inLen ∧ u.ibuf = t.ibuf

/-- R117: every accepted command completes, or a hardware reset abandons it: under any schedule, a host that stays inside the
interface sees the engine idle after at most one step more than the schedule is long. That the engine moves once a finite schedule has ended
is the model's form of weak fairness (log 3). -/
def Obligations.EveryCommandCompletes : Prop :=
  ∀ s : State, s.HostLegal → ∃ (k : Nat) (t : State), k ≤ s.turns.length + 1 ∧ core.run k s = .next t ∧ t.busy = false

/-- R210, R117: a machine whose host stays inside the interface never stops, and its host still does after the step. -/
def Obligations.LegalHostNeverStopsTheMachine : Prop :=
  ∀ s : State, s.HostLegal → ∃ t, step s = .next t ∧ t.HostLegal

/-- R31: HAZ, once set, is cleared only by a host write to STATUS with bit 8 set, by the completion of SOFT_RESET, or by hardware
reset; and it becomes set only by a host write while BUSY. -/
def Obligations.HazIsSticky : Prop :=
  ∀ s t : State, step s = .next t →
    (s.status.haz = true → t.status.haz = false →
      (∃ addr v rest, s.HostTurn (.write 4 addr v) rest ∧ v.getLsbD 8 = true ∧
        busOffset s.params addr ∈ [some 0x00C, some 0x00D, some 0x00E, some 0x00F]) ∨
      (s.turn = .engine ∧ ∃ x, s.engine = .busy (encode .softReset) x) ∨ s.turn = .hwReset) ∧
    (s.status.haz = false → t.status.haz = true →
      s.busy = true ∧ ∃ bytes addr v rest, s.HostTurn (.write bytes addr v) rest)

/-- R110: ENGINE goes from IDLE to BUSY only by an accepted host write to CMD, and from BUSY to IDLE only by a completion, which
sets DONE, or by hardware reset. -/
def Obligations.EngineMovesByAcceptanceAndCompletion : Prop :=
  ∀ s t : State, step s = .next t →
    (s.busy = false → t.busy = true →
      ∃ addr v rest, s.HostTurn (.write 4 addr v) rest ∧ t.cmd = v ∧
        busOffset s.params addr ∈ [some 0x008, some 0x009, some 0x00A, some 0x00B]) ∧
    (s.busy = true → t.busy = false → (s.turn = .engine ∧ t.status.done = true) ∨ s.turn = .hwReset)
end

