-- ==== Sys2Proof/Laws/Memory.lean ====
section
/-! SUPPORT. Laws/Memory.lean: read after write, and the canonical form, for the byte memory, the buffers and the words in them. -/

namespace Sys2Proof.Machine

/-! ### Memory -/

@[simp] theorem Memory.get?_nil (a : Nat) : Memory.get? [] a = none := rfl

/-- Read after write: the byte written at the place written, the old one anywhere else. (In a memory of any form.) -/
theorem Memory.get?_set (m : Memory) (a : Nat) (v : Byte) (i : Nat) :
    Memory.get? (Memory.set m a v) i = if i = a then some v else Memory.get? m i := by
  induction m with
  | nil => simp [Memory.set, Memory.get?, eq_comm]
  | cons c m ih =>
    obtain ⟨b, u⟩ := c
    simp only [Memory.set]
    split
    · simp [Memory.get?, eq_comm]
    · split
      · subst_vars; simp only [Memory.get?]; split <;> simp_all [eq_comm]
      · simp only [Memory.get?, ih]
        by_cases hb : b = i
        · subst hb; simp [show b ≠ a by omega]
        · simp [hb]

/-- An entry of a memory after a write is the one written or an old one. -/
theorem Memory.mem_set {m : Memory} {a : Nat} {v : Byte} {c : Host.Cell} (h : c ∈ Memory.set m a v) :
    c = (a, v) ∨ c ∈ m := by
  induction m with
  | nil => simpa [Memory.set] using h
  | cons d m ih =>
    obtain ⟨b, u⟩ := d
    simp only [Memory.set] at h
    split at h
    · simpa using h
    · split at h
      · simp only [List.mem_cons] at h ⊢; tauto
      · simp only [List.mem_cons] at h ⊢
        rcases h with h | h
        · exact .inr (.inl h)
        · rcases ih h with h | h <;> tauto

/-- A write keeps the canonical form. -/
theorem Memory.wf_set {m : Memory} (hm : Memory.wf m) (a : Nat) (v : Byte) : Memory.wf (Memory.set m a v) := by
  induction m with
  | nil => simp [Memory.set]
  | cons c m ih =>
    obtain ⟨b, u⟩ := c
    have hlt : ∀ x ∈ m, b < x.1 := fun x hx => List.rel_of_pairwise_cons hm hx
    have hm' := List.Pairwise.of_cons hm
    simp only [Memory.set]
    split
    · refine List.Pairwise.cons (fun x hx => ?_) hm
      rcases List.mem_cons.mp hx with rfl | hx
      · assumption
      · exact lt_trans ‹a < b› (hlt x hx)
    · split
      · subst_vars; exact List.Pairwise.cons hlt hm'
      · refine List.Pairwise.cons (fun x hx => ?_) (ih hm')
        rcases Memory.mem_set hx with rfl | hx
        · show b < a; omega
        · exact hlt x hx

/-! ### Buffers -/

theorem Buffer.wf_write {n : Nat} {b : Buffer} (hb : Buffer.Wf n b) {i : Nat} (hi : i < n) (v : Byte) :
    Buffer.Wf n (b.write i v) := by
  refine ⟨Memory.wf_set hb.1 i v, fun c hc => ?_⟩
  rcases Memory.mem_set hc with rfl | hc
  · exact hi
  · exact hb.2 c hc

theorem Buffer.wf_writeList {n : Nat} {b : Buffer} (hb : Buffer.Wf n b) (i : Nat) (vs : List Byte) (hi : i + vs.length ≤ n) :
    Buffer.Wf n (b.writeList i vs) := by
  induction vs generalizing b i with
  | nil => exact hb
  | cons v vs ih =>
    simp only [List.length_cons] at hi
    exact ih (Buffer.wf_write hb (by omega) v) (i + 1) (by omega)

theorem Buffer.wf_writeWord {n : Nat} {b : Buffer} (hb : Buffer.Wf n b) {k : Nat} (hk : k + 4 ≤ n) (w : Word) :
    Buffer.Wf n (b.writeWord k w) := Buffer.wf_writeList hb k _ (by simpa [wordBytes] using hk)

@[simp] theorem Buffer.write_seed (b : Buffer) (i : Nat) (v : Byte) : (b.write i v).seed = b.seed := rfl

/-- What a byte reads as after a write of one byte. -/
theorem Buffer.read_write (b : Buffer) (i : Nat) (v : Byte) (j : Nat) :
    (b.write i v).read j = if j = i then v else b.read j := by
  simp only [Buffer.read, Buffer.write, Memory.get?_set]
  split <;> simp

/-- What a byte reads as after a write of several bytes. -/
theorem Buffer.read_writeList (b : Buffer) (i : Nat) (vs : List Byte) (j : Nat) :
    (b.writeList i vs).read j = if i ≤ j then (vs[j - i]?).getD (b.read j) else b.read j := by
  induction vs generalizing b i with
  | nil => simp [Buffer.writeList]
  | cons v vs ih =>
    rw [Buffer.writeList, ih, Buffer.read_write]
    rcases Nat.lt_trichotomy j i with h | rfl | h
    · simp [show ¬ i + 1 ≤ j by omega, show ¬ i ≤ j by omega, show j ≠ i by omega]
    · simp
    · obtain ⟨d, rfl⟩ : ∃ d, j = i + 1 + d := ⟨j - (i + 1), by omega⟩
      simp [show i ≤ i + 1 + d by omega, show i + 1 + d - i = d + 1 by omega, show i + 1 + d - (i + 1) = d by omega,
        show i + 1 + d ≠ i by omega]

/-- A word write leaves every byte outside its four alone. -/
theorem Buffer.read_writeWord_of_ne (b : Buffer) (k : Nat) (w : Word) {j : Nat}
    (hj : j < k ∨ k + 4 ≤ j) : (b.writeWord k w).read j = b.read j := by
  rw [Buffer.writeWord, Buffer.read_writeList]
  split
  · rw [List.getElem?_eq_none (by simp [wordBytes]; omega)]; rfl
  · rfl

/-- The bytes a word write puts down, the lowest first (R68). -/
theorem Buffer.read_writeWord (b : Buffer) (k : Nat) (w : Word) {n : Nat} (hn : n < 4) :
    (b.writeWord k w).read (k + n) = w.extractLsb' (8 * n) 8 := by
  rw [Buffer.writeWord, Buffer.read_writeList]
  interval_cases n <;> simp [wordBytes]

/-- A word reads back as it was written (R66, R68). -/
theorem Buffer.readWord_writeWord (b : Buffer) (k : Nat) (w : Word) :
    (b.writeWord k w).readWord k = w := by
  have h0 := Buffer.read_writeWord b k w (n := 0) (by omega)
  have h1 := Buffer.read_writeWord b k w (n := 1) (by omega)
  have h2 := Buffer.read_writeWord b k w (n := 2) (by omega)
  have h3 := Buffer.read_writeWord b k w (n := 3) (by omega)
  simp only [Nat.add_zero] at h0
  rw [Buffer.readWord, h0, h1, h2, h3]
  apply BitVec.eq_of_getLsbD_eq
  intro i hi
  simp only [BitVec.getLsbD_append, BitVec.getLsbD_extractLsb']
  rcases lt_or_ge i 8 with h | h
  · simp [h]
  · rcases lt_or_ge (i - 8) 8 with h' | h'
    · simp [Nat.not_lt.mpr h, h', show 8 + (i - 8) = i by omega]
    · rcases lt_or_ge (i - 8 - 8) 8 with h'' | h''
      · simp [Nat.not_lt.mpr h, Nat.not_lt.mpr h', h'', show 16 + (i - 8 - 8) = i by omega]
      · simp [Nat.not_lt.mpr h, Nat.not_lt.mpr h', Nat.not_lt.mpr h'', show 24 + (i - 8 - 8 - 8) = i by omega,
          show i - 8 - 8 - 8 < 8 by omega]

/-- A word is untouched by a write to another aligned word. -/
theorem Buffer.readWord_writeWord_of_ne (b : Buffer) {j k : Nat} (w : Word)
    (h : j + 4 ≤ k ∨ k + 4 ≤ j) : (b.writeWord k w).readWord j = b.readWord j := by
  simp only [Buffer.readWord]
  rw [Buffer.read_writeWord_of_ne b k w (by omega), Buffer.read_writeWord_of_ne b k w (by omega),
    Buffer.read_writeWord_of_ne b k w (by omega), Buffer.read_writeWord_of_ne b k w (by omega)]

end Sys2Proof.Machine
end

