-- ==== Sys2Proof/Laws/State.lean ====
section
/-! SUPPORT. Laws/State.lean: what each named update does to each field, so that no later proof unfolds a record update. -/

namespace Sys2Proof.Machine

/-! ### accept -/

@[simp] theorem State.accept_params (s : State) (v : Word) : (s.accept v).params = s.params := rfl
@[simp] theorem State.accept_cmd (s : State) (v : Word) : (s.accept v).cmd = v := rfl
@[simp] theorem State.accept_status (s : State) (v : Word) : (s.accept v).status = { s.status with done := false, error := none, lastop := v.extractLsb' 0 4 } := rfl
@[simp] theorem State.accept_inLen (s : State) (v : Word) : (s.accept v).inLen = s.inLen := rfl
@[simp] theorem State.accept_irqEn (s : State) (v : Word) : (s.accept v).irqEn = s.irqEn := rfl
@[simp] theorem State.accept_ibuf (s : State) (v : Word) : (s.accept v).ibuf = s.ibuf := rfl
@[simp] theorem State.accept_own (s : State) (v : Word) : (s.accept v).own = { s.own with errPos := 0#32 } := rfl
@[simp] theorem State.accept_engine (s : State) (v : Word) : (s.accept v).engine = .busy v ⟨s.inLen, s.ibuf, { s.own with errPos := 0#32 }⟩ := rfl
@[simp] theorem State.accept_host (s : State) (v : Word) : (s.accept v).host = s.host := rfl
@[simp] theorem State.accept_turns (s : State) (v : Word) : (s.accept v).turns = s.turns := rfl
@[simp] theorem State.accept_reads (s : State) (v : Word) : (s.accept v).reads = s.reads := rfl
@[simp] theorem State.accept_draws (s : State) (v : Word) : (s.accept v).draws = s.draws := rfl

/-! ### dropWrite -/

@[simp] theorem State.dropWrite_params (s : State) : (s.dropWrite).params = s.params := rfl
@[simp] theorem State.dropWrite_cmd (s : State) : (s.dropWrite).cmd = s.cmd := rfl
@[simp] theorem State.dropWrite_status (s : State) : (s.dropWrite).status = { s.status with haz := true } := rfl
@[simp] theorem State.dropWrite_inLen (s : State) : (s.dropWrite).inLen = s.inLen := rfl
@[simp] theorem State.dropWrite_irqEn (s : State) : (s.dropWrite).irqEn = s.irqEn := rfl
@[simp] theorem State.dropWrite_ibuf (s : State) : (s.dropWrite).ibuf = s.ibuf := rfl
@[simp] theorem State.dropWrite_own (s : State) : (s.dropWrite).own = s.own := rfl
@[simp] theorem State.dropWrite_engine (s : State) : (s.dropWrite).engine = s.engine := rfl
@[simp] theorem State.dropWrite_host (s : State) : (s.dropWrite).host = s.host := rfl
@[simp] theorem State.dropWrite_turns (s : State) : (s.dropWrite).turns = s.turns := rfl
@[simp] theorem State.dropWrite_reads (s : State) : (s.dropWrite).reads = s.reads := rfl
@[simp] theorem State.dropWrite_draws (s : State) : (s.dropWrite).draws = s.draws := rfl

/-! ### clearHaz -/

@[simp] theorem State.clearHaz_params (s : State) : (s.clearHaz).params = s.params := rfl
@[simp] theorem State.clearHaz_cmd (s : State) : (s.clearHaz).cmd = s.cmd := rfl
@[simp] theorem State.clearHaz_status (s : State) : (s.clearHaz).status = { s.status with haz := false } := rfl
@[simp] theorem State.clearHaz_inLen (s : State) : (s.clearHaz).inLen = s.inLen := rfl
@[simp] theorem State.clearHaz_irqEn (s : State) : (s.clearHaz).irqEn = s.irqEn := rfl
@[simp] theorem State.clearHaz_ibuf (s : State) : (s.clearHaz).ibuf = s.ibuf := rfl
@[simp] theorem State.clearHaz_own (s : State) : (s.clearHaz).own = s.own := rfl
@[simp] theorem State.clearHaz_engine (s : State) : (s.clearHaz).engine = s.engine := rfl
@[simp] theorem State.clearHaz_host (s : State) : (s.clearHaz).host = s.host := rfl
@[simp] theorem State.clearHaz_turns (s : State) : (s.clearHaz).turns = s.turns := rfl
@[simp] theorem State.clearHaz_reads (s : State) : (s.clearHaz).reads = s.reads := rfl
@[simp] theorem State.clearHaz_draws (s : State) : (s.clearHaz).draws = s.draws := rfl

/-! ### takeTurn -/

@[simp] theorem State.takeTurn_params (s : State) : (s.takeTurn).params = s.params := rfl
@[simp] theorem State.takeTurn_cmd (s : State) : (s.takeTurn).cmd = s.cmd := rfl
@[simp] theorem State.takeTurn_status (s : State) : (s.takeTurn).status = s.status := rfl
@[simp] theorem State.takeTurn_inLen (s : State) : (s.takeTurn).inLen = s.inLen := rfl
@[simp] theorem State.takeTurn_irqEn (s : State) : (s.takeTurn).irqEn = s.irqEn := rfl
@[simp] theorem State.takeTurn_ibuf (s : State) : (s.takeTurn).ibuf = s.ibuf := rfl
@[simp] theorem State.takeTurn_own (s : State) : (s.takeTurn).own = s.own := rfl
@[simp] theorem State.takeTurn_engine (s : State) : (s.takeTurn).engine = s.engine := rfl
@[simp] theorem State.takeTurn_host (s : State) : (s.takeTurn).host = s.host := rfl
@[simp] theorem State.takeTurn_turns (s : State) : (s.takeTurn).turns = s.turns.tail := rfl
@[simp] theorem State.takeTurn_reads (s : State) : (s.takeTurn).reads = s.reads := rfl
@[simp] theorem State.takeTurn_draws (s : State) : (s.takeTurn).draws = s.draws := rfl

/-! ### hostRead -/

@[simp] theorem State.hostRead_params (s : State) (l : Loc) : (s.hostRead l).params = s.params := rfl
@[simp] theorem State.hostRead_cmd (s : State) (l : Loc) : (s.hostRead l).cmd = s.cmd := rfl
@[simp] theorem State.hostRead_status (s : State) (l : Loc) : (s.hostRead l).status = s.status := rfl
@[simp] theorem State.hostRead_inLen (s : State) (l : Loc) : (s.hostRead l).inLen = s.inLen := rfl
@[simp] theorem State.hostRead_irqEn (s : State) (l : Loc) : (s.hostRead l).irqEn = s.irqEn := rfl
@[simp] theorem State.hostRead_ibuf (s : State) (l : Loc) : (s.hostRead l).ibuf = s.ibuf := rfl
@[simp] theorem State.hostRead_own (s : State) (l : Loc) : (s.hostRead l).own = s.own := rfl
@[simp] theorem State.hostRead_engine (s : State) (l : Loc) : (s.hostRead l).engine = s.engine := rfl
@[simp] theorem State.hostRead_host (s : State) (l : Loc) : (s.hostRead l).host = s.host := rfl
@[simp] theorem State.hostRead_turns (s : State) (l : Loc) : (s.hostRead l).turns = s.turns := rfl
@[simp] theorem State.hostRead_reads (s : State) (l : Loc) : (s.hostRead l).reads = s.readValue l :: s.reads := rfl
@[simp] theorem State.hostRead_draws (s : State) (l : Loc) : (s.hostRead l).draws = if s.busy && l.isResult then s.draws + 1 else s.draws := rfl

/-! ### hardReset -/

@[simp] theorem State.hardReset_params (s : State) : (s.hardReset).params = s.params := rfl
@[simp] theorem State.hardReset_cmd (s : State) : (s.hardReset).cmd = 0#32 := rfl
@[simp] theorem State.hardReset_status (s : State) : (s.hardReset).status = ⟨false, none, false, 0#4⟩ := rfl
@[simp] theorem State.hardReset_inLen (s : State) : (s.hardReset).inLen = 0#32 := rfl
@[simp] theorem State.hardReset_irqEn (s : State) : (s.hardReset).irqEn = false := rfl
@[simp] theorem State.hardReset_ibuf (s : State) : (s.hardReset).ibuf = ⟨[], s.draws⟩ := rfl
@[simp] theorem State.hardReset_own (s : State) : (s.hardReset).own = Owned.reset (s.draws + 1) := rfl
@[simp] theorem State.hardReset_engine (s : State) : (s.hardReset).engine = .idle := rfl
@[simp] theorem State.hardReset_host (s : State) : (s.hardReset).host = s.host := rfl
@[simp] theorem State.hardReset_turns (s : State) : (s.hardReset).turns = s.turns := rfl
@[simp] theorem State.hardReset_reads (s : State) : (s.hardReset).reads = s.reads := rfl
@[simp] theorem State.hardReset_draws (s : State) : (s.hardReset).draws = s.draws + 2 := rfl

/-! ### tookAccess -/

@[simp] theorem State.tookAccess_params (s : State) (rest : List HostOp) : (s.tookAccess rest).params = s.params := rfl
@[simp] theorem State.tookAccess_cmd (s : State) (rest : List HostOp) : (s.tookAccess rest).cmd = s.cmd := rfl
@[simp] theorem State.tookAccess_status (s : State) (rest : List HostOp) : (s.tookAccess rest).status = s.status := rfl
@[simp] theorem State.tookAccess_inLen (s : State) (rest : List HostOp) : (s.tookAccess rest).inLen = s.inLen := rfl
@[simp] theorem State.tookAccess_irqEn (s : State) (rest : List HostOp) : (s.tookAccess rest).irqEn = s.irqEn := rfl
@[simp] theorem State.tookAccess_ibuf (s : State) (rest : List HostOp) : (s.tookAccess rest).ibuf = s.ibuf := rfl
@[simp] theorem State.tookAccess_own (s : State) (rest : List HostOp) : (s.tookAccess rest).own = s.own := rfl
@[simp] theorem State.tookAccess_engine (s : State) (rest : List HostOp) : (s.tookAccess rest).engine = s.engine := rfl
@[simp] theorem State.tookAccess_host (s : State) (rest : List HostOp) : (s.tookAccess rest).host = rest := rfl
@[simp] theorem State.tookAccess_turns (s : State) (rest : List HostOp) : (s.tookAccess rest).turns = s.turns.tail := rfl
@[simp] theorem State.tookAccess_reads (s : State) (rest : List HostOp) : (s.tookAccess rest).reads = s.reads := rfl
@[simp] theorem State.tookAccess_draws (s : State) (rest : List HostOp) : (s.tookAccess rest).draws = s.draws := rfl

/-! ### finished -/

@[simp] theorem State.finished_params (s : State) (o : Owned) : (s.finished o).params = s.params := rfl
@[simp] theorem State.finished_cmd (s : State) (o : Owned) : (s.finished o).cmd = s.cmd := rfl
@[simp] theorem State.finished_status (s : State) (o : Owned) : (s.finished o).status = { s.status with done := true } := rfl
@[simp] theorem State.finished_inLen (s : State) (o : Owned) : (s.finished o).inLen = s.inLen := rfl
@[simp] theorem State.finished_irqEn (s : State) (o : Owned) : (s.finished o).irqEn = s.irqEn := rfl
@[simp] theorem State.finished_ibuf (s : State) (o : Owned) : (s.finished o).ibuf = s.ibuf := rfl
@[simp] theorem State.finished_own (s : State) (o : Owned) : (s.finished o).own = o := rfl
@[simp] theorem State.finished_engine (s : State) (o : Owned) : (s.finished o).engine = .idle := rfl
@[simp] theorem State.finished_host (s : State) (o : Owned) : (s.finished o).host = s.host := rfl
@[simp] theorem State.finished_turns (s : State) (o : Owned) : (s.finished o).turns = s.turns := rfl
@[simp] theorem State.finished_reads (s : State) (o : Owned) : (s.finished o).reads = s.reads := rfl
@[simp] theorem State.finished_draws (s : State) (o : Owned) : (s.finished o).draws = s.draws := rfl

/-! ### failed -/

@[simp] theorem State.failed_params (s : State) (o : Owned) (e : ErrKind) (pos : Nat) : (s.failed o e pos).params = s.params := rfl
@[simp] theorem State.failed_cmd (s : State) (o : Owned) (e : ErrKind) (pos : Nat) : (s.failed o e pos).cmd = s.cmd := rfl
@[simp] theorem State.failed_status (s : State) (o : Owned) (e : ErrKind) (pos : Nat) : (s.failed o e pos).status = { s.status with done := true, error := some e } := rfl
@[simp] theorem State.failed_inLen (s : State) (o : Owned) (e : ErrKind) (pos : Nat) : (s.failed o e pos).inLen = s.inLen := rfl
@[simp] theorem State.failed_irqEn (s : State) (o : Owned) (e : ErrKind) (pos : Nat) : (s.failed o e pos).irqEn = s.irqEn := rfl
@[simp] theorem State.failed_ibuf (s : State) (o : Owned) (e : ErrKind) (pos : Nat) : (s.failed o e pos).ibuf = s.ibuf := rfl
@[simp] theorem State.failed_own (s : State) (o : Owned) (e : ErrKind) (pos : Nat) : (s.failed o e pos).own = { o with errPos := BitVec.ofNat 32 pos } := rfl
@[simp] theorem State.failed_engine (s : State) (o : Owned) (e : ErrKind) (pos : Nat) : (s.failed o e pos).engine = .idle := rfl
@[simp] theorem State.failed_host (s : State) (o : Owned) (e : ErrKind) (pos : Nat) : (s.failed o e pos).host = s.host := rfl
@[simp] theorem State.failed_turns (s : State) (o : Owned) (e : ErrKind) (pos : Nat) : (s.failed o e pos).turns = s.turns := rfl
@[simp] theorem State.failed_reads (s : State) (o : Owned) (e : ErrKind) (pos : Nat) : (s.failed o e pos).reads = s.reads := rfl
@[simp] theorem State.failed_draws (s : State) (o : Owned) (e : ErrKind) (pos : Nat) : (s.failed o e pos).draws = s.draws := rfl

/-! ### withFetchWord -/

@[simp] theorem State.withFetchWord_params (s : State) (nbits w : Nat) : (s.withFetchWord nbits w).params = s.params := rfl
@[simp] theorem State.withFetchWord_cmd (s : State) (nbits w : Nat) : (s.withFetchWord nbits w).cmd = fetchWord nbits w := rfl
@[simp] theorem State.withFetchWord_status (s : State) (nbits w : Nat) : (s.withFetchWord nbits w).status = { s.status with done := false, error := none, lastop := (fetchWord nbits w).extractLsb' 0 4 } := rfl
@[simp] theorem State.withFetchWord_inLen (s : State) (nbits w : Nat) : (s.withFetchWord nbits w).inLen = s.inLen := rfl
@[simp] theorem State.withFetchWord_irqEn (s : State) (nbits w : Nat) : (s.withFetchWord nbits w).irqEn = s.irqEn := rfl
@[simp] theorem State.withFetchWord_ibuf (s : State) (nbits w : Nat) : (s.withFetchWord nbits w).ibuf = s.ibuf := rfl
@[simp] theorem State.withFetchWord_own (s : State) (nbits w : Nat) : (s.withFetchWord nbits w).own = { s.own with errPos := 0#32 } := rfl
@[simp] theorem State.withFetchWord_engine (s : State) (nbits w : Nat) : (s.withFetchWord nbits w).engine = .busy (fetchWord nbits w) ⟨s.inLen, s.ibuf, { s.own with errPos := 0#32 }⟩ := rfl
@[simp] theorem State.withFetchWord_host (s : State) (nbits w : Nat) : (s.withFetchWord nbits w).host = s.host := rfl
@[simp] theorem State.withFetchWord_turns (s : State) (nbits w : Nat) : (s.withFetchWord nbits w).turns = .engine :: s.turns := rfl
@[simp] theorem State.withFetchWord_reads (s : State) (nbits w : Nat) : (s.withFetchWord nbits w).reads = s.reads := rfl
@[simp] theorem State.withFetchWord_draws (s : State) (nbits w : Nat) : (s.withFetchWord nbits w).draws = s.draws := rfl

/-! ### BUSY, the snapshot, IRQ under the updates -/

@[simp] theorem State.busy_idle {s : State} (h : s.engine = .idle) : s.busy = false := by simp [State.busy, h, Engine.isBusy]

theorem State.busy_of_engine {s : State} {w : Word} {x : Snapshot} (h : s.engine = .busy w x) : s.busy = true := by
  simp [State.busy, h, Engine.isBusy]

theorem State.busy_iff {s : State} : s.busy = true ↔ ∃ w x, s.engine = .busy w x := by
  cases h : s.engine <;> simp [State.busy, h, Engine.isBusy]

@[simp] theorem State.accept_busy (s : State) (v : Word) : (s.accept v).busy = true := rfl
@[simp] theorem State.dropWrite_busy (s : State) : s.dropWrite.busy = s.busy := rfl
@[simp] theorem State.clearHaz_busy (s : State) : s.clearHaz.busy = s.busy := rfl
@[simp] theorem State.takeTurn_busy (s : State) : s.takeTurn.busy = s.busy := rfl
@[simp] theorem State.hostRead_busy (s : State) (l : Loc) : (s.hostRead l).busy = s.busy := rfl
@[simp] theorem State.hardReset_busy (s : State) : s.hardReset.busy = false := rfl
@[simp] theorem State.tookAccess_busy (s : State) (rest : List HostOp) : (s.tookAccess rest).busy = s.busy := rfl
@[simp] theorem State.finished_busy (s : State) (o : Owned) : (s.finished o).busy = false := rfl
@[simp] theorem State.failed_busy (s : State) (o : Owned) (e : ErrKind) (pos : Nat) : (s.failed o e pos).busy = false := rfl

@[simp] theorem State.accept_snapshot (s : State) (v : Word) :
    (s.accept v).snapshot = ⟨s.inLen, s.ibuf, { s.own with errPos := 0#32 }⟩ := rfl
@[simp] theorem State.dropWrite_snapshot (s : State) : s.dropWrite.snapshot = s.snapshot := rfl
@[simp] theorem State.clearHaz_snapshot (s : State) : s.clearHaz.snapshot = s.snapshot := rfl
@[simp] theorem State.takeTurn_snapshot (s : State) : s.takeTurn.snapshot = s.snapshot := rfl
@[simp] theorem State.hostRead_snapshot (s : State) (l : Loc) : (s.hostRead l).snapshot = s.snapshot := rfl
@[simp] theorem State.tookAccess_snapshot (s : State) (rest : List HostOp) : (s.tookAccess rest).snapshot = s.snapshot := rfl

@[simp] theorem State.snapshot_inLen (s : State) : s.snapshot.inLen = s.inLen := rfl
@[simp] theorem State.snapshot_ibuf (s : State) : s.snapshot.ibuf = s.ibuf := rfl
@[simp] theorem State.snapshot_own (s : State) : s.snapshot.own = s.own := rfl

/-! ### Completion (R112): what it leaves, by the outcome -/

/-- A completion without an error. -/
@[simp] theorem State.complete_done (s : State) (o : Owned) : s.complete (Result.complete o) = s.finished o := rfl

/-- A completion with an error. -/
@[simp] theorem State.complete_raise (s : State) (o : Owned) (e : ErrKind) (pos : Nat) :
    s.complete (Result.raise o e pos) = s.failed o e pos := rfl

/-- Whatever the outcome, a completion writes the engine-owned state, ENGINE, DONE and the error, and nothing else. -/
theorem State.complete_frame (s : State) (r : Result) :
    s.complete r = { s with
      own := (s.complete r).own, engine := .idle
      status := { s.status with done := true, error := (s.complete r).status.error } } := by
  rcases r with ⟨o, _ | ⟨e, pos⟩⟩ <;> rfl

@[simp] theorem State.complete_busy (s : State) (r : Result) : (s.complete r).busy = false := by
  rw [State.complete_frame]; rfl

@[simp] theorem State.complete_params (s : State) (r : Result) : (s.complete r).params = s.params := by
  rw [State.complete_frame]

/-- The engine-owned state after a completion is what the command left, but for ERR_POS. -/
theorem State.complete_own (s : State) (r : Result) :
    (s.complete r).own = { r.own with errPos := (s.complete r).own.errPos } := by
  rcases r with ⟨o, _ | ⟨e, pos⟩⟩ <;> rfl

/-- The input-length check (R113), by its two cases. -/
theorem checkLen_raise {p : Params} {x : Snapshot} (h : p.ibufBytes < x.inLen.toNat) (body : Result) :
    checkLen p x body = Result.raise x.own .len 0 := by simp [checkLen, h]

theorem checkLen_pass {p : Params} {x : Snapshot} (h : x.inLen.toNat ≤ p.ibufBytes) (body : Result) :
    checkLen p x body = body := by simp [checkLen, Nat.not_lt.mpr h]

end Sys2Proof.Machine
end

