-- ==== Sys2Proof/Laws/Huffman.lean ====
section
/-! SUPPORT. Laws/Huffman.lean: what each operation of the Huffman encoder does, said once: the counter, the tree builder's and the
code generator's frames, the bit-packer's output. -/

namespace Sys2Proof.Machine

open Sys2Proof.Reference

/-! ### The tables -/

@[simp] theorem codeOf_clearedCodes (h : Huffman) (s : Byte) :
    Huffman.codeOf { h with codes := clearedCodes } s = ⟨false, 0#8, 0#256⟩ := by simp [Huffman.codeOf, clearedCodes]

@[simp] theorem Huffman.clear_freqOf (h : Huffman) (s : Byte) : h.clear.freqOf s = 0#32 := by
  simp [Huffman.clear, Huffman.freqOf]

@[simp] theorem Huffman.clear_codeOf (h : Huffman) (s : Byte) : h.clear.codeOf s = ⟨false, 0#8, 0#256⟩ := by
  simp [Huffman.clear, Huffman.codeOf, clearedCodes]

@[simp] theorem Huffman.clear_order (h : Huffman) : h.clear.order = [] := rfl
@[simp] theorem Huffman.clear_nsym (h : Huffman) : h.clear.nsym = 0#32 := rfl
@[simp] theorem Huffman.clear_nnodes (h : Huffman) : h.clear.nnodes = 0#32 := rfl
@[simp] theorem Huffman.clear_arena (h : Huffman) : h.clear.arena = [] := rfl
@[simp] theorem Huffman.clear_root (h : Huffman) : h.clear.root = Config.noRoot := rfl
@[simp] theorem Huffman.clear_work (h : Huffman) : h.clear.work = h.work := rfl
@[simp] theorem Huffman.clear_codes (h : Huffman) : h.clear.codes = clearedCodes := rfl

/-- The entry of a symbol after one entry of a table is set. -/
theorem getElem_set_byte {α : Type} (t : Vector α 256) (s c : Byte) (x : α) :
    (t.set s.toNat x s.isLt)[c.toNat]'c.isLt = if c = s then x else t[c.toNat]'c.isLt := by
  rw [Vector.getElem_set]
  by_cases h : c = s
  · simp [h]
  · have hne : s.toNat ≠ c.toNat := fun e => h (BitVec.eq_of_toNat_eq e.symm)
    simp [h, hne]

/-! ### Frequency counter (R131) -/

theorem Huffman.count_freq (h : Huffman) (b : Byte) :
    (h.count b).freq = h.freq.set b.toNat (h.freqOf b + 1#32) b.isLt := by
  unfold Huffman.count; by_cases h0 : h.freqOf b = 0#32 <;> simp [h0]

theorem Huffman.count_freqOf (h : Huffman) (b c : Byte) :
    (h.count b).freqOf c = if c = b then h.freqOf b + 1#32 else h.freqOf c := by
  simp only [Huffman.freqOf, Huffman.count_freq, getElem_set_byte]

theorem Huffman.count_order (h : Huffman) (b : Byte) :
    (h.count b).order = if h.freqOf b = 0#32 then h.order ++ [b] else h.order := by
  simp only [Huffman.count]; split <;> rfl

theorem Huffman.count_nsym (h : Huffman) (b : Byte) :
    (h.count b).nsym = if h.freqOf b = 0#32 then h.nsym + 1#32 else h.nsym := by
  simp only [Huffman.count]; split <;> rfl

/-- Counting touches FREQ, ORDER and HUF_NSYM only. -/
theorem Huffman.count_frame (h : Huffman) (b : Byte) :
    h.count b = { h with freq := (h.count b).freq, order := (h.count b).order, nsym := (h.count b).nsym } := by
  simp only [Huffman.count]; split <;> rfl

theorem Huffman.counts_frame (h : Huffman) (input : List Byte) :
    input.foldl Huffman.count h = { h with
      freq := (input.foldl Huffman.count h).freq
      order := (input.foldl Huffman.count h).order
      nsym := (input.foldl Huffman.count h).nsym } := by
  induction input generalizing h with
  | nil => rfl
  | cons b bs ih =>
    simp only [List.foldl_cons]
    rw [ih (h.count b)]
    have e := Huffman.count_frame h b
    generalize h.count b = k at e ⊢
    rw [e]

/-- FREQ after counting an input: the count before plus the occurrences, modulo the register. -/
theorem Huffman.counts_freqOf (h : Huffman) (input : List Byte) (c : Byte) :
    (input.foldl Huffman.count h).freqOf c = h.freqOf c + BitVec.ofNat 32 (input.count c) := by
  induction input generalizing h with
  | nil => simp
  | cons b bs ih =>
    simp only [List.foldl_cons, ih, Huffman.count_freqOf, List.count_cons]
    by_cases hc : c = b
    · subst hc
      simp only [BEq.rfl, if_true]
      apply BitVec.eq_of_toNat_eq
      simp only [BitVec.toNat_add, BitVec.toNat_ofNat]
      omega
    · have hb : (b == c) = false := by simpa using fun e => hc e.symm
      simp [hc, hb]

/-- FreqCount writes the Huffman state and POS only. -/
theorem freqCount_frame (input : List Byte) (o : Owned) :
    freqCount input o = { o with huf := input.foldl Huffman.count o.huf.clear, pos := BitVec.ofNat 32 input.length } := rfl

/-! ### Tree builder (R135): what it reads and what it leaves -/

theorem mergeLoop_frame (n : Nat) (h : Huffman) :
    mergeLoop n h = { h with
      arena := (mergeLoop n h).arena, nnodes := (mergeLoop n h).nnodes, work := (mergeLoop n h).work } := by
  induction n generalizing h with
  | zero => rfl
  | succ n ih =>
    simp only [mergeLoop]
    split
    · rfl
    · split
      · rfl
      · rw [ih (h.merge _ _)]; rfl

/-- BuildTree leaves FREQ, ORDER and HUF_NSYM, clears the code table, and empties W. -/
theorem buildTree_frame (h : Huffman) :
    buildTree h = { h with
      arena := (buildTree h).arena, nnodes := (buildTree h).nnodes, root := (buildTree h).root
      work := [], codes := clearedCodes } := by
  unfold buildTree
  rw [mergeLoop_frame]
  rfl

@[simp] theorem buildTree_freq (h : Huffman) : (buildTree h).freq = h.freq := by rw [buildTree_frame]
@[simp] theorem buildTree_order (h : Huffman) : (buildTree h).order = h.order := by rw [buildTree_frame]
@[simp] theorem buildTree_nsym (h : Huffman) : (buildTree h).nsym = h.nsym := by rw [buildTree_frame]
@[simp] theorem buildTree_work (h : Huffman) : (buildTree h).work = [] := by rw [buildTree_frame]
@[simp] theorem buildTree_codes (h : Huffman) : (buildTree h).codes = clearedCodes := by rw [buildTree_frame]

/-- The tree depends on FREQ, ORDER and HUF_NSYM only (R135: its operands). -/
theorem mergeLoop_root_codes (n : Nat) (h : Huffman) (r : Word) (c : Vector CodeEntry 256) :
    mergeLoop n { h with root := r, codes := c } = { mergeLoop n h with root := r, codes := c } := by
  induction n generalizing h with
  | zero => rfl
  | succ n ih =>
    simp only [mergeLoop]
    split
    · rfl
    · split
      · rfl
      · exact ih (h.merge _ _)

theorem buildTree_congr {h k : Huffman} (hf : h.freq = k.freq) (ho : h.order = k.order) (hn : h.nsym = k.nsym) :
    buildTree h = buildTree k := by
  have hl : h.leafNode = k.leafNode := by
    funext j; simp only [Huffman.leafNode, Huffman.freqOf, hf, ho]
  have e : h.plantLeaves = { k.plantLeaves with root := h.root, codes := clearedCodes } := by
    simp only [Huffman.plantLeaves, hl, hn, hf, ho]
  have hc : (mergeLoop k.nsym.toNat k.plantLeaves).codes = clearedCodes := by rw [mergeLoop_frame]; rfl
  unfold buildTree
  rw [e, mergeLoop_root_codes, hn]
  generalize mergeLoop k.nsym.toNat k.plantLeaves = m at hc ⊢
  simp only [Huffman.setRoot, hc]

/-! ### Code-table generator (R137) -/

/-- GenCodes writes the code table only. -/
theorem genCodes_frame (h : Huffman) : genCodes h = { h with codes := (genCodes h).codes } := rfl

/-- The code table depends on the tree only. -/
theorem genCodes_congr {h k : Huffman} (ha : h.arena = k.arena) (hn : h.nnodes = k.nnodes) (hr : h.root = k.root) :
    (genCodes h).codes = (genCodes k).codes := by simp only [genCodes, ha, hn, hr]

/-! ### Bit-packer (R139) -/

/-- R97: the bits of OBUF's last output byte past OUT_LEN are 0. -/
def Owned.TailClear (o : Owned) : Prop :=
  ∀ p, o.outLen.toNat ≤ p → p < 8 * bytesForBits o.outLen.toNat → (o.obuf.read (p / 8)).getLsbD (7 - p % 8) = false

theorem getLsbD_add_bit (x : Byte) (n : Nat) (hn : n < 8) (hx : x.getLsbD n = false) (k : Nat) :
    (x + BitVec.ofNat 8 (2 ^ n)).getLsbD k = (x.getLsbD k || decide (k = n)) := by
  have h0 : x &&& BitVec.ofNat 8 (2 ^ n) = 0#8 := by
    apply BitVec.eq_of_getLsbD_eq
    intro i hi
    rw [BitVec.getLsbD_and, BitVec.getLsbD_ofNat, Nat.testBit_two_pow]
    by_cases h : n = i
    · subst h; simp [hx]
    · simp [h]
  rw [BitVec.add_eq_or_of_and_eq_zero _ _ h0, BitVec.getLsbD_or, BitVec.getLsbD_ofNat, Nat.testBit_two_pow]
  by_cases h : n = k
  · subst h; simp [hn]
  · have : k ≠ n := fun e => h e.symm
    simp [h, this]

/-- The byte that holds the next output bit, the byte cleared if that bit begins it. -/
def Owned.curByte (o : Owned) : Byte := if o.outLen.toNat % 8 = 0 then 0#8 else o.obuf.read (o.outLen.toNat / 8)

theorem Owned.putBit_read (o : Owned) (d : Bool) (j : Nat) :
    (o.putBit d).obuf.read j =
      if j = o.outLen.toNat / 8 then
        o.curByte + (if d then BitVec.ofNat 8 (2 ^ (7 - o.outLen.toNat % 8)) else 0#8)
      else o.obuf.read j := by
  simp only [Owned.putBit, Owned.curByte]
  split
  · simp only [Buffer.read_write]; split <;> simp [*]
  · simp only [Buffer.read_write]

/-- One bit of output: OUT_LEN one up, OBUF only in the byte of that bit. -/
theorem Owned.putBit_frame (o : Owned) (d : Bool) :
    o.putBit d = { o with obuf := (o.putBit d).obuf, outLen := o.outLen + 1#32 } := rfl

theorem Owned.curByte_bit {o : Owned} (ho : o.TailClear) (q : Nat) (h1 : o.outLen.toNat ≤ q)
    (h2 : q / 8 = o.outLen.toNat / 8) : o.curByte.getLsbD (7 - q % 8) = false := by
  unfold Owned.curByte
  split
  · simp
  · have := ho q h1 (by unfold bytesForBits; omega)
    rwa [h2] at this

/-- One bit of output (R139): the bits of the output are the old ones and the new one; the tail stays clear; no byte past the
output changes. -/
theorem Owned.putBit_spec {o : Owned} (ho : o.TailClear) (hlen : o.outLen.toNat + 1 < 2 ^ 32) (d : Bool) :
    (o.putBit d).outLen.toNat = o.outLen.toNat + 1 ∧ (o.putBit d).TailClear ∧
    bitsOf (o.putBit d).obuf (o.outLen.toNat + 1) = bitsOf o.obuf o.outLen.toNat ++ [d] ∧
    ∀ j, bytesForBits (o.outLen.toNat + 1) ≤ j → (o.putBit d).obuf.read j = o.obuf.read j := by
  have hl : (o.putBit d).outLen.toNat = o.outLen.toNat + 1 := by
    show (o.outLen + 1#32).toNat = _
    rw [BitVec.toNat_add, BitVec.toNat_ofNat]; omega
  have hn : 7 - o.outLen.toNat % 8 < 8 := by omega
  have hcur := Owned.curByte_bit ho o.outLen.toNat le_rfl rfl
  have hbit : ∀ q, q / 8 = o.outLen.toNat / 8 →
      ((o.putBit d).obuf.read (q / 8)).getLsbD (7 - q % 8) =
        (o.curByte.getLsbD (7 - q % 8) || (d && decide (q = o.outLen.toNat))) := by
    intro q hq
    rw [Owned.putBit_read, if_pos hq]
    cases d
    · simp
    · simp only [if_true, getLsbD_add_bit _ _ hn hcur, Bool.true_and]
      congr 1
      exact decide_eq_decide.mpr ⟨fun h => by omega, fun h => by rw [h]⟩
  refine ⟨hl, ?_, ?_, ?_⟩
  · intro q h1 h2
    rw [hl] at h1 h2
    by_cases hq : q / 8 = o.outLen.toNat / 8
    · rw [hbit q hq, Owned.curByte_bit ho q (by omega) hq]
      simp [show q ≠ o.outLen.toNat by omega]
    · unfold bytesForBits at h2; omega
  · unfold bitsOf
    rw [List.range_succ, List.map_append, List.map_singleton]
    congr 1
    · apply List.map_congr_left
      intro q hq
      have hq := List.mem_range.mp hq
      by_cases hb : q / 8 = o.outLen.toNat / 8
      · rw [hbit q hb]
        have : o.outLen.toNat % 8 ≠ 0 := by omega
        simp [Owned.curByte, this, hb, show q ≠ o.outLen.toNat by omega]
      · rw [Owned.putBit_read, if_neg hb]
    · rw [hbit _ rfl, hcur]; simp
  · intro j hj
    rw [Owned.putBit_read, if_neg (by unfold bytesForBits at hj; omega)]

theorem bytesForBits_mono {m n : Nat} (h : m ≤ n) : bytesForBits m ≤ bytesForBits n := by unfold bytesForBits; omega

/-- Several bits of output (R139). -/
theorem Owned.putBits_spec {o : Owned} (bits : List Bool) (ho : o.TailClear)
    (hlen : o.outLen.toNat + bits.length < 2 ^ 32) :
    (o.putBits bits).outLen.toNat = o.outLen.toNat + bits.length ∧ (o.putBits bits).TailClear ∧
    bitsOf (o.putBits bits).obuf (o.outLen.toNat + bits.length) = bitsOf o.obuf o.outLen.toNat ++ bits ∧
    ∀ j, bytesForBits (o.outLen.toNat + bits.length) ≤ j → (o.putBits bits).obuf.read j = o.obuf.read j := by
  induction bits generalizing o with
  | nil => exact ⟨rfl, ho, by simp [Owned.putBits], fun _ _ => rfl⟩
  | cons d ds ih =>
    simp only [List.length_cons] at hlen
    obtain ⟨h1, h2, h3, h4⟩ := Owned.putBit_spec ho (by omega) d
    obtain ⟨i1, i2, i3, i4⟩ := ih h2 (by omega)
    have e : o.putBits (d :: ds) = (o.putBit d).putBits ds := rfl
    rw [e]
    have hs : o.outLen.toNat + (d :: ds).length = (o.putBit d).outLen.toNat + ds.length := by
      rw [h1, List.length_cons]; omega
    rw [hs]
    refine ⟨i1, i2, ?_, fun j hj => ?_⟩
    · rw [i3, h1, h3]; simp
    · rw [i4 j hj, h4 j (le_trans (bytesForBits_mono (by omega)) hj)]

/-- Putting bits writes OBUF and OUT_LEN only. -/
theorem Owned.putBits_frame (o : Owned) (bits : List Bool) :
    o.putBits bits = { o with obuf := (o.putBits bits).obuf, outLen := (o.putBits bits).outLen } := by
  induction bits generalizing o with
  | nil => rfl
  | cons d ds ih =>
    have e : o.putBits (d :: ds) = (o.putBit d).putBits ds := rfl
    rw [e, ih (o.putBit d), Owned.putBit_frame]

@[simp] theorem Owned.putBits_huf (o : Owned) (bits : List Bool) : (o.putBits bits).huf = o.huf := by
  rw [Owned.putBits_frame]

@[simp] theorem CodeEntry.bits_length (c : CodeEntry) : c.bits.length = c.len.toNat := by simp [CodeEntry.bits]

/-- Pack's loop writes OBUF, OUT_LEN and POS only, whatever its outcome. -/
theorem packLoop_frame (p : Params) (input : List Byte) (i : Nat) (o : Owned) :
    (packLoop p input i o).own = { o with
      obuf := (packLoop p input i o).own.obuf, outLen := (packLoop p input i o).own.outLen
      pos := (packLoop p input i o).own.pos } := by
  induction input generalizing i o with
  | nil => rfl
  | cons b bs ih =>
    simp only [packLoop]
    split
    · rfl
    · split
      · rfl
      · rw [ih, Owned.putBits_frame]

/-- Pack's loop over bytes that all have codes that fit (R139). -/
theorem packLoop_fits (p : Params) (hp : 8 * p.obufBytes < 2 ^ 32) (input : List Byte) (i : Nat) (o : Owned)
    (hv : ∀ b ∈ input, (o.huf.codeOf b).valid = true) (ht : o.TailClear)
    (hl : o.outLen.toNat + packedLength o.huf input ≤ 8 * p.obufBytes) :
    ∃ q : Owned, packLoop p input i o = Result.complete q ∧
      q = { o with obuf := q.obuf, outLen := q.outLen, pos := BitVec.ofNat 32 (i + input.length) } ∧
      q.outLen.toNat = o.outLen.toNat + packedLength o.huf input ∧ q.TailClear ∧
      bitsOf q.obuf q.outLen.toNat = bitsOf o.obuf o.outLen.toNat ++ packedBits o.huf input ∧
      ∀ j, bytesForBits q.outLen.toNat ≤ j → q.obuf.read j = o.obuf.read j := by
  induction input generalizing i o with
  | nil => exact ⟨{ o with pos := BitVec.ofNat 32 i }, rfl, rfl, rfl, ht, by simp [packedBits], fun _ _ => rfl⟩
  | cons b bs ih =>
    have hb := hv b (by simp)
    simp only [packedLength, List.map_cons, List.sum_cons] at hl
    have hle : ¬ o.outLen.toNat + (o.huf.codeOf b).len.toNat > 8 * p.obufBytes := by omega
    simp only [packLoop, hb, Bool.not_true, Bool.false_eq_true, if_false, hle]
    have ht' : Owned.TailClear { o with pos := BitVec.ofNat 32 i } := ht
    obtain ⟨s1, s2, s3, s4⟩ := Owned.putBits_spec (o.huf.codeOf b).bits ht' (by simp; omega)
    have hh : (Owned.putBits { o with pos := BitVec.ofNat 32 i } (o.huf.codeOf b).bits).huf = o.huf := by simp
    simp only [CodeEntry.bits_length] at s1 s3 s4
    obtain ⟨q, hq, hf, q1, q2, q3, q4⟩ := ih (i + 1) (Owned.putBits { o with pos := BitVec.ofNat 32 i } (o.huf.codeOf b).bits)
      (fun c hc => by rw [hh]; exact hv c (List.mem_cons_of_mem _ hc)) s2
      (by rw [hh, s1]; unfold packedLength; omega)
    refine ⟨q, hq, ?_, ?_, q2, ?_, ?_⟩
    · rw [hf, Owned.putBits_frame]
      simp only [List.length_cons]
      congr 2
      omega
    · rw [q1, hh, s1]; simp only [packedLength, List.map_cons, List.sum_cons]; omega
    · rw [q3, hh, s1, s3]; simp [packedBits]
    · intro j hj
      rw [q4 j hj, s4 j (le_trans (bytesForBits_mono (by rw [q1, s1]; simp)) hj)]

end Sys2Proof.Machine
end

