-- ==== Sys2Proof/Laws/Lzw.lean ====
section
/-! SUPPORT. Laws/Lzw.lean: what each operation of the LZW encoder does, said once: the search, the insertion, one emitted code, the
loop's frame. -/

namespace Sys2Proof.Machine

open Sys2Proof.Reference

/-! ### Dictionary engine (R171 to R173) -/

/-- A hit of the search is an entry for the pair, at the code's place. -/
theorem dictSearch_some {p : Word} {b : Byte} {es : List DictEntry} {c k : Nat} (h : dictSearch p b es c = some k) :
    c ≤ k ∧ k < c + es.length ∧ es[k - c]? = some ⟨p, b⟩ := by
  induction es generalizing c with
  | nil => simp [dictSearch] at h
  | cons e es ih =>
    simp only [dictSearch] at h
    split at h
    · rename_i he
      obtain rfl : c = k := by simpa using h
      refine ⟨le_rfl, by simp, ?_⟩
      obtain ⟨rfl, rfl⟩ := he
      simp
    · obtain ⟨h1, h2, h3⟩ := ih h
      refine ⟨by omega, by simp only [List.length_cons]; omega, ?_⟩
      rw [show k - c = (k - (c + 1)) + 1 by omega, List.getElem?_cons_succ]
      exact h3

/-- The search misses exactly when no entry is for the pair. -/
theorem dictSearch_none {p : Word} {b : Byte} {es : List DictEntry} {c : Nat} :
    dictSearch p b es c = none ↔ (⟨p, b⟩ : DictEntry) ∉ es := by
  induction es generalizing c with
  | nil => simp [dictSearch]
  | cons e es ih =>
    obtain ⟨q, d⟩ := e
    simp only [dictSearch, List.mem_cons, DictEntry.mk.injEq]
    by_cases he : q = p ∧ d = b
    · simp [he]
    · rw [if_neg he, ih]
      refine not_congr ⟨.inr, fun h => h.resolve_left fun hc => he ⟨hc.1.symm, hc.2.symm⟩⟩

/-- R171: a hit of Lookup is the code of an entry for the pair. -/
theorem Lzw.lookup_some {z : Lzw} {p c : Word} {b : Byte} (hl : z.dict.length < 2 ^ 31) (h : z.lookup p b = some c) :
    256 ≤ c.toNat ∧ c.toNat < 256 + z.dict.length ∧ z.dict[c.toNat - 256]? = some ⟨p, b⟩ := by
  simp only [Lzw.lookup, Option.map_eq_some_iff] at h
  obtain ⟨k, hk, rfl⟩ := h
  obtain ⟨h1, h2, h3⟩ := dictSearch_some hk
  have : (BitVec.ofNat 32 k).toNat = k := by rw [BitVec.toNat_ofNat]; omega
  rw [this]
  exact ⟨h1, h2, h3⟩

/-- R171: Lookup misses exactly when no entry is for the pair. -/
theorem Lzw.lookup_none {z : Lzw} {p : Word} {b : Byte} : z.lookup p b = none ↔ (⟨p, b⟩ : DictEntry) ∉ z.dict := by
  simp only [Lzw.lookup, Option.map_eq_none_iff, dictSearch_none]

@[simp] theorem Lzw.initDict_dict (z : Lzw) : z.initDict.dict = [] := rfl
@[simp] theorem Lzw.initDict_dictCount (z : Lzw) : z.initDict.dictCount = 256#32 := rfl
@[simp] theorem Lzw.insert_dict (z : Lzw) (p : Word) (b : Byte) : (z.insert p b).dict = z.dict ++ [⟨p, b⟩] := rfl
@[simp] theorem Lzw.insert_dictCount (z : Lzw) (p : Word) (b : Byte) : (z.insert p b).dictCount = z.dictCount + 1#32 := rfl
@[simp] theorem Lzw.insert_acc (z : Lzw) (p : Word) (b : Byte) : (z.insert p b).acc = z.acc := rfl

/-! ### Code sequencer (R174, R175) -/

@[simp] theorem Owned.setAcc_obuf (o : Owned) (c : Word) : (o.setAcc c).obuf = o.obuf := rfl
@[simp] theorem Owned.setAcc_outLen (o : Owned) (c : Word) : (o.setAcc c).outLen = o.outLen := rfl
@[simp] theorem Owned.setAcc_acc (o : Owned) (c : Word) : (o.setAcc c).lzw.acc = some c := rfl
@[simp] theorem Owned.setAcc_dict (o : Owned) (c : Word) : (o.setAcc c).lzw.dict = o.lzw.dict := rfl
@[simp] theorem Owned.setAcc_dictCount (o : Owned) (c : Word) : (o.setAcc c).lzw.dictCount = o.lzw.dictCount := rfl
@[simp] theorem Owned.emitCode_lzw (o : Owned) (c : Word) : (o.emitCode c).lzw = o.lzw := rfl
@[simp] theorem Owned.emitCode_pos (o : Owned) (c : Word) : (o.emitCode c).pos = o.pos := rfl

theorem Owned.emitCode_frame (o : Owned) (c : Word) :
    o.emitCode c = { o with obuf := (o.emitCode c).obuf, outLen := (o.emitCode c).outLen } := rfl

/-- One emitted code (R175, R98): the code words of the output are the old ones and the new one; no byte past them changes. -/
theorem Owned.emitCode_spec (o : Owned) (c : Word) (hlen : o.outLen.toNat + 1 < 2 ^ 32) :
    (o.emitCode c).outLen.toNat = o.outLen.toNat + 1 ∧
    wordsOf (o.emitCode c).obuf (o.outLen.toNat + 1) = wordsOf o.obuf o.outLen.toNat ++ [c] ∧
    ∀ j, 4 * (o.outLen.toNat + 1) ≤ j → (o.emitCode c).obuf.read j = o.obuf.read j := by
  refine ⟨?_, ?_, fun j hj => ?_⟩
  · show (o.outLen + 1#32).toNat = _
    rw [BitVec.toNat_add, BitVec.toNat_ofNat]; omega
  · unfold wordsOf
    rw [List.range_succ, List.map_append, List.map_singleton]
    congr 1
    · apply List.map_congr_left
      intro k hk
      have hk := List.mem_range.mp hk
      exact Buffer.readWord_writeWord_of_ne o.obuf c (.inl (by omega))
    · exact congrArg (fun w => [w]) (Buffer.readWord_writeWord o.obuf _ c)
  · exact Buffer.read_writeWord_of_ne o.obuf _ c (.inr (by omega))

/-- LzwLoop writes OBUF, OUT_LEN, POS and the LZW state only, whatever its outcome. -/
theorem lzwLoop_frame (p : Params) (input : List Byte) (i : Nat) (o : Owned) :
    (lzwLoop p input i o).own = { o with
      obuf := (lzwLoop p input i o).own.obuf, outLen := (lzwLoop p input i o).own.outLen
      pos := (lzwLoop p input i o).own.pos, lzw := (lzwLoop p input i o).own.lzw } := by
  induction input generalizing i o with
  | nil =>
    simp only [lzwLoop]
    split
    · rfl
    · split <;> rfl
  | cons b bs ih =>
    simp only [lzwLoop]
    split
    · rw [ih]; rfl
    · split
      · rw [ih]; rfl
      · split
        · rfl
        · split
          · rfl
          · rw [ih]; rfl

end Sys2Proof.Machine
end

