-- ==== Sys2Proof/Laws/PerInstr.lean ====
section
/-! SUPPORT. Laws/PerInstr.lean: what holds of every instruction as syntax, one lemma per constructor. -/

namespace Sys2Proof.Laws.Encodes

/-- R90 to R92: an instruction's command word is legal, has RSV = 0 and the instruction's OP, and the table's numbering of it reads
back as the instruction. -/
def Statement (i : Instr) : Prop :=
  i.wf = true ∧ cmdLegal (encode i) = true ∧ cmdRsv (encode i) = 0#28 ∧ cmdOp (encode i) = i.op ∧
  decodeTableWord 32 (encode i).toNat = some i

theorem nop : Statement .nop := by unfold Statement; decide
theorem hufEncode : Statement .hufEncode := by unfold Statement; decide
theorem lzwEncode : Statement .lzwEncode := by unfold Statement; decide
theorem rleEncode : Statement .rleEncode := by unfold Statement; decide
theorem hufFreq : Statement .hufFreq := by unfold Statement; decide
theorem hufTree : Statement .hufTree := by unfold Statement; decide
theorem hufCodes : Statement .hufCodes := by unfold Statement; decide
theorem hufPack : Statement .hufPack := by unfold Statement; decide
theorem softReset : Statement .softReset := by unfold Statement; decide

end Sys2Proof.Laws.Encodes
end

