-- ==== Sys2Proof/Laws/Rle.lean ====
section
/-! SUPPORT. Laws/Rle.lean: what each operation of the RLE encoder does, said once: the digits of a count, one emitted run, the
loop's frame. -/

namespace Sys2Proof.Machine

open Sys2Proof.Reference

/-- R14: with digits enough, `decDigits` gives the decimal digits, most significant first. -/
theorem decDigits_eq (fuel n : Nat) (hn : 0 < n) (hf : n < 10 ^ fuel) : decDigits fuel n = (Nat.digits 10 n).reverse := by
  induction fuel generalizing n with
  | zero => omega
  | succ f ih =>
    simp only [decDigits]
    split
    · rename_i h
      rw [Nat.digits_of_lt 10 n (by omega) h]; rfl
    · rename_i h
      rw [ih (n / 10) (by omega) (by rw [pow_succ] at hf; omega), Nat.digits_def' (by omega) hn]
      simp

/-- R99, R192: the bytes of a run. -/
theorem runBytes_eq (s : Byte) (c : Word) (hc : c ≠ 0#32) : runBytes s c = runText (s, c.toNat) := by
  have h0 : 0 < c.toNat := by
    rcases Nat.eq_zero_or_pos c.toNat with h | h
    · exact absurd (BitVec.eq_of_toNat_eq (by simpa using h)) hc
    · exact h
  rw [runBytes, decDigits_eq 10 c.toNat h0 (by have := c.isLt; omega)]
  rfl

theorem runBytes_length_le (s : Byte) (c : Word) : (runBytes s c).length ≤ 11 := by
  have h : ∀ fuel n, (decDigits fuel n).length ≤ fuel := by
    intro fuel
    induction fuel with
    | zero => intro n; simp [decDigits]
    | succ f ih => intro n; simp only [decDigits]; split <;> simp [ih]
  have := h 10 c.toNat
  simp only [runBytes, List.length_cons, List.length_map]
  omega

@[simp] theorem Owned.startRun_obuf (o : Owned) (b : Byte) (i : Nat) : (o.startRun b i).obuf = o.obuf := rfl
@[simp] theorem Owned.startRun_outLen (o : Owned) (b : Byte) (i : Nat) : (o.startRun b i).outLen = o.outLen := rfl
@[simp] theorem Owned.startRun_rle (o : Owned) (b : Byte) (i : Nat) :
    (o.startRun b i).rle = ⟨b, 1#32, BitVec.ofNat 32 i⟩ := rfl
@[simp] theorem Owned.emitRun_rle (o : Owned) : o.emitRun.rle = o.rle := rfl
@[simp] theorem Owned.emitRun_pos (o : Owned) : o.emitRun.pos = o.pos := rfl

theorem Owned.emitRun_frame (o : Owned) : o.emitRun = { o with obuf := o.emitRun.obuf, outLen := o.emitRun.outLen } := rfl

/-- One emitted run (R192): the output's bytes are the old ones and the run's; no byte past them changes. -/
theorem Owned.emitRun_spec (o : Owned) (bytes : List Byte) (hb : runBytes o.rle.runSym o.rle.runCnt = bytes)
    (hlen : o.outLen.toNat + bytes.length < 2 ^ 32) :
    o.emitRun.outLen.toNat = o.outLen.toNat + bytes.length ∧
    bytesOf o.emitRun.obuf (o.outLen.toNat + bytes.length) = bytesOf o.obuf o.outLen.toNat ++ bytes ∧
    ∀ j, o.outLen.toNat + bytes.length ≤ j → o.emitRun.obuf.read j = o.obuf.read j := by
  subst hb
  have hr : ∀ j, o.emitRun.obuf.read j =
      if o.outLen.toNat ≤ j then ((runBytes o.rle.runSym o.rle.runCnt)[j - o.outLen.toNat]?).getD (o.obuf.read j)
      else o.obuf.read j := fun j => Buffer.read_writeList o.obuf _ _ j
  refine ⟨?_, ?_, fun j hj => ?_⟩
  · show (o.outLen + BitVec.ofNat 32 _).toNat = _
    rw [BitVec.toNat_add, BitVec.toNat_ofNat]; omega
  · unfold bytesOf
    rw [List.range_add, List.map_append]
    congr 1
    · apply List.map_congr_left
      intro j hj
      rw [hr, if_neg (by have := List.mem_range.mp hj; omega)]
    · apply List.ext_getElem
      · simp
      · intro n h1 h2
        simp only [List.length_map, List.length_range] at h1
        simp [hr, h1]
  · rw [hr, if_pos (by omega), List.getElem?_eq_none (by omega)]; rfl

/-- RleLoop writes OBUF, OUT_LEN, POS and the run registers only, whatever its outcome. -/
theorem rleLoop_frame (p : Params) (input : List Byte) (i : Nat) (o : Owned) :
    (rleLoop p input i o).own = { o with
      obuf := (rleLoop p input i o).own.obuf, outLen := (rleLoop p input i o).own.outLen
      pos := (rleLoop p input i o).own.pos, rle := (rleLoop p input i o).own.rle } := by
  induction input generalizing i o with
  | nil => simp only [rleLoop]; split <;> rfl
  | cons b bs ih =>
    simp only [rleLoop]
    split
    · rw [ih]
    · split
      · rfl
      · rw [ih]; rfl

end Sys2Proof.Machine
end

