-- ==== Sys2Proof/Laws/Script.lean ====
section
/-! SUPPORT. Laws/Script.lean: what the encoding of a host script is, access by access. -/

namespace Sys2Proof.Machine

@[simp] theorem accessTriples_nil (base : Nat) (more : List Nat) : accessTriples base more [] = [] := by simp [accessTriples]

@[simp] theorem accessTriples_write (base : Nat) (more : List Nat) (n addr : Nat) (v : Word) (ops : List HostOp) :
    accessTriples base more (.write n addr v :: ops) = ⟨true, addr - base, some v⟩ :: accessTriples base more ops := by
  simp [accessTriples, HostOp.triples]

@[simp] theorem accessTriples_read (base : Nat) (more : List Nat) (n addr : Nat) (ops : List HostOp) :
    accessTriples base more (.read n addr :: ops) = ⟨false, addr - base, none⟩ :: accessTriples base more ops := by
  simp [accessTriples, HostOp.triples]

/-- A WAIT polls STATUS once, and as often again as its entry of `more` says. -/
@[simp] theorem accessTriples_wait (base n : Nat) (more : List Nat) (ops : List HostOp) :
    accessTriples base (n :: more) (.wait :: ops) =
      List.replicate (n + 1) ⟨false, 0x00C, none⟩ ++ accessTriples base more ops := by
  simp [accessTriples, HostOp.triples, Loc.offset, Reg.index]

end Sys2Proof.Machine
end

