-- ==== Sys2Proof/Laws/Step.lean ====
section
/-! SUPPORT. Laws/Step.lean: what a step can do, said once: by whose turn it is, by the host's access, by the place a write names, by
the instruction. -/

namespace Sys2Proof.Machine

/-! ### The decoder and the encoder -/

theorem decode_encode (i : Instr) : decode (encode i) = .ok i := by cases i <;> rfl

@[simp] theorem fetchWord_encode (i : Instr) : fetchWord 32 (encode i).toNat = encode i := by cases i <;> rfl

/-! ### The bus -/

/-- R61: an offset the block answers, and its bus address. -/
theorem busOffset_eq_some {p : Params} {addr off : Nat} :
    busOffset p addr = some off ↔ addr = p.base + off ∧ off < Config.spanBytes := by
  simp only [busOffset]
  constructor
  · intro h
    split at h
    · simp only [Option.some.injEq] at h; omega
    · exact absurd h (by simp)
  · rintro ⟨rfl, h⟩
    rw [if_pos (by omega)]
    simp

theorem busOffset_base_add {p : Params} {off : Nat} (h : off < 2 ^ 22) : busOffset p (p.base + off) = some off :=
  busOffset_eq_some.mpr ⟨rfl, h⟩

/-- A bus access that answers a next state is 4 bytes wide, at an address of the block, and does its act there. -/
theorem busAccess_next {s t : State} {bytes addr : Nat} {act : State → Loc → State}
    (h : busAccess s bytes addr act = .next t) :
    bytes = 4 ∧ ∃ off, busOffset s.params addr = some off ∧ t = act s (locAt s.params off) := by
  unfold busAccess at h
  split at h
  · refine ⟨by simpa [accessWidthOk] using ‹accessWidthOk bytes = true›, ?_⟩
    split at h
    · exact ⟨_, ‹_›, by simpa using h.symm⟩
    · exact absurd h (by simp)
  · exact absurd h (by simp)

/-- R60, R63: an IBUF word begins at a multiple of 4 inside the buffer. -/
theorem locAt_eq_ibuf {p : Params} {off j : Nat} (h : locAt p off = .ibuf j) : j % 4 = 0 ∧ j < p.ibufBytes := by
  unfold locAt locOfWord at h
  split at h
  · unfold regAt at h; split at h <;> cases h
  · repeat' split at h
    all_goals first
      | (have hj := Loc.ibuf.inj h; omega)
      | exact nomatch h

/-- R26 to R36, R64 to R66: all that a host write can do. -/
theorem State.writeLoc_cases (s : State) (v : Word) (l : Loc) :
    s.writeLoc v l = s ∨
    (s.busy = true ∧ (l = .reg .cmd ∨ l = .reg .inLen ∨ ∃ j, l = .ibuf j) ∧ s.writeLoc v l = s.dropWrite) ∨
    (s.busy = false ∧ l = .reg .cmd ∧ s.writeLoc v l = s.accept v) ∨
    (l = .reg .status ∧ s.writeLoc v l = { s with status := s.status.clearBits v }) ∨
    (s.busy = false ∧ l = .reg .inLen ∧ s.writeLoc v l = { s with inLen := v }) ∨
    (l = .reg .irqEn ∧ s.writeLoc v l = { s with irqEn := v.getLsbD 0 }) ∨
    (s.busy = false ∧ ∃ j, l = .ibuf j ∧ s.writeLoc v l = { s with ibuf := s.ibuf.writeWord j v }) := by
  cases hb : s.busy <;> rcases l with r | _ | _ | _ | _ | _ | _ | _ <;> (try cases r) <;> simp [State.writeLoc, hb]

/-- The host's turn: all it can do when it answers a next state. -/
theorem hostStep_next {s t : State} (h : hostStep s = .next t) :
    (s.host = [] ∧ t = s) ∨
    (∃ addr v rest off, s.host = .write 4 addr v :: rest ∧ busOffset s.params addr = some off ∧
      t = State.writeLoc { s with host := rest } v (locAt s.params off)) ∨
    (∃ addr rest off, s.host = .read 4 addr :: rest ∧ busOffset s.params addr = some off ∧
      t = State.hostRead { s with host := rest } (locAt s.params off)) ∨
    (∃ rest, s.host = .wait :: rest ∧
      t = State.hostRead { s with host := if s.status.done then rest else s.host } (.reg .status)) := by
  unfold hostStep at h
  split at h
  · exact .inl ⟨‹_›, by simpa using h.symm⟩
  · obtain ⟨rfl, off, ho, rfl⟩ := busAccess_next h
    exact .inr (.inl ⟨_, _, _, off, ‹_›, ho, rfl⟩)
  · obtain ⟨rfl, off, ho, rfl⟩ := busAccess_next h
    exact .inr (.inr (.inl ⟨_, _, off, ‹_›, ho, rfl⟩))
  · exact .inr (.inr (.inr ⟨_, ‹_›, by simpa using h.symm⟩))

/-- A host write of the interface, at a place of the block. -/
theorem hostStep_write {s : State} {addr off : Nat} {v : Word} {rest : List HostOp}
    (hs : s.host = .write 4 addr v :: rest) (ho : busOffset s.params addr = some off) :
    hostStep s = .next (State.writeLoc { s with host := rest } v (locAt s.params off)) := by
  simp [hostStep, hs, busAccess, accessWidthOk, ho]

/-- A host read of the interface, at a place of the block. -/
theorem hostStep_read {s : State} {addr off : Nat} {rest : List HostOp}
    (hs : s.host = .read 4 addr :: rest) (ho : busOffset s.params addr = some off) :
    hostStep s = .next (State.hostRead { s with host := rest } (locAt s.params off)) := by
  simp [hostStep, hs, busAccess, accessWidthOk, ho]

/-- A poll of WAIT: STATUS is read once, and the loop is over if DONE was 1. -/
theorem hostStep_wait {s : State} {rest : List HostOp} (hs : s.host = .wait :: rest) :
    hostStep s = .next { s with
      host := if s.status.done then rest else s.host, reads := statusWord s.busy s.status :: s.reads } := by
  simp [hostStep, hs, State.hostRead, State.readValue, Loc.isResult, State.readLoc, State.readReg, State.busy]

/-! ### Instructions -/

/-- What `Exec` answers for each instruction (R92, R112). -/
def resultOf (p : Params) (x : Snapshot) : Instr → Result
  | .nop => nopResult x
  | .hufEncode => hufEncodeResult p x
  | .lzwEncode => lzwEncodeResult p x
  | .rleEncode => rleEncodeResult p x
  | .hufFreq => hufFreqResult p x
  | .hufTree => hufTreeResult x
  | .hufCodes => hufCodesResult x
  | .hufPack => hufPackResult p x
  | .softReset => softResetResult x

/-- Every instruction completes, with what `Exec` answers; SOFT_RESET also clears HAZ. -/
theorem exec_eq (i : Instr) (s : State) :
    exec i s = .next (if i = .softReset then (s.complete (resultOf s.params s.snapshot i)).clearHaz
      else s.complete (resultOf s.params s.snapshot i)) := by
  cases i <;> rfl

/-! ### The step -/

theorem step_host {s : State} (h : s.turn = .host) : step s = hostStep s.takeTurn := by simp [step, h]

theorem step_engine {s : State} (h : s.turn = .engine) : step s = engineStep s.takeTurn := by simp [step, h]

theorem step_hwReset {s : State} (h : s.turn = .hwReset) : step s = .next s.takeTurn.hardReset := by simp [step, h]

/-- The engine's turn: all it can do. -/
theorem engineStep_cases (s : State) :
    (s.engine = .idle ∧ engineStep s = .next s) ∨
    (∃ w x i, s.engine = .busy w x ∧ decode w = .ok i ∧ engineStep s = exec i s) ∨
    (∃ w x e, s.engine = .busy w x ∧ decode w = .error e ∧
      engineStep s = .next (s.complete (badCmdResult s.snapshot))) := by
  unfold engineStep
  split
  · exact .inl ⟨‹_›, rfl⟩
  · split
    · exact .inr (.inl ⟨_, _, _, ‹_›, ‹_›, rfl⟩)
    · exact .inr (.inr ⟨_, _, _, ‹_›, ‹_›, rfl⟩)

/-- A step, all it can do when it answers a next state, by whose turn it is. -/
theorem step_next {s t : State} (h : step s = .next t) :
    (s.turn = .host ∧ hostStep s.takeTurn = .next t) ∨
    (s.turn = .engine ∧ s.engine = .idle ∧ t = s.takeTurn) ∨
    (s.turn = .engine ∧ ∃ w x i, s.engine = .busy w x ∧ decode w = .ok i ∧ exec i s.takeTurn = .next t) ∨
    (s.turn = .engine ∧ ∃ w x e, s.engine = .busy w x ∧ decode w = .error e ∧
      t = s.takeTurn.complete (badCmdResult s.snapshot)) ∨
    (s.turn = .hwReset ∧ t = s.takeTurn.hardReset) := by
  cases hs : s.turn
  · exact .inl ⟨rfl, step_host hs ▸ h⟩
  · rw [step_engine hs] at h
    rcases engineStep_cases s.takeTurn with ⟨he, hn⟩ | ⟨w, x, i, he, hd, hn⟩ | ⟨w, x, e, he, hd, hn⟩
    · rw [hn] at h; exact .inr (.inl ⟨rfl, he, by simpa using h.symm⟩)
    · rw [hn] at h; exact .inr (.inr (.inl ⟨rfl, w, x, i, he, hd, h⟩))
    · rw [hn] at h; exact .inr (.inr (.inr (.inl ⟨rfl, w, x, e, he, hd, by simpa using h.symm⟩)))
  · rw [step_hwReset hs] at h
    exact .inr (.inr (.inr (.inr ⟨rfl, by simpa using h.symm⟩)))

/-- The word a state was given (log 2) is what the very next step runs. -/
theorem step_withFetchWord (s : State) (i : Instr) :
    step (s.withFetchWord 32 (encode i).toNat) = exec i (s.accept (encode i)) := by
  have h : (s.withFetchWord 32 (encode i).toNat).turn = .engine := rfl
  rw [step_engine h]
  have e : (s.withFetchWord 32 (encode i).toNat).takeTurn = s.accept (encode i) := by
    simp only [State.withFetchWord, State.takeTurn, fetchWord_encode]; rfl
  rw [e]
  simp [engineStep, decode_encode]

/-! ### Runs -/

/-- What holds of a state and is kept by every step holds after any number of steps. -/
theorem run_keeps {P : State → Prop} (hP : ∀ s t, P s → step s = .next t → P t) (k : Nat) {s t : State} (hs : P s)
    (h : core.run k s = .next t) : P t := by
  induction k generalizing s with
  | zero => simp only [Host.Core.run] at h; cases h; exact hs
  | succ k ih =>
    simp only [Host.Core.run] at h
    split at h
    · exact ih (hP _ _ hs ‹_›) h
    · cases h
    · cases h

/-- One step, then the rest of a run. -/
theorem run_succ {s t : State} (h : step s = .next t) (k : Nat) : core.run (k + 1) s = core.run k t := by
  have h' : core.step s = .next t := h
  simp only [Host.Core.run, h']

end Sys2Proof.Machine
end

