-- ==== Sys2Proof/Tests/Slice0.lean ====
section
/-! SUPPORT. Tests/Slice0.lean: the model's own tests, each one step on a small state with the expected result taken from spec/ (its
encodings, and the vectors of 95_test_vectors.md, named by their numbers there); and for every obligation with hypotheses a witness
that meets all of them. -/

namespace Sys2Proof.Tests

open Sys2Proof Sys2Proof.Machine Sys2Proof.Reference

set_option maxRecDepth 10000
set_option Elab.async false

/-! ### Ill-formed terms are refused -/

/-- R91, V3: OP = 0x8 is reserved. -/
theorem test_wf_reserved_op : cmdLegal 0x00000008#32 = false ∧ cmdLegal 0x0000000E#32 = false := by decide

/-- R91, V5: a nonzero RSV over OP = 0x0. -/
theorem test_wf_reserved_bits : cmdLegal 0x00000010#32 = false ∧ cmdLegal 0x8000000F#32 = false := by decide

theorem test_wf_legal_words : cmdLegal 0x00000007#32 = true ∧ cmdLegal 0x0000000F#32 = true := by decide

/-- R6: IBUF_BYTES is a multiple of 4 and at least 4. -/
theorem test_wf_ibuf : Params.wf ⟨6, 16, 256, 0⟩ = false ∧ Params.wf ⟨0, 16, 256, 0⟩ = false := by decide

theorem test_wf_obuf : Params.wf ⟨16, 18, 256, 0⟩ = false ∧ Params.wf ⟨16, 2 ^ 21 + 4, 256, 0⟩ = false := by decide

theorem test_wf_dict : Params.wf ⟨16, 16, 255, 0⟩ = false ∧ Params.wf ⟨16, 16, 2 ^ 21 + 1, 0⟩ = false := by decide

/-- R6: BASE is a multiple of 2^22. -/
theorem test_wf_base : Params.wf ⟨16, 16, 256, 2 ^ 21⟩ = false ∧ Params.wf ⟨16, 16, 256, 2 ^ 22⟩ = true := by decide

/-- R62: 2 and 8 bytes are no width of the port. -/
theorem test_wf_width : accessWidthOk 2 = false ∧ accessWidthOk 8 = false ∧ accessWidthOk 4 = true := by decide

/-! ### Decoding: R92's words, bit by bit -/

theorem test_decode_nop : decode 0b00000000000000000000000000000000#32 = .ok .nop := by decide
theorem test_decode_hufEncode : decode 0b00000000000000000000000000000001#32 = .ok .hufEncode := by decide
theorem test_decode_lzwEncode : decode 0b00000000000000000000000000000010#32 = .ok .lzwEncode := by decide
theorem test_decode_rleEncode : decode 0b00000000000000000000000000000011#32 = .ok .rleEncode := by decide
theorem test_decode_hufFreq : decode 0b00000000000000000000000000000100#32 = .ok .hufFreq := by decide
theorem test_decode_hufTree : decode 0b00000000000000000000000000000101#32 = .ok .hufTree := by decide
theorem test_decode_hufCodes : decode 0b00000000000000000000000000000110#32 = .ok .hufCodes := by decide
theorem test_decode_hufPack : decode 0b00000000000000000000000000000111#32 = .ok .hufPack := by decide
theorem test_decode_softReset : decode 0b00000000000000000000000000001111#32 = .ok .softReset := by decide

/-- R93: no word with a bit of RSV set is any instruction. -/
theorem test_decode_rejects : decode 0x00000011#32 = .error .reservedBits ∧ decode 0x0000000B#32 = .error .reservedOp := by decide

theorem test_table_word : decodeTableWord 32 0xF = some .softReset ∧ decodeTableWord 32 0x1F = none := by decide

/-! ### Small states -/

/-- A block of the source's proportions (R216), small. -/
def tiny : Params := ⟨16, 64, 272, 0x40000000⟩

/-- An idle block after reset, its input being `input`. -/
def blk (p : Params) (input : List Byte) : State :=
  { State.resetWith p 0 with inLen := BitVec.ofNat 32 input.length, ibuf := Buffer.writeList ⟨[], 0⟩ 0 input }

/-- The state `i` leaves when it runs alone on `s`, as an accepted command. -/
def ran (i : Instr) (s : State) : State :=
  match step (s.withFetchWord 32 (encode i).toNat) with
  | .next t => t
  | _ => s

/-- The state after one step, if there is one. -/
def after (s : State) : State :=
  match step s with
  | .next t => t
  | _ => s

/-- `s` with the host about to make the access `op`. -/
def asks (s : State) (op : HostOp) : State := { s with host := [op], turns := [.host] }

def asksWrite (s : State) (off : Nat) (v : Word) : State := asks s (.write 4 (s.params.base + off) v)

def asksRead (s : State) (off : Nat) : State := asks s (.read 4 (s.params.base + off))

/-- `s` with the word `w` accepted, the engine to move. -/
def pending (s : State) (w : Word) : State := { s.accept w with turns := [.engine] }

def status (s : State) : Word := s.readReg .status

/-- The bytes something has written to OBUF, with their indices. -/
def written (s : State) : List (Nat × Nat) := s.own.obuf.cells.map fun c => (c.1, c.2.toNat)

/-- "aab". -/
def aab : List Byte := [0x61, 0x61, 0x62]

/-- "aaaa". -/
def aaaa : List Byte := [0x61, 0x61, 0x61, 0x61]

/-- "aaabccccd". -/
def runsInput : List Byte := [0x61, 0x61, 0x61, 0x62, 0x63, 0x63, 0x63, 0x63, 0x64]

/-- "abbccc". -/
def abbccc : List Byte := [0x61, 0x62, 0x62, 0x63, 0x63, 0x63]

/-- "aab" counted (R132). -/
def counted : State := ran .hufFreq (blk tiny aab)

/-- "aab" counted and its tree built (R135). -/
def planted : State := ran .hufTree counted

/-- "aab" counted, its tree built, its codes made (R138). -/
def coded : State := ran .hufCodes planted

/-! ### One command each: the vectors of 95_test_vectors.md -/

/-- V1. -/
theorem test_nop : status (ran .nop (blk tiny aab)) = 0x00000002#32 := by decide +kernel

/-- V2, V9: SOFT_RESET after an LZW_ENCODE; OBUF is kept. -/
theorem test_softReset :
    let t := ran .softReset (ran .lzwEncode (blk tiny aaaa))
    status t = 0x0000F002#32 ∧ t.own.lzw.dictCount = 0#32 ∧ t.own.outLen = 0#32 ∧ t.inLen = 4#32 ∧
      t.own.obuf.readWord 0 = 0x00000061#32 := by decide +kernel

/-- V2: HAZ is cleared too, and the Huffman tables. -/
theorem test_softReset_huffman :
    let t := ran .softReset { coded with status := { coded.status with haz := true } }
    status t = 0x0000F002#32 ∧ t.own.huf.root = 0xFFFFFFFF#32 ∧ t.readLoc (.codeLen 0x61#8) = 0#32 ∧
      t.readLoc (.freq 0x61#8) = 0#32 := by decide +kernel

/-- V6: 0x11 does not run HUF_ENCODE. -/
theorem test_badCmd :
    let t := after (pending (blk tiny aab) 0x00000011#32)
    status t = 0x00001016#32 ∧ t.own.huf.root = 0xFFFFFFFF#32 ∧ t.cmd = 0x00000011#32 := by decide +kernel

/-- H3, H6: counts, and ORDER by first occurrence. -/
theorem test_hufFreq :
    let t := ran .hufFreq (blk tiny [0x00, 0xFF, 0x00])
    t.own.huf.nsym = 2#32 ∧ t.own.huf.order = [0x00#8, 0xFF#8] ∧ t.readLoc (.freq 0x00#8) = 2#32 ∧
      t.readLoc (.freq 0xFF#8) = 1#32 := by decide +kernel

/-- H7: HUF_FREQ empties what lies downstream. -/
theorem test_hufFreq_clears :
    let t := ran .hufFreq (ran .hufEncode (blk tiny aab))
    t.own.huf.nnodes = 0#32 ∧ t.own.huf.root = 0xFFFFFFFF#32 ∧ t.readLoc (.codeLen 0x61#8) = 0#32 ∧
      t.own.outLen = 3#32 := by decide +kernel

/-- T6: the rarer leaf is LEFT; the NODE window reads. -/
theorem test_hufTree :
    planted.own.huf.nnodes = 3#32 ∧ planted.own.huf.root = 2#32 ∧
    planted.readLoc (.node 0#9 1#2) = 0x00006101#32 ∧ planted.readLoc (.node 2#9 0#2) = 3#32 ∧
    planted.readLoc (.node 2#9 2#2) = 1#32 ∧ planted.readLoc (.node 2#9 3#2) = 0#32 ∧
    planted.readLoc (.node 3#9 0#2) = 0#32 := by decide +kernel

/-- T13: a leaf beats a merge result of equal frequency. -/
theorem test_hufTree_tie :
    (ran .hufTree (ran .hufFreq (blk tiny abbccc))).own.huf.arena.map Node.kind =
      [.leaf 0x61#8, .leaf 0x62#8, .leaf 0x63#8, .internal 0#9 1#9, .internal 2#9 3#9] := by decide +kernel

/-- C5: a = 1, b = 0. -/
theorem test_hufCodes :
    coded.readLoc (.codeLen 0x61#8) = 0x101#32 ∧ coded.readLoc (.code 0x61#8 0#3) = 1#32 ∧
    coded.readLoc (.codeLen 0x62#8) = 0x101#32 ∧ coded.readLoc (.code 0x62#8 0#3) = 0#32 := by decide +kernel

/-- C8: b = 100, d = 101, of three bits. -/
theorem test_hufCodes_paths :
    let t := ran .hufCodes (ran .hufTree (ran .hufFreq (blk tiny runsInput)))
    t.own.huf.codeOf 0x62#8 = ⟨true, 3#8, 4#256⟩ ∧ t.own.huf.codeOf 0x64#8 = ⟨true, 3#8, 5#256⟩ ∧
      t.own.huf.codeOf 0x65#8 = ⟨false, 0#8, 0#256⟩ := by decide +kernel

/-- P-1: "ba" with C5. -/
theorem test_hufPack :
    let t := ran .hufPack { coded with ibuf := Buffer.writeList ⟨[], 0⟩ 0 [0x62, 0x61], inLen := 2#32 }
    t.own.outLen = 2#32 ∧ written t = [(0, 0x40)] := by decide +kernel

/-- P-3: "abc" with C5. -/
theorem test_hufPack_noCode :
    let t := ran .hufPack { coded with ibuf := Buffer.writeList ⟨[], 0⟩ 0 [0x61, 0x62, 0x63], inLen := 3#32 }
    status t = 0x00007056#32 ∧ t.own.errPos = 2#32 ∧ t.own.outLen = 2#32 ∧ written t = [(0, 0x80)] := by decide +kernel

/-- E-9. -/
theorem test_hufEncode :
    let t := ran .hufEncode (blk tiny runsInput)
    status t = 0x00001002#32 ∧ t.own.outLen = 16#32 ∧ written t = [(0, 0xFE), (1, 0x05)] := by decide +kernel

/-- E-3: one distinct symbol. -/
theorem test_hufEncode_one_symbol :
    let t := ran .hufEncode (blk tiny aaaa)
    t.own.outLen = 0#32 ∧ t.readLoc (.codeLen 0x61#8) = 0x100#32 ∧ t.own.huf.root = 0#32 ∧ written t = [] := by
  decide +kernel

/-- Z3. -/
theorem test_lzwEncode :
    let t := ran .lzwEncode (blk tiny aaaa)
    status t = 0x00002002#32 ∧ t.own.outLen = 3#32 ∧ t.own.lzw.dictCount = 258#32 ∧
      wordsOf t.own.obuf 3 = [97#32, 256#32, 97#32] := by decide +kernel

/-- Z13: E_DICT_FULL, the code emitted at that step kept. -/
theorem test_lzwEncode_dictFull :
    let t := ran .lzwEncode (blk ⟨16, 64, 257, 0⟩ aaaa)
    status t = 0x00002046#32 ∧ t.own.errPos = 3#32 ∧ t.own.outLen = 2#32 ∧ t.own.lzw.dictCount = 257#32 := by
  decide +kernel

/-- R-3. -/
theorem test_rleEncode :
    let t := ran .rleEncode (blk tiny runsInput)
    status t = 0x00003002#32 ∧ bytesOf t.own.obuf t.own.outLen.toNat = [0x61, 0x33, 0x62, 0x31, 0x63, 0x34, 0x64, 0x31] := by
  decide +kernel

/-- R-11: a count of two digits, and E_OBUF_OVF at the run after it. -/
theorem test_rleEncode_overflow :
    let t := ran .rleEncode (blk ⟨16, 4, 256, 0⟩ (List.replicate 12 0x61#8 ++ [0x62]))
    status t = 0x00003036#32 ∧ t.own.errPos = 12#32 ∧ t.own.outLen = 3#32 ∧
      written t = [(0, 0x61), (1, 0x31), (2, 0x32)] := by decide +kernel

/-- R-13: E_LEN. -/
theorem test_length_check :
    status (ran .rleEncode { blk tiny [] with inLen := 17#32 }) = 0x00003026#32 := by decide +kernel

/-! ### The host port: M1 to M17 -/

/-- M1, M2, M4. -/
theorem test_read_constants :
    (after (asksRead (blk tiny []) 0x000)).reads = [0x434F5245#32] ∧
    (after (asksRead (blk tiny []) 0x004)).reads = [0x00010000#32] ∧
    (after (asksRead (blk tiny []) 0x02C)).reads = [0xFFFFFFFF#32] := by decide +kernel

/-- M3: PARAM_* of the default sizes. -/
theorem test_read_params :
    let s := blk ⟨65536, 262144, 65792, 0⟩ []
    (after (asksRead s 0x030)).reads = [0x00010000#32] ∧ (after (asksRead s 0x034)).reads = [0x00040000#32] ∧
      (after (asksRead s 0x038)).reads = [0x00010100#32] := by decide +kernel

/-- M5, at the ends of reserved ranges. -/
theorem test_read_reserved :
    ∀ off ∈ [0x03C, 0x3FC, 0x0C00, 0x6000, 0x300000], (after (asksRead (blk tiny []) off)).reads = [0#32] := by
  decide +kernel

/-- M6. -/
theorem test_write_read_only : (after (asksWrite (blk tiny []) 0x014 5#32)).own.outLen = 0#32 := by decide +kernel

/-- M7, R63: bits 1:0 of the offset do not matter. -/
theorem test_write_ibuf :
    let t := after (asksWrite (blk tiny []) 0x100003 0x64636261#32)
    t.ibuf.read 0 = 0x61#8 ∧ t.ibuf.read 3 = 0x64#8 := by decide +kernel

/-- M8, M12. -/
theorem test_write_irqEn_inLen :
    (after (asksWrite (blk tiny []) 0x01C 0xFFFFFFFF#32)).readReg .irqEn = 1#32 ∧
    (after (asksWrite (blk tiny []) 0x010 0xFFFFFFFF#32)).inLen = 0xFFFFFFFF#32 := by decide +kernel

/-- M9, M10, M11. -/
theorem test_write_status :
    let s := { blk tiny [] with status := ⟨true, none, true, 2#4⟩ }
    let e := { blk tiny [] with status := ⟨true, some .obufOvf, false, 2#4⟩ }
    status s = 0x00002102#32 ∧ status (after (asksWrite s 0x00C 2#32)) = 0x00002100#32 ∧
      status (after (asksWrite s 0x00C 0#32)) = 0x00002102#32 ∧
      status (after (asksWrite e 0x00C 0xFFFFFFFF#32)) = 0x00002034#32 := by decide +kernel

/-- A busy block: LZW_ENCODE of "aaaa" accepted. -/
def busyBlk : State := (blk tiny aaaa).accept 2#32

/-- M13, M14: dropped while BUSY. -/
theorem test_write_busy :
    status (after (asksWrite busyBlk 0x008 1#32)) = 0x00002101#32 ∧
    (after (asksWrite busyBlk 0x008 1#32)).cmd = 2#32 ∧
    (after (asksWrite busyBlk 0x100000 0#32)).ibuf = busyBlk.ibuf ∧
    status (after (asksWrite busyBlk 0x010 2#32)) = 0x00002101#32 := by decide +kernel

/-- M15: while BUSY a result location reads as a draw. -/
theorem test_read_busy_result : (after (asksRead busyBlk 0x014)).reads = [Config.freeRead 2] := by rfl

/-- M16. -/
theorem test_read_busy_defined :
    (after (asksRead busyBlk 0x010)).reads = [4#32] ∧ (after (asksRead busyBlk 0x100000)).reads = [0x61616161#32] := by
  decide +kernel

/-- R61, R62. -/
theorem test_outside :
    step (asksRead (blk tiny []) 0x400000) = .fault .outsideBlock ∧
    step (asks (blk tiny []) (.read 2 0x40000000)) = .refused .accessWidth := by
  constructor <;> rfl

/-- P6: both orders of the IN_LEN write and the completion are runs of the model. -/
theorem test_p6 :
    let s := asksWrite busyBlk 0x010 2#32
    (∃ t, core.run 2 { s with turns := [.host, .engine] } = .next t ∧
      status t = 0x00002102#32 ∧ t.inLen = 4#32 ∧ t.own.outLen = 3#32) ∧
    (∃ t, core.run 2 { s with turns := [.engine, .host] } = .next t ∧
      status t = 0x00002002#32 ∧ t.inLen = 2#32 ∧ t.own.outLen = 3#32) := by
  refine ⟨⟨_, rfl, ?_⟩, ⟨_, rfl, ?_⟩⟩ <;> decide +kernel

/-- R101: LOAD of "aab" as P3 writes it, with its zero fill. -/
theorem test_load :
    (Stmt.load aab).ops 0 = [.write 4 0x100000 0x00626161#32, .write 4 0x000010 3#32] := by decide

/-- R102: P2's first and last triples. -/
theorem test_triples :
    scriptTriples 0x40000000 [0] [.wr (.reg .irqEn) 1#32, .run .rleEncode, .ack] =
      [⟨true, 0x1C, some 1#32⟩, ⟨true, 0x08, some 3#32⟩, ⟨false, 0x0C, none⟩, ⟨true, 0x0C, some 2#32⟩] := by decide

/-- R102, P4: two WAITs that poll three times and once. -/
theorem test_triples_polls :
    scriptTriples 0x40000000 [2, 0] [.run .hufFreq, .run .hufTree] =
      [⟨true, 0x08, some 4#32⟩, ⟨false, 0x0C, none⟩, ⟨false, 0x0C, none⟩, ⟨false, 0x0C, none⟩,
       ⟨true, 0x08, some 5#32⟩, ⟨false, 0x0C, none⟩] := by decide

/-- R101: a poll that reads DONE = 0 keeps the WAIT, one that reads DONE = 1 ends it. -/
theorem test_wait :
    (after (asks busyBlk .wait)).host = [.wait] ∧ (after (asks busyBlk .wait)).reads = [0x00002001#32] ∧
      (after (asks (after (pending (blk tiny []) 0#32)) .wait)).host = [] := by decide +kernel

/-- R23: OUT_LEN at 0x014 and ERR_POS at 0x018, of P-3. -/
theorem test_read_results :
    let t := ran .hufPack { coded with ibuf := Buffer.writeList ⟨[], 0⟩ 0 [0x61, 0x63], inLen := 2#32 }
    (after (asksRead t 0x014)).reads = [1#32] ∧ (after (asksRead { t with own := { t.own with outLen := 7#32 } } 0x018)).reads = [1#32] := by
  decide +kernel

/-- M17. -/
theorem test_obuf_word :
    (ran .hufEncode (blk tiny [0x68, 0x65, 0x6C, 0x6C, 0x6F, 0x20, 0x77, 0x6F, 0x72, 0x6C, 0x64])).readLoc (.obuf 0) =
      0x530EACEF#32 := by decide +kernel

/-- Every instruction runs as the first one after reset. -/
theorem test_first_after_reset (i : Instr) : ∃ t, step (State.reset.withFetchWord 32 (encode i).toNat) = .next t := by
  cases i <;> exact ⟨_, rfl⟩

/-! ### Witnesses: for each obligation with hypotheses, a state and operands that meet all of them -/

/-- What the meaning of `i` leaves of `s`. -/
def leaves (i : Instr) (s : State) : State :=
  match exec i s with
  | .next t => t
  | _ => s

theorem exec_leaves (i : Instr) (s : State) : exec i s = .next (leaves i s) := by cases i <;> rfl

/-- A state with the engine's turn next. -/
def engineTurn (s : State) : State := { s with turns := [.engine] }

/-- "aab" of a block whose OBUF holds 4 bytes, or the dictionary 257 entries. -/
def cramped : Params := ⟨16, 4, 257, 0x40000000⟩

theorem witness_EngineTurnRunsPending :
    (engineTurn busyBlk).turn = .engine ∧ (engineTurn busyBlk).engine = .busy 2#32 busyBlk.snapshot ∧
      decode 2#32 = .ok .lzwEncode := ⟨rfl, rfl, rfl⟩

/-- A block whose host is about to write `w` to CMD, the engine to move after it. -/
def commands (s : State) (w : Word) : State :=
  { s with host := [.write 4 (s.params.base + 0x008) w], turns := [.host, .engine] }

/-- RSV at its lowest and highest bit; the first and the last reserved OP. Pending; and about to be written. -/
theorem witness_IllegalWordCompletesWithBadCmd :
    ∀ w ∈ [0x00000010#32, 0x80000000#32, 0x00000008#32, 0x0000000E#32],
      (w.toNat / 16 ≠ 0 ∨ (8 ≤ w.toNat % 16 ∧ w.toNat % 16 ≤ 14)) ∧
      ((pending (blk tiny aab) w).turn = .engine ∧
        (pending (blk tiny aab) w).engine = .busy w ((blk tiny aab).accept w).snapshot) ∧
      ((commands (blk tiny aab) w).busy = false ∧ (commands (blk tiny aab) w).turns = [.host, .engine] ∧
        (commands (blk tiny aab) w).host = .write 4 (tiny.base + 0x008) w :: []) := by
  intro w hw
  refine ⟨?_, ⟨rfl, rfl⟩, rfl, rfl, rfl⟩
  revert w
  simp

theorem witness_NopCompletes :
    ((commands coded 0x00000000#32).busy = false ∧ (commands coded 0x00000000#32).turns = [.host, .engine] ∧
      (commands coded 0x00000000#32).host = .write 4 (coded.params.base + 0x008) 0x00000000#32 :: []) ∧
    ((0x00000010#32).toNat % 16 = 0 ∧ 0x00000010#32 ≠ 0x00000000#32) :=
  ⟨⟨by decide +kernel, rfl, rfl⟩, by decide⟩

theorem witness_IdleBlockKeepsItsState_engine : (engineTurn coded).turn = .engine ∧ (engineTurn coded).busy = false := by
  decide +kernel

theorem witness_IdleBlockKeepsItsState_host : (blk tiny aab).turn = .host ∧ (blk tiny aab).host = [] := by decide +kernel

theorem witness_HardwareResetValues : { busyBlk with turns := [.hwReset] }.turn = .hwReset := rfl

/-- The last words of IBUF and OBUF, and the highest byte offset of a word. -/
theorem witness_AddressMapNamesEveryPlace :
    tiny.wf = true ∧ Loc.Valid tiny (.ibuf 12) ∧ Loc.Valid tiny (.obuf 60) ∧ Loc.Valid tiny (.node 511#9 3#2) ∧ 3 < 4 :=
  ⟨by decide, by simp [Loc.Valid, tiny], by simp [Loc.Valid, tiny], trivial, by decide⟩

/-- While idle, and while BUSY. -/
theorem witness_CommandAcceptance :
    ((asksWrite coded 0x00B 0xFFFFFFFF#32).HostTurn (.write 4 (coded.params.base + (0x008 + 3)) 0xFFFFFFFF#32) [] ∧ 3 < 4 ∧
      (asksWrite coded 0x00B 0xFFFFFFFF#32).busy = false) ∧
    ((asksWrite busyBlk 0x008 3#32).HostTurn (.write 4 (busyBlk.params.base + (0x008 + 0)) 3#32) [] ∧
      (asksWrite busyBlk 0x008 3#32).busy = true) :=
  ⟨⟨⟨rfl, rfl⟩, by decide, by decide +kernel⟩, ⟨rfl, rfl⟩, rfl⟩

/-- Each of the three places; the last word of IBUF. -/
theorem witness_BusyWriteDropped :
    ∀ l ∈ [Loc.reg .cmd, .reg .inLen, .ibuf 12],
      tiny.wf = true ∧ Loc.Valid tiny l ∧ (l = .reg .cmd ∨ l = .reg .inLen ∨ ∃ j, l = .ibuf j) ∧
      (asksWrite busyBlk (l.offset + 3) 1#32).HostTurn (.write 4 (busyBlk.params.base + (l.offset + 3)) 1#32) [] ∧
      (asksWrite busyBlk (l.offset + 3) 1#32).busy = true := by
  intro l hl
  refine ⟨by decide, ?_, ?_, ⟨rfl, rfl⟩, rfl⟩ <;> simp only [List.mem_cons, List.not_mem_nil, or_false] at hl <;>
    rcases hl with rfl | rfl | rfl <;> simp [Loc.Valid, tiny]

theorem witness_StatusWriteClearsDoneAndHaz :
    (asksWrite busyBlk 0x00F 0x102#32).HostTurn (.write 4 (busyBlk.params.base + (0x00C + 3)) 0x102#32) [] ∧ 3 < 4 :=
  ⟨⟨rfl, rfl⟩, by decide⟩

theorem witness_InLenAndIrqEnWrites :
    ((asksWrite (blk tiny aab) 0x010 17#32).HostTurn (.write 4 (tiny.base + (0x010 + 0)) 17#32) [] ∧
      (asksWrite (blk tiny aab) 0x010 17#32).busy = false) ∧
    (asksWrite busyBlk 0x01C 1#32).HostTurn (.write 4 (tiny.base + (0x01C + 0)) 1#32) [] :=
  ⟨⟨⟨rfl, rfl⟩, by decide +kernel⟩, ⟨rfl, rfl⟩⟩

/-- The last word of IBUF: written while idle, written while BUSY, read. -/
theorem witness_IbufWindow :
    (tiny.wf = true ∧ 12 % 4 = 0 ∧ 12 < tiny.ibufBytes ∧ 3 < 4) ∧
    ((asksWrite (blk tiny aab) (0x100000 + 12 + 3) 5#32).HostTurn (.write 4 (tiny.base + (0x100000 + 12 + 3)) 5#32) [] ∧
      (asksWrite (blk tiny aab) (0x100000 + 12 + 3) 5#32).busy = false) ∧
    ((asksWrite busyBlk (0x100000 + 12 + 3) 5#32).HostTurn (.write 4 (tiny.base + (0x100000 + 12 + 3)) 5#32) [] ∧
      (asksWrite busyBlk (0x100000 + 12 + 3) 5#32).busy = true) ∧
    (asksRead busyBlk (0x100000 + 12 + 3)).HostTurn (.read 4 (tiny.base + (0x100000 + 12 + 3))) [] :=
  ⟨by decide, ⟨⟨rfl, rfl⟩, by decide +kernel⟩, ⟨⟨rfl, rfl⟩, rfl⟩, rfl, rfl⟩

theorem witness_ReadOnlyWriteIgnored :
    ∀ l ∈ [Loc.reg .outLen, .freq 0#8, .obuf 60, .reserved],
      tiny.wf = true ∧ Loc.Valid tiny l ∧
      (l ≠ .reg .cmd ∧ l ≠ .reg .status ∧ l ≠ .reg .inLen ∧ l ≠ .reg .irqEn ∧ ∀ j, l ≠ .ibuf j) ∧
      (asksWrite coded l.offset 5#32).HostTurn (.write 4 (coded.params.base + l.offset) 5#32) [] := by
  intro l hl
  refine ⟨by decide, ?_, ?_, ⟨rfl, rfl⟩⟩ <;> simp only [List.mem_cons, List.not_mem_nil, or_false] at hl <;>
    rcases hl with rfl | rfl | rfl | rfl <;> simp [Loc.Valid, tiny]

/-- Both ends of each reserved range of R60, read and written. -/
theorem witness_ReservedSpaceReadsZero :
    ∀ off ∈ [0x3C, 0x3FF, 0xC00, 0x1FFF, 0x6000, 0xFFFFF, 0x100010, 0x1FFFFF, 0x200040, 0x3FFFFF],
      tiny.wf = true ∧ reservedOffset tiny off ∧
      (asksRead coded off).HostTurn (.read 4 (coded.params.base + off)) [] ∧
      (asksWrite coded off 5#32).HostTurn (.write 4 (coded.params.base + off) 5#32) [] := by
  intro off h
  refine ⟨by decide, ?_, ⟨rfl, rfl⟩, ⟨rfl, rfl⟩⟩
  revert off
  simp [reservedOffset, tiny]

/-- A read of a result location while BUSY; a poll that sees DONE = 1, and one that sees DONE = 0. -/
theorem witness_HostReadHasNoSideEffect :
    ((asksRead busyBlk 0x200000).HostTurn (.read 4 (busyBlk.params.base + 0x200000)) [] ∧
      ∃ t, step (asksRead busyBlk 0x200000) = .next t) ∧
    ((asks coded .wait).HostTurn .wait [] ∧
      (statusWord (asks coded .wait).busy (asks coded .wait).status).getLsbD 1 = true) ∧
    ((asks busyBlk .wait).HostTurn .wait [] ∧
      (statusWord (asks busyBlk .wait).busy (asks busyBlk .wait).status).getLsbD 1 = false) :=
  ⟨⟨⟨rfl, rfl⟩, _, rfl⟩, ⟨⟨rfl, rfl⟩, by decide +kernel⟩, ⟨rfl, rfl⟩, by decide +kernel⟩

/-- A result location while BUSY; one while idle; a place that is no result location while BUSY. -/
theorem witness_ReadsWhileBusy :
    (tiny.wf = true ∧ Loc.Valid tiny (.obuf 60) ∧ 3 < 4) ∧
    ((asksRead busyBlk (0x200000 + 60 + 3)).HostTurn (.read 4 (tiny.base + (0x200000 + 60 + 3))) [] ∧ busyBlk.busy = true ∧
      (Loc.obuf 60).isResult = true) ∧
    ((asksRead coded (0x200000 + 60 + 3)).HostTurn (.read 4 (tiny.base + (0x200000 + 60 + 3))) [] ∧ coded.busy = false) ∧
    ((asksRead busyBlk 0x010).HostTurn (.read 4 (tiny.base + 0x010)) [] ∧ (Loc.reg .inLen).isResult = false) ∧ 3 < 4 :=
  ⟨⟨by decide, by simp [Loc.Valid, tiny], by decide⟩, ⟨⟨rfl, rfl⟩, rfl, rfl⟩, ⟨⟨by decide +kernel, rfl⟩, by decide +kernel⟩,
    ⟨⟨rfl, rfl⟩, rfl⟩, by decide⟩

theorem witness_ConstantRegistersRead :
    ∀ off ∈ [0x000, 0x004, 0x030, 0x034, 0x038],
      tiny.wf = true ∧ (asksRead busyBlk off).HostTurn (.read 4 (busyBlk.params.base + off)) [] ∧
      ∃ t, step (asksRead busyBlk off) = .next t := by
  intro off h
  refine ⟨by decide, ⟨rfl, rfl⟩, ?_⟩
  simp only [List.mem_cons, List.not_mem_nil, or_false] at h
  rcases h with rfl | rfl | rfl | rfl | rfl <;> exact ⟨_, rfl⟩

/-- A leaf, an internal node, and the first entry past HUF_NNODES. -/
theorem witness_HuffmanWindowsRead :
    ((1#9).toNat < coded.own.huf.nnodes.toNat ∧ coded.own.huf.arena[(1#9).toNat]? = some ⟨1#32, .leaf 0x62#8⟩) ∧
    ((2#9).toNat < coded.own.huf.nnodes.toNat ∧ coded.own.huf.arena[(2#9).toNat]? = some ⟨3#32, .internal 1#9 0#9⟩) ∧
    coded.own.huf.nnodes.toNat ≤ (3#9).toNat := by decide +kernel

/-- A wrong width; the last address below the block and the first above; the first and the last inside. -/
theorem witness_AccessesOutsideTheInterfaceStop :
    ((asks coded (.write 2 tiny.base 0#32)).HostTurn (.write 2 tiny.base 0#32) [] ∧ 2 ≠ 4) ∧
    ((asks coded (.read 4 (tiny.base - 1))).HostTurn (.read 4 (tiny.base - 1)) [] ∧ tiny.base - 1 < tiny.base) ∧
    ((asks coded (.read 4 (tiny.base + 2 ^ 22))).HostTurn (.read 4 (tiny.base + 2 ^ 22)) []) ∧
    ((asks coded (.read 4 tiny.base)).HostTurn (.read 4 tiny.base) []) ∧
    ((asks coded (.read 4 (tiny.base + 2 ^ 22 - 1))).HostTurn (.read 4 (tiny.base + 2 ^ 22 - 1)) []) :=
  ⟨⟨⟨rfl, rfl⟩, by decide⟩, ⟨⟨rfl, rfl⟩, by decide⟩, ⟨rfl, rfl⟩, ⟨rfl, rfl⟩, ⟨rfl, rfl⟩⟩

theorem witness_IrqFollowsDoneAndEnable :
    ((engineTurn busyBlk).turn = .engine ∧ (engineTurn busyBlk).busy = true ∧ ∃ t, step (engineTurn busyBlk) = .next t) ∧
    ((asksWrite coded 0x01C 1#32).HostTurn (.write 4 (coded.params.base + 0x01C) 1#32) [] ∧
      ∃ t, step (asksWrite coded 0x01C 1#32) = .next t) ∧
    ((asksWrite coded 0x00C 2#32).HostTurn (.write 4 (coded.params.base + 0x00C) 2#32) [] ∧ (2#32).getLsbD 1 = true ∧
      ∃ t, step (asksWrite coded 0x00C 2#32) = .next t) ∧
    ((asksWrite coded 0x008 0#32).HostTurn (.write 4 (coded.params.base + 0x008) 0#32) [] ∧ coded.busy = false ∧
      ∃ t, step (asksWrite coded 0x008 0#32) = .next t) ∧
    ({ coded with turns := [.hwReset] }.turn = .hwReset ∧ ∃ t, step { coded with turns := [.hwReset] } = .next t) :=
  ⟨⟨rfl, rfl, _, rfl⟩, ⟨⟨rfl, rfl⟩, _, rfl⟩, ⟨⟨rfl, rfl⟩, rfl, _, rfl⟩, ⟨⟨rfl, rfl⟩, by decide +kernel, _, rfl⟩, rfl, _, rfl⟩

theorem witness_LoadGivesTheInput :
    let s := { blk tiny [] with host := (Stmt.load runsInput).ops tiny.base }
    s.params.wf = true ∧ runsInput.length ≤ s.params.ibufBytes ∧ s.busy = false ∧ s.turns = [] ∧
      s.host = (Stmt.load runsInput).ops s.params.base := by decide +kernel

/-- IN_LEN one past IBUF_BYTES, for each of the five; a command that makes no check there; and IN_LEN = IBUF_BYTES. -/
theorem witness_InputLengthCheck :
    (∀ i ∈ [Instr.hufFreq, .hufPack, .hufEncode, .lzwEncode, .rleEncode],
      (i = .hufFreq ∨ i = .hufPack ∨ i = .hufEncode ∨ i = .lzwEncode ∨ i = .rleEncode) ∧
      tiny.ibufBytes < ({ blk tiny [] with inLen := 17#32 }).inLen.toNat) ∧
    (∀ i ∈ [Instr.nop, .hufTree, .hufCodes, .softReset],
      (i = .nop ∨ i = .hufTree ∨ i = .hufCodes ∨ i = .softReset ∨
        ({ blk tiny [] with inLen := 17#32 }).inLen.toNat ≤ tiny.ibufBytes) ∧
      ({ blk tiny [] with inLen := 17#32 }).status.error = none) ∧
    ({ blk tiny [] with inLen := 16#32 }).inLen.toNat ≤ tiny.ibufBytes := by decide +kernel

/-- A legal input length, IBUF_BYTES itself and 0 among them: the hypothesis of HufFreqCounts. -/
theorem witness_HufFreqCounts :
    ∀ input ∈ [[], aab, List.replicate 16 0x61#8],
      (blk tiny input).inLen.toNat ≤ (blk tiny input).params.ibufBytes := by decide +kernel

/-- H3: the counts of "aab". -/
def aabCounts : Huffman :=
  { Huffman.reset with
    freq := ((Vector.replicate 256 0#32).set 0x61 2#32).set 0x62 1#32, order := [0x61, 0x62], nsym := 2#32 }

/-- T6: the tree of "aab". -/
def aabTree : Huffman :=
  { aabCounts with
    arena := [⟨2#32, .leaf 0x61⟩, ⟨1#32, .leaf 0x62⟩, ⟨3#32, .internal 1#9 0#9⟩], nnodes := 3#32, root := 2#32 }

/-- A block whose Huffman state is `h`. -/
def withHuf (h : Huffman) : State := { blk tiny aab with own := { (blk tiny aab).own with huf := h } }

theorem countsOk_aabCounts : aabCounts.CountsOk := by constructor <;> decide +kernel

theorem countsOk_aabTree : aabTree.CountsOk := ⟨countsOk_aabCounts.nsym, countsOk_aabCounts.nodup, countsOk_aabCounts.counted,
  countsOk_aabCounts.bounded⟩

theorem countsOk_reset : Huffman.reset.CountsOk := by constructor <;> decide +kernel

theorem treeCurrent_aabTree : aabTree.TreeCurrent := by refine ⟨?_, ?_, ?_⟩ <;> decide +kernel

/-- Counts of two symbols, and of none. -/
theorem witness_HufTreeShape :
    ((withHuf aabCounts).own.huf.CountsOk ∧ aabCounts.order ≠ []) ∧
    ((withHuf Huffman.reset).own.huf.CountsOk ∧ Huffman.reset.order = []) :=
  ⟨⟨countsOk_aabCounts, by decide⟩, countsOk_reset, rfl⟩

theorem witness_HufTreeSelectsLeast :
    (withHuf aabCounts).own.huf.CountsOk ∧ exec .hufTree (withHuf aabCounts) = .next (leaves .hufTree (withHuf aabCounts)) :=
  ⟨countsOk_aabCounts, exec_leaves _ _⟩

/-- With a current tree, and with none. -/
theorem witness_HufCodesArePaths :
    ((withHuf aabTree).own.huf.CountsOk ∧ (withHuf aabTree).own.huf.order ≠ [] ∧ (withHuf aabTree).own.huf.TreeCurrent) ∧
    ((withHuf aabCounts).own.huf.CountsOk ∧ (withHuf aabCounts).own.huf.root = 0xFFFFFFFF#32) :=
  ⟨⟨countsOk_aabTree, by decide, treeCurrent_aabTree⟩, countsOk_aabCounts, rfl⟩

theorem witness_HufPackConcatenatesCodes :
    coded.params.wf = true ∧ coded.inLen.toNat ≤ coded.params.ibufBytes ∧
    (∀ b ∈ coded.snapshot.input, (coded.own.huf.codeOf b).valid = true) ∧
    packedLength coded.own.huf coded.snapshot.input ≤ 8 * coded.params.obufBytes := by decide +kernel

/-- "aab" coded in a block with room for 32 bits of output; 33 one-bit symbols do not fit. -/
def codedCramped : State :=
  let s := ran .hufCodes (ran .hufTree (ran .hufFreq (blk ⟨64, 4, 257, 0x40000000⟩ aab)))
  { s with ibuf := Buffer.writeList ⟨[], 0⟩ 0 (List.replicate 33 0x61#8), inLen := 33#32 }

/-- Byte 2 of "abc" without a code; byte 32 of 33 one-bit symbols, which does not fit in 32 bits. -/
theorem witness_HufPackStopsAtFirstFailingByte :
    (let s := { coded with ibuf := Buffer.writeList ⟨[], 0⟩ 0 [0x61, 0x62, 0x63] }
     s.params.wf = true ∧ s.inLen.toNat ≤ s.params.ibufBytes ∧ s.snapshot.input[2]? = some 0x63#8 ∧
      (∀ c ∈ s.snapshot.input.take 2, (s.own.huf.codeOf c).valid = true) ∧
      packedLength s.own.huf (s.snapshot.input.take 2) ≤ 8 * s.params.obufBytes ∧
      (s.own.huf.codeOf 0x63#8).valid = false) ∧
    (let s := codedCramped
     s.params.wf = true ∧ s.inLen.toNat ≤ s.params.ibufBytes ∧ s.snapshot.input[32]? = some 0x61#8 ∧
      (∀ c ∈ s.snapshot.input.take 32, (s.own.huf.codeOf c).valid = true) ∧
      packedLength s.own.huf (s.snapshot.input.take 32) ≤ 8 * s.params.obufBytes ∧
      8 * s.params.obufBytes < packedLength s.own.huf (s.snapshot.input.take 32) + (s.own.huf.codeOf 0x61#8).len.toNat) := by
  decide +kernel

theorem witness_HufEncodeIsTheChain :
    let s := blk tiny aab
    s.inLen.toNat ≤ s.params.ibufBytes ∧ ∃ a b c d t,
      exec .hufFreq (s.accept (encode .hufFreq)) = .next a ∧ exec .hufTree (a.accept (encode .hufTree)) = .next b ∧
      exec .hufCodes (b.accept (encode .hufCodes)) = .next c ∧ exec .hufPack (c.accept (encode .hufPack)) = .next d ∧
      exec .hufEncode (s.accept (encode .hufEncode)) = .next t :=
  ⟨by decide +kernel, _, _, _, _, _, exec_leaves _ _, exec_leaves _ _, exec_leaves _ _, exec_leaves _ _, exec_leaves _ _⟩

/-- HUF_PACK and HUF_ENCODE without an error; an input whose codes fit. -/
theorem witness_HuffmanOutputLength :
    (tiny.wf = true ∧ coded.params = tiny ∧ (blk tiny runsInput).params = tiny) ∧
    (exec .hufPack coded = .next (leaves .hufPack coded) ∧ coded.status.error = none ∧
      (leaves .hufPack coded).status.error = none) ∧
    (exec .hufEncode (blk tiny runsInput) = .next (leaves .hufEncode (blk tiny runsInput)) ∧
      (blk tiny runsInput).status.error = none ∧ (leaves .hufEncode (blk tiny runsInput)).status.error = none) ∧
    ((blk tiny runsInput).inLen.toNat ≤ tiny.ibufBytes ∧
      packedLength (leaves .hufEncode (blk tiny runsInput)).own.huf (blk tiny runsInput).snapshot.input ≤ 8 * tiny.obufBytes) :=
  ⟨by decide +kernel, ⟨rfl, by decide +kernel⟩, ⟨rfl, by decide +kernel⟩, by decide +kernel⟩

theorem witness_HuffmanCodesArePrefixFree :
    let s := blk tiny runsInput
    let t := leaves .hufEncode s
    s.params.wf = true ∧ s.inLen.toNat ≤ s.params.ibufBytes ∧ exec .hufEncode s = .next t ∧ 2 ≤ t.own.huf.order.length ∧
      (t.own.huf.codeOf 0x61#8).valid = true ∧ (t.own.huf.codeOf 0x62#8).valid = true :=
  ⟨by decide, by decide +kernel, exec_leaves _ _, by decide +kernel, by decide +kernel, by decide +kernel⟩

theorem witness_HuffmanRoundTrip :
    let s := blk tiny runsInput
    let t := leaves .hufEncode s
    s.params.wf = true ∧ s.inLen.toNat ≤ s.params.ibufBytes ∧ s.status.error = none ∧ exec .hufEncode s = .next t ∧
      t.status.error = none ∧ 2 ≤ t.own.huf.order.length :=
  ⟨by decide, by decide +kernel, rfl, exec_leaves _ _, by decide +kernel, by decide +kernel⟩

theorem witness_HufEncodeOfEmptyInput : (blk tiny []).inLen = 0#32 := rfl

/-- n + 1 copies, for n = 0 and n = 3. -/
theorem witness_HufEncodeOfOneSymbol :
    ∀ n ∈ [0, 3],
      let s := blk tiny (List.replicate (n + 1) 0x61#8)
      s.params.wf = true ∧ s.inLen.toNat ≤ s.params.ibufBytes ∧ s.snapshot.input = List.replicate (n + 1) 0x61#8 := by
  decide +kernel

theorem witness_LzwRefinesStringEncoder :
    let s := blk tiny aaaa
    s.params.wf = true ∧ s.inLen.toNat ≤ s.params.ibufBytes ∧
      4 * (lzwOutput s.snapshot.input).length ≤ s.params.obufBytes ∧
      256 + ((lzwOutput s.snapshot.input).length - 1) ≤ s.params.dictCap := by decide +kernel

/-- Z15 with OBUF_BYTES = 8: the third code does not fit; Z12 with DICT_CAP = 256: the first entry does not. -/
theorem witness_LzwStopsAtFirstFailingUnit :
    (let s := blk ⟨16, 8, 272, 0⟩ aaaa
     s.params.wf = true ∧ s.inLen.toNat ≤ s.params.ibufBytes ∧ (lzwOutput s.snapshot.input)[2]? = some (97, 4) ∧
      4 * 2 = s.params.obufBytes ∧ 256 + 2 ≤ s.params.dictCap) ∧
    (let s := blk ⟨16, 64, 256, 0⟩ [0x61, 0x62]
     s.params.wf = true ∧ s.inLen.toNat ≤ s.params.ibufBytes ∧ (lzwOutput s.snapshot.input)[0]? = some (97, 1) ∧
      256 + 0 = s.params.dictCap ∧ 4 * (0 + 1) ≤ s.params.obufBytes ∧ 0 + 1 < (lzwOutput s.snapshot.input).length) := by
  decide +kernel

theorem witness_LzwHasNoForwardReferences :
    let s := blk tiny aaaa
    let t := leaves .lzwEncode s
    s.params.wf = true ∧ s.inLen.toNat ≤ s.params.ibufBytes ∧ exec .lzwEncode s = .next t ∧
      (wordsOf t.own.obuf t.own.outLen.toNat)[1]? = some 256#32 :=
  ⟨by decide, by decide +kernel, exec_leaves _ _, by decide +kernel⟩

/-- A nonempty input and the empty one. -/
theorem witness_LzwOutputSize :
    ∀ input ∈ [aaaa, []],
      let s := blk tiny input
      s.params.wf = true ∧ s.inLen.toNat ≤ s.params.ibufBytes ∧ 4 * s.params.ibufBytes ≤ s.params.obufBytes ∧
        255 + s.params.ibufBytes ≤ s.params.dictCap ∧ (s.inLen ≠ 0#32 ∨ s.inLen = 0#32) := by decide +kernel

theorem witness_RleWritesTheRuns :
    let s := blk tiny runsInput
    s.params.wf = true ∧ s.inLen.toNat ≤ s.params.ibufBytes ∧
      (runsText (runsOf s.snapshot.input)).length ≤ s.params.obufBytes := by decide +kernel

/-- R-10: OBUF_BYTES = 4, the run (c, 4). -/
theorem witness_RleStopsAtFirstFailingRun :
    let s := blk cramped runsInput
    s.params.wf = true ∧ s.inLen.toNat ≤ s.params.ibufBytes ∧ (runsOf s.snapshot.input)[2]? = some (0x63#8, 4) ∧
      (runsText ((runsOf s.snapshot.input).take 2)).length ≤ s.params.obufBytes ∧
      s.params.obufBytes < (runsText ((runsOf s.snapshot.input).take 2)).length + (runText (0x63#8, 4)).length := by
  decide +kernel

theorem witness_RleOutputSize :
    let s := blk tiny [0x61, 0x62, 0x63]
    s.params.wf = true ∧ s.inLen.toNat ≤ s.params.ibufBytes ∧ 2 * s.params.ibufBytes ≤ s.params.obufBytes ∧
      (∀ r ∈ runsOf s.snapshot.input, r.2 = 1) := by decide +kernel

theorem witness_EncodersKeepToThemselves (i : Instr) : exec i (engineTurn busyBlk) = .next (leaves i (engineTurn busyBlk)) :=
  exec_leaves _ _

/-- The byte just past the output of each output command. -/
theorem witness_OutputStaysInItsRange :
    tiny.wf = true ∧
    (exec .hufEncode (blk tiny runsInput) = .next (leaves .hufEncode (blk tiny runsInput)) ∧
      bytesForBits (leaves .hufEncode (blk tiny runsInput)).own.outLen.toNat ≤ 2) ∧
    (exec .hufPack coded = .next (leaves .hufPack coded) ∧ bytesForBits (leaves .hufPack coded).own.outLen.toNat ≤ 1) ∧
    (exec .lzwEncode (blk tiny aaaa) = .next (leaves .lzwEncode (blk tiny aaaa)) ∧
      4 * (leaves .lzwEncode (blk tiny aaaa)).own.outLen.toNat ≤ 12) ∧
    (exec .rleEncode (blk tiny runsInput) = .next (leaves .rleEncode (blk tiny runsInput)) ∧
      (leaves .rleEncode (blk tiny runsInput)).own.outLen.toNat ≤ 8) :=
  ⟨by decide, ⟨rfl, by decide +kernel⟩, ⟨rfl, by decide +kernel⟩, ⟨rfl, by decide +kernel⟩, rfl, by decide +kernel⟩

/-- Each error, raised. -/
theorem witness_ErrorsOfEachCommand :
    (leaves .hufFreq { blk tiny [] with inLen := 17#32 }).status.error = some .len ∧
    (leaves .rleEncode (blk cramped runsInput)).status.error = some .obufOvf ∧
    (leaves .lzwEncode (blk ⟨16, 64, 256, 0⟩ [0x61, 0x62])).status.error = some .dictFull ∧
    (leaves .hufPack (blk tiny aab)).status.error = some .noCode ∧
    (blk tiny aab).params.wf = true ∧ (blk tiny aab).status.error = none := by decide +kernel

/-- The busy block meets the invariant. -/
theorem inv_busyBlk : busyBlk.Inv where
  buffers := ⟨by decide, by decide, by decide⟩
  control := ⟨by intro w x h; cases h; exact ⟨rfl, rfl⟩, by decide, by decide, by decide⟩
  huffman :=
    { toCountsOk := countsOk_reset, work := rfl
      tree := .inl ⟨rfl, rfl, rfl⟩, codes := .inl rfl }
  lzw := ⟨.inl ⟨rfl, rfl⟩, by decide, by intro k e h; simp [busyBlk, State.accept, blk, State.resetWith, Owned.reset] at h,
    by decide⟩

theorem step_busyBlk : ∃ t, step (engineTurn busyBlk) = .next t := ⟨_, rfl⟩

/-- The hypotheses of the statements that a step keeps a part of the invariant. -/
theorem witness_StepKeepsBuffers : busyBlk.BuffersOk ∧ ∃ t, step busyBlk = .next t := ⟨inv_busyBlk.buffers, _, rfl⟩

theorem witness_StepKeepsControl : busyBlk.ControlOk ∧ ∃ t, step busyBlk = .next t := ⟨inv_busyBlk.control, _, rfl⟩

theorem witness_StepKeepsHuffmanChain : busyBlk.params.wf = true ∧ busyBlk.own.huf.ChainOk ∧ ∃ t, step busyBlk = .next t :=
  ⟨by decide, inv_busyBlk.huffman, _, rfl⟩

theorem witness_StepKeepsDictionary :
    busyBlk.params.wf = true ∧ busyBlk.own.lzw.DictOk busyBlk.params.dictCap ∧ ∃ t, step busyBlk = .next t :=
  ⟨by decide, inv_busyBlk.lzw, _, rfl⟩

theorem witness_BusyFreezesTheInput :
    let s := asksWrite busyBlk 0x100000 0#32
    s.busy = true ∧ s.turn = .host ∧ ∃ t, step s = .next t := ⟨rfl, rfl, _, rfl⟩

/-- The completion at once, and after one dropped host write. -/
theorem witness_ResultIndependentOfDelay :
    let s := asksWrite busyBlk 0x010 2#32
    s.busy = true ∧ (∃ t, step { s with turns := [.engine] } = .next t) ∧
      ∃ u, core.run (1 + 1) { s with turns := List.replicate 1 .host ++ [.engine] } = .next u := ⟨rfl, ⟨_, rfl⟩, _, rfl⟩

/-- A host with an access, a poll and another command to make, under a schedule that holds the engine back. -/
theorem witness_EveryCommandCompletes :
    ({ busyBlk with host := [.read 4 (tiny.base + 0x3FFFFF), .wait, .write 4 (tiny.base + 8) 3#32],
                    turns := [.host, .host] } : State).HostLegal := by decide +kernel

theorem witness_LegalHostNeverStopsTheMachine : (asksWrite busyBlk 0x3FFFFF 2#32).HostLegal := by decide +kernel

/-- HAZ cleared by a write to STATUS, by SOFT_RESET and by hardware reset; set by a dropped write. -/
theorem witness_HazIsSticky :
    (let s := { asksWrite busyBlk 0x00C 0x100#32 with status := { busyBlk.status with haz := true } }
     step s = .next (after s) ∧ s.status.haz = true ∧ (after s).status.haz = false) ∧
    (let s := { pending (blk tiny []) 0xF#32 with status := ⟨false, none, true, 15#4⟩ }
     step s = .next (after s) ∧ s.status.haz = true ∧ (after s).status.haz = false) ∧
    (let s := { busyBlk with status := { busyBlk.status with haz := true }, turns := [.hwReset] }
     step s = .next (after s) ∧ s.status.haz = true ∧ (after s).status.haz = false) ∧
    (let s := asksWrite busyBlk 0x010 2#32
     step s = .next (after s) ∧ s.status.haz = false ∧ (after s).status.haz = true) := by
  refine ⟨⟨rfl, ?_⟩, ⟨rfl, ?_⟩, ⟨rfl, ?_⟩, ⟨rfl, ?_⟩⟩ <;> decide +kernel

/-- An acceptance, a completion, a hardware reset. -/
theorem witness_EngineMovesByAcceptanceAndCompletion :
    (let s := asksWrite (blk tiny aaaa) 0x008 2#32
     step s = .next (after s) ∧ s.busy = false ∧ (after s).busy = true) ∧
    (step (engineTurn busyBlk) = .next (after (engineTurn busyBlk)) ∧ (after (engineTurn busyBlk)).busy = false) ∧
    (let s := { busyBlk with turns := [.hwReset] }
     step s = .next (after s) ∧ s.busy = true ∧ (after s).busy = false) := by
  refine ⟨⟨rfl, ?_⟩, ⟨rfl, ?_⟩, ⟨rfl, ?_⟩⟩ <;> decide +kernel

end Sys2Proof.Tests
end

section
/-! PROOFS. Every step keeps the parameters, and IBUF and OBUF in canonical form within their sizes (R6, R55, R66, R67). -/

namespace Sys2Proof.Machine

/-! ### Parameters (R6) -/

/-- The constraints of R6 on the buffers' sizes, as arithmetic facts. -/
theorem Params.bufferSizes_of_wf {p : Params} (hp : p.wf = true) :
    p.ibufBytes % 4 = 0 ∧ p.ibufBytes ≤ 2 ^ 20 ∧ p.obufBytes % 4 = 0 ∧ p.obufBytes ≤ 2 ^ 21 := by
  simp only [Params.wf, Bool.and_eq_true, beq_iff_eq, decide_eq_true_eq] at hp
  omega

/-- A host write changes no parameter. -/
@[simp] theorem State.writeLoc_params (s : State) (v : Word) (l : Loc) : (s.writeLoc v l).params = s.params := by
  rcases s.writeLoc_cases v l with h | ⟨_, _, h⟩ | ⟨_, _, h⟩ | ⟨_, h⟩ | ⟨_, _, h⟩ | ⟨_, h⟩ | ⟨_, _, _, h⟩ <;> simp [h]

/-- The host's turn changes no parameter. -/
theorem hostStep_params {s t : State} (h : hostStep s = .next t) : t.params = s.params := by
  rcases hostStep_next h with ⟨-, rfl⟩ | ⟨_, _, _, _, _, _, rfl⟩ | ⟨_, _, _, _, _, rfl⟩ | ⟨_, _, rfl⟩ <;> simp

/-- No instruction changes a parameter. -/
theorem exec_params {i : Instr} {s t : State} (h : exec i s = .next t) : t.params = s.params := by
  rw [exec_eq] at h
  cases h
  split <;> simp

/-- R6: no step changes a parameter. -/
theorem step_params {s t : State} (h : step s = .next t) : t.params = s.params := by
  rcases step_next h with ⟨-, hhost⟩ | ⟨-, -, rfl⟩ | ⟨-, _, _, _, -, -, hexec⟩ | ⟨-, _, _, _, -, -, rfl⟩ | ⟨-, rfl⟩
  · exact (hostStep_params hhost).trans s.takeTurn_params
  · rfl
  · exact (exec_params hexec).trans s.takeTurn_params
  · simp
  · rfl

/-! ### OBUF through the commands (R67)

A command checks that its next output fits before it writes any of it, so every byte it writes lies inside OBUF. -/

/-- A bit of output inside OBUF keeps OBUF canonical (R139). -/
theorem Owned.putBit_obuf_wf {n : Nat} {o : Owned} (ho : Buffer.Wf n o.obuf) (hfit : o.outLen.toNat < 8 * n) (d : Bool) :
    Buffer.Wf n (o.putBit d).obuf := by
  have hbyte : o.outLen.toNat / 8 < n := by omega
  simp only [Owned.putBit]
  split
  · exact Buffer.wf_write (Buffer.wf_write ho hbyte _) hbyte _
  · exact Buffer.wf_write ho hbyte _

/-- The bits of a code that fits keep OBUF canonical. OUT_LEN counts in 32 bits, which the size of OBUF must leave room for. -/
theorem Owned.putBits_obuf_wf {n : Nat} (hn : 8 * n < 2 ^ 32) {o : Owned} (bits : List Bool) (ho : Buffer.Wf n o.obuf)
    (hfit : o.outLen.toNat + bits.length ≤ 8 * n) : Buffer.Wf n (o.putBits bits).obuf := by
  induction bits generalizing o with
  | nil => exact ho
  | cons d ds ih =>
    rw [List.length_cons] at hfit
    have hlen : (o.putBit d).outLen.toNat = o.outLen.toNat + 1 := by
      rw [Owned.putBit_frame, BitVec.toNat_add, BitVec.toNat_ofNat]; omega
    exact ih (Owned.putBit_obuf_wf ho (by omega) d) (by omega)

/-- Pack's loop keeps OBUF canonical, whatever its outcome (R139). -/
theorem packLoop_obuf_wf {p : Params} (hp : 8 * p.obufBytes < 2 ^ 32) (input : List Byte) (i : Nat) {o : Owned}
    (ho : Buffer.Wf p.obufBytes o.obuf) : Buffer.Wf p.obufBytes (packLoop p input i o).own.obuf := by
  induction input generalizing i o with
  | nil => exact ho
  | cons b bs ih =>
    simp only [packLoop]
    split
    · exact ho
    · split
      · exact ho
      · next hfit =>
        exact ih (i + 1) (Owned.putBits_obuf_wf hp _ ho (by rw [CodeEntry.bits_length]; exact Nat.not_lt.mp hfit))

/-- A code word that fits keeps OBUF canonical (R175). -/
theorem Owned.emitCode_obuf_wf {p : Params} {o : Owned} (ho : Buffer.Wf p.obufBytes o.obuf)
    (hfit : ¬ o.codeOverflows p = true) (c : Word) : Buffer.Wf p.obufBytes (o.emitCode c).obuf := by
  simp only [Owned.codeOverflows, decide_eq_true_eq] at hfit
  exact Buffer.wf_writeWord ho (by omega) c

/-- LzwLoop keeps OBUF canonical, whatever its outcome (R174). -/
theorem lzwLoop_obuf_wf {p : Params} (input : List Byte) (i : Nat) {o : Owned} (ho : Buffer.Wf p.obufBytes o.obuf) :
    Buffer.Wf p.obufBytes (lzwLoop p input i o).own.obuf := by
  induction input generalizing i o with
  | nil =>
    simp only [lzwLoop]
    split
    · exact ho
    · split
      · exact ho
      · exact Owned.emitCode_obuf_wf ho ‹_› _
  | cons b bs ih =>
    simp only [lzwLoop]
    split
    · exact ih (i + 1) ho
    · split
      · exact ih (i + 1) ho
      · split
        · exact ho
        · have hemit := Owned.emitCode_obuf_wf ho ‹_› ‹Word›
          split
          · exact hemit
          · exact ih (i + 1) hemit

/-- The bytes of a run that fit keep OBUF canonical (R192). -/
theorem Owned.emitRun_obuf_wf {p : Params} {o : Owned} (ho : Buffer.Wf p.obufBytes o.obuf)
    (hfit : ¬ o.runOverflows p = true) : Buffer.Wf p.obufBytes o.emitRun.obuf := by
  simp only [Owned.runOverflows, decide_eq_true_eq] at hfit
  exact Buffer.wf_writeList ho _ _ (by omega)

/-- RleLoop keeps OBUF canonical, whatever its outcome (R191). -/
theorem rleLoop_obuf_wf {p : Params} (input : List Byte) (i : Nat) {o : Owned} (ho : Buffer.Wf p.obufBytes o.obuf) :
    Buffer.Wf p.obufBytes (rleLoop p input i o).own.obuf := by
  induction input generalizing i o with
  | nil =>
    simp only [rleLoop]
    split
    · exact ho
    · exact Owned.emitRun_obuf_wf ho ‹_›
  | cons b bs ih =>
    simp only [rleLoop]
    split
    · exact ih (i + 1) ho
    · split
      · exact ho
      · exact ih (i + 1) (Owned.emitRun_obuf_wf ho ‹_›)

/-- The body of RLE_ENCODE keeps OBUF canonical (R194). -/
theorem rleEncodeBody_obuf_wf {p : Params} (input : List Byte) {o : Owned} (ho : Buffer.Wf p.obufBytes o.obuf) :
    Buffer.Wf p.obufBytes (rleEncodeBody p input o).own.obuf := by
  cases input with
  | nil => exact ho
  | cons b bs => exact rleLoop_obuf_wf bs 1 ho

/-- A command that checks its input length leaves OBUF canonical if its body does (R113). -/
theorem checkLen_obuf_wf {n : Nat} {p : Params} {x : Snapshot} {body : Result} (hx : Buffer.Wf n x.own.obuf)
    (hbody : Buffer.Wf n body.own.obuf) : Buffer.Wf n (checkLen p x body).own.obuf := by
  rcases Nat.lt_or_ge p.ibufBytes x.inLen.toNat with h | h
  · rw [checkLen_raise h]; exact hx
  · rw [checkLen_pass h]; exact hbody

/-- Every command keeps OBUF canonical, whatever its outcome. -/
theorem resultOf_obuf_wf {p : Params} (hp : p.wf = true) {x : Snapshot} (hx : Buffer.Wf p.obufBytes x.own.obuf)
    (i : Instr) : Buffer.Wf p.obufBytes (resultOf p x i).own.obuf := by
  have hbits : 8 * p.obufBytes < 2 ^ 32 := by
    obtain ⟨-, -, -, hle⟩ := Params.bufferSizes_of_wf hp
    omega
  cases i with
  | nop | hufTree | hufCodes | softReset => exact hx
  | hufFreq => exact checkLen_obuf_wf hx hx
  | hufEncode | hufPack => exact checkLen_obuf_wf hx (packLoop_obuf_wf hbits _ _ hx)
  | lzwEncode => exact checkLen_obuf_wf hx (lzwLoop_obuf_wf _ _ hx)
  | rleEncode => exact checkLen_obuf_wf hx (rleEncodeBody_obuf_wf _ hx)

/-! ### The invariant through a step -/

/-- An aligned word that begins inside IBUF ends inside it (R66). -/
theorem locAt_ibuf_word_fits {p : Params} (hp : p.wf = true) {off j : Nat} (h : locAt p off = .ibuf j) :
    j + 4 ≤ p.ibufBytes := by
  obtain ⟨halign, hlt⟩ := locAt_eq_ibuf h
  obtain ⟨hsize, -, -, -⟩ := Params.bufferSizes_of_wf hp
  omega

/-- A host write never touches OBUF (R67). -/
@[simp] theorem State.writeLoc_obuf (s : State) (v : Word) (l : Loc) : (s.writeLoc v l).own.obuf = s.own.obuf := by
  rcases s.writeLoc_cases v l with h | ⟨_, _, h⟩ | ⟨_, _, h⟩ | ⟨_, h⟩ | ⟨_, _, h⟩ | ⟨_, h⟩ | ⟨_, _, _, h⟩ <;> simp [h]

/-- A host write leaves IBUF as it is, or puts its word at the IBUF place it names (R66). -/
theorem State.writeLoc_ibuf_cases (s : State) (v : Word) (l : Loc) :
    (s.writeLoc v l).ibuf = s.ibuf ∨ ∃ j, l = .ibuf j ∧ (s.writeLoc v l).ibuf = s.ibuf.writeWord j v := by
  rcases s.writeLoc_cases v l with h | ⟨_, _, h⟩ | ⟨_, _, h⟩ | ⟨_, h⟩ | ⟨_, _, h⟩ | ⟨_, h⟩ | ⟨_, _, rfl, h⟩ <;>
    simp [h]

/-- A host write keeps the buffers. -/
theorem State.writeLoc_buffersOk {s : State} (hs : s.BuffersOk) (v : Word) (off : Nat) :
    (s.writeLoc v (locAt s.params off)).BuffersOk where
  params := by rw [State.writeLoc_params]; exact hs.params
  ibuf := by
    rw [State.writeLoc_params]
    rcases s.writeLoc_ibuf_cases v (locAt s.params off) with h | ⟨j, hl, h⟩
    · rw [h]; exact hs.ibuf
    · rw [h]; exact Buffer.wf_writeWord hs.ibuf (locAt_ibuf_word_fits hs.params hl) v
  obuf := by rw [State.writeLoc_params, State.writeLoc_obuf]; exact hs.obuf

/-- The host's turn keeps the buffers. -/
theorem hostStep_buffersOk {s t : State} (hs : s.BuffersOk) (h : hostStep s = .next t) : t.BuffersOk := by
  have hhost : ∀ ops, State.BuffersOk { s with host := ops } := fun _ => ⟨hs.params, hs.ibuf, hs.obuf⟩
  have hread : ∀ ops l, State.BuffersOk (State.hostRead { s with host := ops } l) :=
    fun _ _ => ⟨hs.params, hs.ibuf, hs.obuf⟩
  rcases hostStep_next h with ⟨-, rfl⟩ | ⟨_, v, rest, off, -, -, rfl⟩ | ⟨_, rest, off, -, -, rfl⟩ | ⟨rest, -, rfl⟩
  · exact hs
  · exact State.writeLoc_buffersOk (hhost rest) v off
  · exact hread rest _
  · exact hread _ _

/-- A completion keeps the buffers if the command left OBUF canonical (R112). -/
theorem State.complete_buffersOk {s : State} (hs : s.BuffersOk) {r : Result}
    (hr : Buffer.Wf s.params.obufBytes r.own.obuf) : (s.complete r).BuffersOk := by
  obtain ⟨hp, hi, -⟩ := hs
  rw [State.complete_frame, State.complete_own]
  exact ⟨hp, hi, hr⟩

/-- Every instruction keeps the buffers. -/
theorem exec_buffersOk {i : Instr} {s t : State} (hs : s.BuffersOk) (h : exec i s = .next t) : t.BuffersOk := by
  have hdone : (s.complete (resultOf s.params s.snapshot i)).BuffersOk :=
    State.complete_buffersOk hs (resultOf_obuf_wf hs.params hs.obuf i)
  rw [exec_eq] at h
  cases h
  split
  · obtain ⟨hp, hi, ho⟩ := hdone
    exact ⟨hp, hi, ho⟩
  · exact hdone

/-- A hardware reset leaves both buffers unwritten (R56). -/
theorem State.hardReset_buffersOk {s : State} (hp : s.params.wf = true) : s.hardReset.BuffersOk :=
  ⟨hp, by simp [Buffer.Wf], by simp [Buffer.Wf, Owned.reset]⟩

/-- R55: every step keeps the buffers. -/
theorem step_buffersOk {s t : State} (hs : s.BuffersOk) (h : step s = .next t) : t.BuffersOk := by
  have hturn : s.takeTurn.BuffersOk := ⟨hs.params, hs.ibuf, hs.obuf⟩
  rcases step_next h with ⟨-, hhost⟩ | ⟨-, -, rfl⟩ | ⟨-, _, _, _, -, -, hexec⟩ | ⟨-, _, _, _, -, -, rfl⟩ | ⟨-, rfl⟩
  · exact hostStep_buffersOk hturn hhost
  · exact hturn
  · exact exec_buffersOk hturn hexec
  · exact State.complete_buffersOk hturn hs.obuf
  · exact State.hardReset_buffersOk hs.params

/-- Settles O51: IBUF and OBUF stay canonical within their sizes by the case of whose turn it is; no step touches the parameters. -/
theorem stepKeepsBuffers : Obligations.StepKeepsBuffers :=
  fun _ _ hs h => ⟨step_buffersOk hs h, step_params h⟩

end Sys2Proof.Machine
end

section
/-! PROOFS. The registers through the host port: what a write to STATUS, IN_LEN and IRQ_EN does, and what the constant registers
read as (R23 to R41). -/

namespace Sys2Proof.Machine

/-! ### Where a register lies (R23, R63) -/

theorem Reg.index_lt (r : Reg) : r.index < 15 := by cases r <;> decide

theorem regAt_eq_reg_iff {n : Nat} {r : Reg} : regAt n = .reg r ↔ n = r.index := by
  constructor
  · intro h
    unfold regAt at h
    split at h <;> cases h <;> rfl
  · rintro rfl
    cases r <;> rfl

/-- R60: from the offset 0x3C on there is no register. -/
theorem locOfWord_ne_reg {p : Params} {o : Nat} (ho : 0x3C ≤ o) (r : Reg) : locOfWord p o ≠ .reg r := by
  unfold locOfWord
  rw [if_neg (Nat.not_lt.mpr ho)]
  iterate 10 refine iteInduction (motive := (· ≠ Loc.reg r)) (fun _ => Loc.noConfusion) fun _ => ?_
  exact Loc.noConfusion

/-- R23, R63: a register is named by the four byte offsets of its word, and by no others. -/
theorem locAt_eq_reg_iff {p : Params} {off : Nat} {r : Reg} : locAt p off = .reg r ↔ off / 4 = r.index := by
  have hindex := r.index_lt
  rcases Nat.lt_or_ge (off / 4 * 4) 0x3C with ho | ho
  · rw [locAt, locOfWord, if_pos ho, Nat.mul_div_cancel _ (by decide), regAt_eq_reg_iff]
  · exact iff_of_false (locOfWord_ne_reg ho r) (by omega)

/-! ### The host's turn with an access of the interface -/

/-- A host write at an offset of the block, as a whole step. -/
theorem step_write {s : State} {off : Nat} {v : Word} {rest : List HostOp}
    (h : s.HostTurn (.write 4 (s.params.base + off) v) rest) (hoff : off < 2 ^ 22) :
    step s = .next ((s.tookAccess rest).writeLoc v (locAt s.params off)) := by
  obtain ⟨hturn, hhost⟩ := h
  rw [step_host hturn, hostStep_write (s := s.takeTurn) hhost (busOffset_base_add hoff)]
  rfl

/-- A host read at an offset of the block, as a whole step. -/
theorem step_read {s : State} {off : Nat} {rest : List HostOp}
    (h : s.HostTurn (.read 4 (s.params.base + off)) rest) (hoff : off < 2 ^ 22) :
    step s = .next ((s.tookAccess rest).hostRead (locAt s.params off)) := by
  obtain ⟨hturn, hhost⟩ := h
  rw [step_host hturn, hostStep_read (s := s.takeTurn) hhost (busOffset_base_add hoff)]
  rfl

/-- A host write at any of a register's four byte offsets is a write to the register. -/
theorem step_write_reg {s : State} {off : Nat} {v : Word} {rest : List HostOp} (r : Reg) (hr : off / 4 = r.index)
    (h : s.HostTurn (.write 4 (s.params.base + off) v) rest) :
    step s = .next ((s.tookAccess rest).writeLoc v (.reg r)) := by
  have := r.index_lt
  rw [step_write h (by omega), locAt_eq_reg_iff.mpr hr]

/-- A host read of a register that is no result location returns the register, busy or idle (R71). -/
theorem step_read_reg {s t : State} {off : Nat} {rest : List HostOp} (r : Reg) (hr : off / 4 = r.index)
    (hdef : (Loc.reg r).isResult = false) (h : s.HostTurn (.read 4 (s.params.base + off)) rest) (hst : step s = .next t) :
    t.reads.head? = some (s.readReg r) := by
  have := r.index_lt
  rw [step_read h (by omega), locAt_eq_reg_iff.mpr hr] at hst
  cases hst
  have hread : (s.tookAccess rest).readReg r = s.readReg r := by cases r <;> rfl
  simp [State.readValue, hdef, State.readLoc, hread]

/-! ### Writes to STATUS, IN_LEN and IRQ_EN -/

/-- Bit `i` of a word as a digit of its value. -/
theorem getLsbD_eq_decide_div_mod {n : Nat} (v : BitVec n) (i : Nat) :
    v.getLsbD i = decide (v.toNat / 2 ^ i % 2 = 1) := by
  rw [← BitVec.testBit_toNat, Nat.testBit_eq_decide_div_mod_eq]

/-- R29, R31: a write-one-to-clear bit at bit `i`. -/
theorem and_not_getLsbD_eq_ite {n : Nat} (b : Bool) (v : BitVec n) (i : Nat) :
    (b && !v.getLsbD i) = if v.toNat / 2 ^ i % 2 = 1 then false else b := by
  rw [getLsbD_eq_decide_div_mod]
  split <;> simp_all

/-- Settles O11: the four offsets are those of STATUS, whose write is `Status.clearBits`. -/
theorem statusWriteClearsDoneAndHaz : Obligations.StatusWriteClearsDoneAndHaz := by
  intro s v k rest h hk
  rw [step_write_reg .status (by simp only [Reg.index]; omega) h]
  simp only [State.writeLoc, Status.clearBits, and_not_getLsbD_eq_ite, State.tookAccess_status, Nat.reducePow]

/-- Settles O12: each place is its register's, and `State.writeLoc` says what a write to the register does. -/
theorem inLenAndIrqEnWrites : Obligations.InLenAndIrqEnWrites := by
  intro s v k rest hk
  refine ⟨fun h hidle => ?_, fun h => ?_⟩
  · rw [step_write_reg .inLen (by simp only [Reg.index]; omega) h]
    simp [State.writeLoc, hidle]
  · rw [step_write_reg .irqEn (by simp only [Reg.index]; omega) h]
    simp only [State.writeLoc, getLsbD_eq_decide_div_mod, pow_zero, Nat.div_one, beq_eq_decide]

/-! ### The constant registers -/

/-- The constraints of R6 on the dictionary's capacity. -/
theorem Params.dictCap_of_wf {p : Params} (hp : p.wf = true) : 256 ≤ p.dictCap ∧ p.dictCap ≤ 2 ^ 21 := by
  simp only [Params.wf, Bool.and_eq_true, beq_iff_eq, decide_eq_true_eq] at hp
  omega

/-- Settles O18: none of the five is a result location, and the sizes of R6 fit in a word. -/
theorem constantRegistersRead : Obligations.ConstantRegistersRead := by
  intro s t rest hp hst
  obtain ⟨-, hibuf, -, hobuf⟩ := Params.bufferSizes_of_wf hp
  obtain ⟨-, hdict⟩ := Params.dictCap_of_wf hp
  have hfits : ∀ n ≤ 2 ^ 21, (BitVec.ofNat 32 n).toNat = n := fun n hn =>
    (BitVec.toNat_ofNat n 32).trans (Nat.mod_eq_of_lt (by omega))
  refine ⟨fun h => ?_, fun h => ?_, fun h => ?_, fun h => ?_, fun h => ?_⟩
  · exact step_read_reg .id rfl rfl h hst
  · exact step_read_reg .version rfl rfl h hst
  · rw [step_read_reg .paramIbuf rfl rfl h hst]
    exact congrArg some (hfits _ (by omega))
  · rw [step_read_reg .paramObuf rfl rfl h hst]
    exact congrArg some (hfits _ hobuf)
  · rw [step_read_reg .paramDict rfl rfl h hst]
    exact congrArg some (hfits _ hdict)

end Sys2Proof.Machine
end

section
/-! PROOFS. Words put together from fields: STATUS (R27) and the Huffman windows (R42 to R45). -/

namespace Sys2Proof.Machine

/-- The value of a word whose upper bits are `x` and whose lower `n` bits are `y`. -/
theorem toNat_append_eq_add {m n : Nat} (x : BitVec m) (y : BitVec n) :
    (x ++ y).toNat = x.toNat * 2 ^ n + y.toNat := by
  rw [BitVec.toNat_append, ← Nat.shiftLeft_add_eq_or_of_lt y.isLt, Nat.shiftLeft_eq]

/-- R27: STATUS as a number, its fields weighed by their places. -/
theorem statusWord_toNat (busy : Bool) (t : Status) :
    (statusWord busy t).toNat =
      busy.toNat + 2 * t.done.toNat + 4 * t.err.toNat + 16 * t.errcode.toNat + 256 * t.haz.toNat + 4096 * t.lastop.toNat := by
  simp only [statusWord, toNat_append_eq_add, BitVec.toNat_ofBool, BitVec.toNat_ofNat]
  omega

/-- Settles O19: by `statusWord_toNat`; ERRCODE takes the value of R210 in each case of the error. -/
theorem statusReadsItsFields : Obligations.StatusReadsItsFields := by
  intro busy t
  rw [statusWord_toNat]
  obtain ⟨done, _ | e, haz, lastop⟩ := t
  · rfl
  · cases e <;> rfl

/-! ### The Huffman windows -/

/-- R43: a word of the CODELEN window, as a number. -/
theorem CodeEntry.lenWord_toNat (c : CodeEntry) : c.lenWord.toNat = c.len.toNat + 256 * c.valid.toNat := by
  simp only [CodeEntry.lenWord, toNat_append_eq_add, BitVec.toNat_ofBool, BitVec.toNat_ofNat]
  omega

/-- R44: a word of the CODE window, as a number. -/
theorem CodeEntry.valWord_toNat (c : CodeEntry) (w : BitVec 3) :
    (c.valWord w).toNat = c.val.toNat / 2 ^ (32 * w.toNat) % 2 ^ 32 := by
  rw [CodeEntry.valWord, BitVec.extractLsb'_toNat, Nat.shiftRight_eq_div_pow]

/-- R45: NKIND of a leaf holds 1 and the symbol. -/
theorem Node.word_kind_leaf_toNat {n : Node} {b : Byte} (h : n.kind = .leaf b) : (n.word 1#2).toNat = 1 + 256 * b.toNat := by
  obtain ⟨f, k⟩ := n
  subst h
  show (0#16 ++ b ++ 1#8).toNat = _
  simp only [toNat_append_eq_add, BitVec.toNat_ofNat]
  omega

/-- R45: the other words of a leaf. -/
theorem Node.word_children_leaf {n : Node} {b : Byte} (h : n.kind = .leaf b) : n.word 2#2 = 0#32 ∧ n.word 3#2 = 0#32 := by
  simp [Node.word, h]

/-- R45: the words of an internal node but NFREQ. -/
theorem Node.word_internal {n : Node} {a b : BitVec 9} (h : n.kind = .internal a b) :
    n.word 1#2 = 0#32 ∧ (n.word 2#2).toNat = a.toNat ∧ (n.word 3#2).toNat = b.toNat := by
  obtain ⟨f, k⟩ := n
  subst h
  exact ⟨rfl, BitVec.toNat_setWidth_of_le (by decide), BitVec.toNat_setWidth_of_le (by decide)⟩

@[simp] theorem Node.word_zero (n : Node) : n.word 0#2 = n.nfreq := by simp [Node.word]

/-- R45: a word of a valid entry of the arena. -/
theorem Huffman.nodeWord_of_valid {h : Huffman} {i : BitVec 9} {n : Node} (hi : i.toNat < h.nnodes.toNat)
    (hn : h.arena[i.toNat]? = some n) (f : BitVec 2) : h.nodeWord i f = n.word f := by
  simp [Huffman.nodeWord, hi, hn]

/-- R45: an entry at or past HUF_NNODES reads 0. -/
theorem Huffman.nodeWord_of_le {h : Huffman} {i : BitVec 9} (hi : h.nnodes.toNat ≤ i.toNat) (f : BitVec 2) :
    h.nodeWord i f = 0#32 := by
  simp [Huffman.nodeWord, Nat.not_lt.mpr hi]

/-- Settles O20: each window by the lemma on its word. -/
theorem huffmanWindowsRead : Obligations.HuffmanWindowsRead := by
  intro s
  refine ⟨fun _ => rfl, fun b => CodeEntry.lenWord_toNat _, fun b w => CodeEntry.valWord_toNat _ w, ?_,
    fun i f hi => Huffman.nodeWord_of_le hi f⟩
  intro i n hi hn
  have hword : ∀ f, s.readLoc (.node i f) = n.word f := Huffman.nodeWord_of_valid hi hn
  simp only [hword]
  exact ⟨n.word_zero, fun b hk => ⟨Node.word_kind_leaf_toNat hk, Node.word_children_leaf hk⟩,
    fun a b hk => Node.word_internal hk⟩

end Sys2Proof.Machine
end

section
/-! PROOFS. What each command leaves alone of the state the engine owns (R58, R112, R130). -/

namespace Sys2Proof.Machine

/-! ### The bodies of the commands -/

/-- Pack writes OBUF, OUT_LEN and POS only (R139). -/
theorem pack_frame (p : Params) (input : List Byte) (o : Owned) :
    (pack p input o).own = { o with
      obuf := (pack p input o).own.obuf, outLen := (pack p input o).own.outLen, pos := (pack p input o).own.pos } :=
  packLoop_frame p input 0 { o with outLen := 0#32 }

/-- HUF_ENCODE's steps write OBUF, OUT_LEN, POS and the Huffman state only (R141). -/
theorem hufEncodeBody_frame (p : Params) (input : List Byte) (o : Owned) :
    (hufEncodeBody p input o).own = { o with
      obuf := (hufEncodeBody p input o).own.obuf, outLen := (hufEncodeBody p input o).own.outLen
      pos := (hufEncodeBody p input o).own.pos, huf := (hufEncodeBody p input o).own.huf } := by
  unfold hufEncodeBody
  rw [pack_frame]
  rfl

/-- LZW_ENCODE's body writes OBUF, OUT_LEN, POS and the LZW state only (R176). -/
theorem lzwEncodeBody_frame (p : Params) (input : List Byte) (o : Owned) :
    (lzwEncodeBody p input o).own = { o with
      obuf := (lzwEncodeBody p input o).own.obuf, outLen := (lzwEncodeBody p input o).own.outLen
      pos := (lzwEncodeBody p input o).own.pos, lzw := (lzwEncodeBody p input o).own.lzw } :=
  lzwLoop_frame p input 0 { o with outLen := 0#32, lzw := { o.lzw.initDict with acc := none } }

/-- RLE_ENCODE's body writes OBUF, OUT_LEN, POS and the run registers only (R194). -/
theorem rleEncodeBody_frame (p : Params) (input : List Byte) (o : Owned) :
    (rleEncodeBody p input o).own = { o with
      obuf := (rleEncodeBody p input o).own.obuf, outLen := (rleEncodeBody p input o).own.outLen
      pos := (rleEncodeBody p input o).own.pos, rle := (rleEncodeBody p input o).own.rle } := by
  cases input with
  | nil => rfl
  | cons b bs => exact rleLoop_frame p bs 1 _

/-! ### `Exec` -/

/-- What a command other than SOFT_RESET keeps of the engine-owned state, which is `o` before it and `o'` after: the state of every
encoder that is not its own, and ERR_POS, which only a completion writes (R214). -/
structure ExecKeeps (i : Instr) (o o' : Owned) : Prop where
  errPos : o'.errPos = o.errPos
  huf : i ∉ [.hufEncode, .hufFreq, .hufTree, .hufCodes] → o'.huf = o.huf
  lzw : i ≠ .lzwEncode → o'.lzw = o.lzw
  rle : i ≠ .rleEncode → o'.rle = o.rle

/-- A failed length check changes nothing; otherwise the body runs (R113). -/
theorem checkLen_own_cases (p : Params) (x : Snapshot) (body : Result) :
    (checkLen p x body).own = x.own ∨ (checkLen p x body).own = body.own := by
  rcases Nat.lt_or_ge p.ibufBytes x.inLen.toNat with hlen | hlen
  · exact .inl (congrArg Result.own (checkLen_raise hlen body))
  · exact .inr (congrArg Result.own (checkLen_pass hlen body))

/-- A command that checks its input length keeps what its body keeps. -/
theorem checkLen_keeps {i : Instr} {p : Params} {x : Snapshot} {body : Result} (h : ExecKeeps i x.own body.own) :
    ExecKeeps i x.own (checkLen p x body).own := by
  rcases checkLen_own_cases p x body with hown | hown <;> rw [hown]
  · exact ⟨rfl, fun _ => rfl, fun _ => rfl, fun _ => rfl⟩
  · exact h

theorem resultOf_keeps (p : Params) (x : Snapshot) {i : Instr} (hi : i ≠ .softReset) :
    ExecKeeps i x.own (resultOf p x i).own := by
  cases i with
  | nop => exact ⟨rfl, fun _ => rfl, fun _ => rfl, fun _ => rfl⟩
  | hufTree | hufCodes => exact ⟨rfl, by simp, fun _ => rfl, fun _ => rfl⟩
  | hufFreq => exact checkLen_keeps ⟨rfl, by simp, fun _ => rfl, fun _ => rfl⟩
  | hufPack =>
    refine checkLen_keeps ?_
    rw [pack_frame]
    exact ⟨rfl, fun _ => rfl, fun _ => rfl, fun _ => rfl⟩
  | hufEncode =>
    refine checkLen_keeps ?_
    rw [hufEncodeBody_frame]
    exact ⟨rfl, by simp, fun _ => rfl, fun _ => rfl⟩
  | lzwEncode =>
    refine checkLen_keeps ?_
    rw [lzwEncodeBody_frame]
    exact ⟨rfl, fun _ => rfl, by simp, fun _ => rfl⟩
  | rleEncode =>
    refine checkLen_keeps ?_
    rw [rleEncodeBody_frame]
    exact ⟨rfl, fun _ => rfl, fun _ => rfl, by simp⟩
  | softReset => exact absurd rfl hi

/-- NOP and the commands that only make Huffman tables leave OUT_LEN and OBUF. -/
theorem resultOf_output (p : Params) (x : Snapshot) {i : Instr}
    (hi : i = .nop ∨ i = .hufFreq ∨ i = .hufTree ∨ i = .hufCodes) :
    (resultOf p x i).own.outLen = x.own.outLen ∧ (resultOf p x i).own.obuf = x.own.obuf := by
  rcases hi with rfl | rfl | rfl | rfl
  case inr.inl =>
    simp only [resultOf, hufFreqResult]
    rcases checkLen_own_cases p x (.complete (freqCount x.input x.own)) with hown | hown <;> rw [hown] <;> exact ⟨rfl, rfl⟩
  all_goals exact ⟨rfl, rfl⟩

/-- ERR_POS as `Exec` leaves it: SOFT_RESET clears it (R116), the other commands leave it to the completion (R214). -/
theorem resultOf_errPos_eq_zero (p : Params) {x : Snapshot} (hx : x.own.errPos = 0#32) (i : Instr) :
    (resultOf p x i).own.errPos = 0#32 := by
  by_cases hi : i = .softReset
  · subst hi; rfl
  · rw [(resultOf_keeps p x hi).errPos, hx]

/-! ### The completion step -/

/-- After an instruction the engine-owned state is what `Exec` left, but for ERR_POS (R112). -/
theorem exec_own {i : Instr} {s t : State} (h : exec i s = .next t) :
    t.own = { (resultOf s.params s.snapshot i).own with errPos := t.own.errPos } := by
  rw [exec_eq] at h
  cases h
  split <;> exact State.complete_own _ _

/-- Settles O47: by `resultOf_keeps` and `resultOf_output`; SOFT_RESET writes neither the run registers nor OBUF (R116). -/
theorem encodersKeepToThemselves : Obligations.EncodersKeepToThemselves := by
  intro i s t h
  rw [exec_own h]
  refine ⟨fun hi => ?_, fun hlzw hsoft => (resultOf_keeps _ _ hsoft).lzw hlzw, fun hrle => ?_, fun hi => ?_, ?_⟩
  · rcases hi with rfl | rfl | rfl <;> exact (resultOf_keeps _ _ Instr.noConfusion).huf (by simp)
  · by_cases hsoft : i = .softReset
    · subst hsoft; rfl
    · exact (resultOf_keeps _ _ hsoft).rle hrle
  · obtain ⟨hlen, hbuf⟩ := resultOf_output s.params s.snapshot hi
    exact ⟨hlen, fun j => congrArg (Buffer.read · j) hbuf⟩
  · rintro rfl j
    rfl

end Sys2Proof.Machine
end

section
/-! PROOFS. Every step keeps the command protocol (R26, R29, R30, R32, R35, R111, R112). -/

namespace Sys2Proof.Machine

theorem State.busy_eq_false_iff {s : State} : s.busy = false ↔ s.engine = .idle := by
  cases h : s.engine <;> simp [State.busy, h, Engine.isBusy]

/-- While idle the protocol asks only for LASTOP and ERR_POS. -/
theorem State.controlOk_of_idle {s : State} (hidle : s.engine = .idle) (hlast : s.status.lastop = s.cmd.extractLsb' 0 4)
    (hpos : s.status.error = none → s.own.errPos = 0#32) : s.ControlOk where
  snap w x hbusy := by rw [hidle] at hbusy; cases hbusy
  running hbusy := by rw [State.busy_idle hidle] at hbusy; cases hbusy
  lastop := hlast
  errPos := hpos

/-- An accepted command starts out as the protocol asks (R111). -/
theorem State.accept_controlOk (s : State) (v : Word) : (s.accept v).ControlOk where
  snap w x hbusy := by cases hbusy; exact ⟨rfl, rfl⟩
  running _ := ⟨rfl, rfl⟩
  lastop := rfl
  errPos _ := rfl

/-- A host write keeps the protocol: while BUSY it changes nothing a command reads (R76). -/
theorem State.writeLoc_controlOk {s : State} (hs : s.ControlOk) (v : Word) (l : Loc) : (s.writeLoc v l).ControlOk := by
  have ⟨hsnap, hrun, hlast, hpos⟩ := hs
  rcases s.writeLoc_cases v l with h | ⟨-, -, h⟩ | ⟨-, -, h⟩ | ⟨-, h⟩ | ⟨hidle, -, h⟩ | ⟨-, h⟩ | ⟨hidle, _, -, h⟩ <;> rw [h]
  · exact hs
  · exact ⟨hsnap, hrun, hlast, hpos⟩
  · exact s.accept_controlOk v
  · refine ⟨hsnap, fun hbusy => ?_, hlast, hpos⟩
    obtain ⟨hdone, herr⟩ := hrun hbusy
    exact ⟨by simp [Status.clearBits, hdone], herr⟩
  · exact State.controlOk_of_idle (State.busy_eq_false_iff.mp hidle) hlast hpos
  · exact ⟨hsnap, hrun, hlast, hpos⟩
  · exact State.controlOk_of_idle (State.busy_eq_false_iff.mp hidle) hlast hpos

/-- The host's turn keeps the protocol. -/
theorem hostStep_controlOk {s t : State} (hs : s.ControlOk) (h : hostStep s = .next t) : t.ControlOk := by
  have ⟨hsnap, hrun, hlast, hpos⟩ := hs
  rcases hostStep_next h with ⟨-, rfl⟩ | ⟨_, v, rest, off, -, -, rfl⟩ | ⟨_, rest, off, -, -, rfl⟩ | ⟨rest, -, rfl⟩
  · exact hs
  · exact State.writeLoc_controlOk (s := { s with host := rest }) ⟨hsnap, hrun, hlast, hpos⟩ v _
  · exact ⟨hsnap, hrun, hlast, hpos⟩
  · exact ⟨hsnap, hrun, hlast, hpos⟩

/-- A completion keeps the protocol if the command left ERR_POS 0 where no error is held: one that it raises brings its own
position (R214). -/
theorem State.complete_controlOk {s : State} (hlast : s.status.lastop = s.cmd.extractLsb' 0 4) {r : Result}
    (hpos : s.status.error = none → r.own.errPos = 0#32) : (s.complete r).ControlOk := by
  rcases r with ⟨o, _ | ⟨e, pos⟩⟩
  · exact State.controlOk_of_idle rfl hlast hpos
  · exact State.controlOk_of_idle rfl hlast fun hnone => nomatch hnone

/-- Every instruction keeps the protocol. -/
theorem exec_controlOk {i : Instr} {s t : State} (hs : s.ControlOk) (h : exec i s = .next t) : t.ControlOk := by
  have hdone : (s.complete (resultOf s.params s.snapshot i)).ControlOk :=
    State.complete_controlOk hs.lastop fun hnone => resultOf_errPos_eq_zero _ (hs.errPos hnone) i
  rw [exec_eq] at h
  cases h
  split
  · obtain ⟨hsnap, hrun, hlast, hpos⟩ := hdone
    exact ⟨hsnap, hrun, hlast, hpos⟩
  · exact hdone

/-- Settles O52: by whose turn it is; only an acceptance makes the engine busy, and a completion leaves it idle. -/
theorem stepKeepsControl : Obligations.StepKeepsControl := by
  intro s t hs h
  have hturn : s.takeTurn.ControlOk := by
    obtain ⟨hsnap, hrun, hlast, hpos⟩ := hs
    exact ⟨hsnap, hrun, hlast, hpos⟩
  rcases step_next h with ⟨-, hhost⟩ | ⟨-, -, rfl⟩ | ⟨-, _, _, _, -, -, hexec⟩ | ⟨-, _, _, _, -, -, rfl⟩ | ⟨-, rfl⟩
  · exact hostStep_controlOk hturn hhost
  · exact hturn
  · exact exec_controlOk hturn hexec
  · exact State.complete_controlOk hturn.lastop hturn.errPos
  · exact State.controlOk_of_idle rfl rfl fun _ => rfl

end Sys2Proof.Machine
end

section
/-! PROOFS. The decoder: no word but an instruction's own decodes to it (R90 to R92). -/

namespace Sys2Proof.Machine

/-- R90, R92: OP and RSV make up a command word. -/
theorem cmdRsv_append_cmdOp (w : Word) : cmdRsv w ++ cmdOp w = w := by
  rw [cmdRsv, cmdOp, BitVec.extractLsb'_append_extractLsb'_eq_extractLsb' (by decide : 4 = 0 + 4)]
  exact BitVec.extractLsb'_eq_self

theorem decodeOp_eq_ok {op : BitVec 4} {i : Instr} (h : decodeOp op = .ok i) : op = i.op := by
  unfold decodeOp at h
  split at h <;> cases h <;> exact BitVec.eq_of_toNat_eq ‹_›

/-- R91, R92: the command word of an instruction is the only one that decodes to it. -/
theorem eq_encode_of_decode {w : Word} {i : Instr} (h : decode w = .ok i) : w = encode i := by
  unfold decode at h
  split at h
  · next hrsv => rw [← cmdRsv_append_cmdOp w, hrsv, decodeOp_eq_ok h, encode]
  · cases h

end Sys2Proof.Machine
end

section
/-! PROOFS. What sets and what clears HAZ (R31, R116, R250). -/

namespace Sys2Proof.Machine

@[simp] theorem State.complete_haz (s : State) (r : Result) : (s.complete r).status.haz = s.status.haz := by
  rw [State.complete_frame]

/-- R116: SOFT_RESET clears HAZ, and no other instruction touches it. -/
theorem exec_haz {i : Instr} {s t : State} (h : exec i s = .next t) :
    t.status.haz = if i = .softReset then false else s.status.haz := by
  rw [exec_eq] at h
  cases h
  split <;> simp

/-- All that a host write can do to HAZ: a dropped one sets it (R31), one to STATUS clears it by bit 8 (R27). -/
theorem State.writeLoc_haz (s : State) (v : Word) (l : Loc) :
    (s.writeLoc v l).status.haz = s.status.haz ∨
    (s.busy = true ∧ (s.writeLoc v l).status.haz = true) ∨
    (l = .reg .status ∧ v.getLsbD 8 = true ∧ (s.writeLoc v l).status.haz = false) := by
  rcases s.writeLoc_cases v l with h | ⟨hbusy, -, h⟩ | ⟨-, -, h⟩ | ⟨hl, h⟩ | ⟨-, -, h⟩ | ⟨-, h⟩ | ⟨-, _, -, h⟩ <;> rw [h]
  case inr.inl => exact .inr (.inl ⟨hbusy, rfl⟩)
  case inr.inr.inr.inl =>
    cases hv : v.getLsbD 8
    · exact .inl (by simp only [Status.clearBits, hv, Bool.not_false, Bool.and_true])
    · exact .inr (.inr ⟨hl, rfl, by simp only [Status.clearBits, hv, Bool.not_true, Bool.and_false]⟩)
  all_goals exact .inl rfl

/-- The host's turn changes HAZ by a write only. -/
theorem hostStep_haz {s t : State} (h : hostStep s = .next t) :
    t.status.haz = s.status.haz ∨ ∃ addr v rest off, s.host = .write 4 addr v :: rest ∧ busOffset s.params addr = some off ∧
      ((s.busy = true ∧ t.status.haz = true) ∨
        (locAt s.params off = .reg .status ∧ v.getLsbD 8 = true ∧ t.status.haz = false)) := by
  rcases hostStep_next h with ⟨-, rfl⟩ | ⟨addr, v, rest, off, hhost, ho, rfl⟩ | ⟨_, _, _, -, -, rfl⟩ | ⟨_, -, rfl⟩
  · exact .inl rfl
  · exact (State.writeLoc_haz { s with host := rest } v (locAt s.params off)).imp_right
      fun hchange => ⟨addr, v, rest, off, hhost, ho, hchange⟩
  · exact .inl rfl
  · exact .inl rfl

/-- All that a step can do to HAZ. -/
theorem step_haz {s t : State} (h : step s = .next t) :
    t.status.haz = s.status.haz ∨
    (∃ addr v rest off, s.HostTurn (.write 4 addr v) rest ∧ busOffset s.params addr = some off ∧
      ((s.busy = true ∧ t.status.haz = true) ∨
        (locAt s.params off = .reg .status ∧ v.getLsbD 8 = true ∧ t.status.haz = false))) ∨
    (s.turn = .engine ∧ (∃ x, s.engine = .busy (encode .softReset) x) ∧ t.status.haz = false) ∨
    (s.turn = .hwReset ∧ t.status.haz = false) := by
  rcases step_next h with ⟨hturn, hhost⟩ | ⟨-, -, rfl⟩ | ⟨hturn, w, x, i, hbusy, hdec, hexec⟩ | ⟨-, _, _, _, -, -, rfl⟩ |
    ⟨hturn, rfl⟩
  · refine (hostStep_haz hhost).imp_right fun hwrite => .inl ?_
    obtain ⟨addr, v, rest, off, hop, ho, hchange⟩ := hwrite
    exact ⟨addr, v, rest, off, ⟨hturn, hop⟩, ho, hchange⟩
  · exact .inl rfl
  · have hhaz := exec_haz hexec
    by_cases hi : i = .softReset
    · subst hi
      exact .inr (.inr (.inl ⟨hturn, ⟨x, eq_encode_of_decode hdec ▸ hbusy⟩, hhaz⟩))
    · rw [if_neg hi] at hhaz
      exact .inl hhaz
  · exact .inl (by simp)
  · exact .inr (.inr (.inr ⟨hturn, rfl⟩))

/-- Settles O59: each of the changes that `step_haz` lists goes one way only. -/
theorem hazIsSticky : Obligations.HazIsSticky := by
  intro s t h
  refine ⟨fun hs ht => ?_, fun hs ht => ?_⟩
  · rcases step_haz h with hsame | ⟨addr, v, rest, off, hop, ho, hchange⟩ | ⟨hturn, hbusy, -⟩ | ⟨hturn, -⟩
    · rw [hs, ht] at hsame; cases hsame
    · rcases hchange with ⟨-, hset⟩ | ⟨hloc, hv, -⟩
      · rw [ht] at hset; cases hset
      · refine .inl ⟨addr, v, rest, hop, hv, ?_⟩
        have hoff : off / 4 = 3 := locAt_eq_reg_iff.mp hloc
        simp only [ho, List.mem_cons, Option.some.injEq, List.not_mem_nil, or_false]
        omega
    · exact .inr (.inl ⟨hturn, hbusy⟩)
    · exact .inr (.inr hturn)
  · rcases step_haz h with hsame | ⟨addr, v, rest, off, hop, -, hchange⟩ | ⟨-, -, hclear⟩ | ⟨-, hclear⟩
    · rw [hs, ht] at hsame; cases hsame
    · rcases hchange with ⟨hbusy, -⟩ | ⟨-, -, hclear⟩
      · exact ⟨hbusy, 4, addr, v, rest, hop⟩
      · rw [ht] at hclear; cases hclear
    · rw [ht] at hclear; cases hclear
    · rw [ht] at hclear; cases hclear

end Sys2Proof.Machine
end

section
/-! PROOFS. Hardware reset: the values of R56, and the invariant that holds from there. -/

namespace Sys2Proof.Machine

@[simp] theorem Huffman.reset_freqOf (b : Byte) : Huffman.reset.freqOf b = 0#32 := by
  simp [Huffman.reset, Huffman.freqOf]

@[simp] theorem Huffman.reset_codeOf (b : Byte) : Huffman.reset.codeOf b = ⟨false, 0#8, 0#256⟩ :=
  codeOf_clearedCodes Huffman.reset b

theorem statusWord_reset : statusWord false ⟨false, none, false, 0#4⟩ = 0#32 := by decide

/-- Settles O7: `State.hardReset` puts in each field the value R56 gives it. -/
theorem hardwareResetValues : Obligations.HardwareResetValues := by
  intro s hturn
  refine ⟨_, step_hwReset hturn, ?_⟩
  rw [State.hardReset_busy, State.hardReset_status, State.hardReset_own]
  exact ⟨rfl, rfl, rfl, rfl, statusWord_reset, rfl, rfl, rfl, rfl, rfl, rfl, rfl, Huffman.reset_freqOf, Huffman.reset_codeOf,
    fun _ => rfl, fun _ => rfl, rfl, rfl, rfl, rfl⟩

/-- Counts of no symbol at all are well formed. -/
theorem Huffman.reset_countsOk : Huffman.reset.CountsOk where
  nsym := rfl
  nodup := List.nodup_nil
  counted b := by rw [Huffman.reset_freqOf]; simp [Huffman.reset]
  bounded := Nat.zero_le _

theorem Huffman.reset_chainOk : Huffman.reset.ChainOk where
  toCountsOk := Huffman.reset_countsOk
  work := rfl
  tree := .inl ⟨rfl, rfl, rfl⟩
  codes := .inl rfl

/-- R37: before the first LZW_ENCODE the dictionary has no entry. -/
theorem Lzw.dictOk_of_empty {cap : Nat} {z : Lzw} (hcount : z.dictCount = 0#32) (hdict : z.dict = []) : z.DictOk cap where
  count := .inl ⟨hcount, hdict⟩
  capacity := by simp [hcount]
  earlier k e he := by simp [hdict] at he
  nodup := by simp [hdict]

/-- R56: the state after hardware reset meets the invariant, whatever the legal parameters. -/
theorem State.resetWith_inv {p : Params} (hp : p.wf = true) (seed : Nat) : (State.resetWith p seed).Inv where
  buffers := ⟨hp, by simp [State.resetWith, Buffer.Wf], by simp [State.resetWith, Owned.reset, Buffer.Wf]⟩
  control := State.controlOk_of_idle rfl rfl fun _ => rfl
  huffman := Huffman.reset_chainOk
  lzw := Lzw.dictOk_of_empty rfl rfl

/-- R6: the default sizes are legal wherever the block lies. -/
theorem defaultSizes_wf {base : Nat} (hbase : base % Config.spanBytes = 0) :
    Params.wf ⟨65536, 262144, 65792, base⟩ = true := by
  simp only [Params.wf, hbase]
  rfl

/-- R6: the default parameters are legal; BASE, which is open, is a multiple of the block's span. -/
theorem defaults_wf : Config.defaults.wf = true :=
  defaultSizes_wf (Nat.mul_mod_left Config.baseIndex Config.spanBytes)

/-- Settles O50: `State.resetWith_inv` at the default parameters. -/
theorem invariantHoldsAtReset : Obligations.InvariantHoldsAtReset := State.resetWith_inv defaults_wf 0

end Sys2Proof.Machine
end

section
/-! PROOFS. The address map: which place an offset names (R60, R61, R63), in both directions. -/

namespace Sys2Proof.Machine

/-- R63: a word of the block begins at a multiple of 4. -/
theorem Loc.Valid.offset_mod_four {p : Params} {l : Loc} (hl : l.Valid p) : l.offset % 4 = 0 := by
  cases l with
  | ibuf j | obuf j =>
    obtain ⟨halign, -⟩ := hl
    simp only [Loc.offset]; omega
  | reg | freq | codeLen | code | node => simp only [Loc.offset]; omega
  | reserved => rfl

/-- R60, R61: every place lies in the span the block answers. -/
theorem Loc.Valid.offset_add_lt {p : Params} {l : Loc} (hp : p.wf = true) (hl : l.Valid p) {k : Nat} (hk : k < 4) :
    l.offset + k < 2 ^ 22 := by
  obtain ⟨-, hibuf, hsize, hobuf⟩ := Params.bufferSizes_of_wf hp
  cases l with
  | reg r => have := r.index_lt; simp only [Loc.offset]; omega
  | freq | codeLen | code | node | reserved => simp only [Loc.offset]; omega
  | ibuf j | obuf j =>
    obtain ⟨halign, hj⟩ := hl
    simp only [Loc.offset]; omega

/-- R60: an aligned offset inside a range of reserved space names reserved space. -/
theorem locOfWord_reserved {p : Params} (hp : p.wf = true) {o : Nat} (ho : reservedOffset p o) :
    locOfWord p o = .reserved := by
  obtain ⟨-, hibuf, -, -⟩ := Params.bufferSizes_of_wf hp
  rcases ho with h | h | h | h | h <;> simp (disch := omega) only [locOfWord, if_pos, if_neg]

/-- R60, R63: every range of reserved space begins and ends at a multiple of 4, so each byte offset in it names reserved space. -/
theorem locAt_reserved {p : Params} (hp : p.wf = true) {off : Nat} (hoff : reservedOffset p off) :
    locAt p off = .reserved := by
  obtain ⟨hibuf, -, hobuf, -⟩ := Params.bufferSizes_of_wf hp
  refine locOfWord_reserved hp ?_
  unfold reservedOffset at hoff ⊢
  omega

/-- R60, R61: reserved space lies in the span the block answers. -/
theorem reservedOffset_lt {p : Params} (hp : p.wf = true) {off : Nat} (hoff : reservedOffset p off) : off < 2 ^ 22 := by
  obtain ⟨-, hibuf, -, -⟩ := Params.bufferSizes_of_wf hp
  unfold reservedOffset at hoff
  omega

/-- R42: the offsets of the FREQ window. -/
theorem locOfWord_freq (p : Params) {n : Nat} (hn : n < 2 ^ 8) : locOfWord p (0x400 + 4 * n) = .freq (BitVec.ofNat 8 n) := by
  have hindex : (0x400 + 4 * n - 0x400) / 4 = n := by omega
  simp (disch := omega) only [locOfWord, if_pos, if_neg, hindex]

/-- R43: the offsets of the CODELEN window. -/
theorem locOfWord_codeLen (p : Params) {n : Nat} (hn : n < 2 ^ 8) :
    locOfWord p (0x800 + 4 * n) = .codeLen (BitVec.ofNat 8 n) := by
  have hindex : (0x800 + 4 * n - 0x800) / 4 = n := by omega
  simp (disch := omega) only [locOfWord, if_pos, if_neg, hindex]

/-- R44: the offsets of the CODE window. -/
theorem locOfWord_code (p : Params) {n m : Nat} (hn : n < 2 ^ 8) (hm : m < 2 ^ 3) :
    locOfWord p (0x2000 + 32 * n + 4 * m) = .code (BitVec.ofNat 8 n) (BitVec.ofNat 3 m) := by
  have hsym : (0x2000 + 32 * n + 4 * m - 0x2000) / 32 = n := by omega
  have hword : (0x2000 + 32 * n + 4 * m - 0x2000) % 32 / 4 = m := by omega
  simp (disch := omega) only [locOfWord, if_pos, if_neg, hsym, hword]

/-- R45: the offsets of the NODE window. -/
theorem locOfWord_node (p : Params) {n m : Nat} (hn : n < 2 ^ 9) (hm : m < 2 ^ 2) :
    locOfWord p (0x4000 + 16 * n + 4 * m) = .node (BitVec.ofNat 9 n) (BitVec.ofNat 2 m) := by
  have hentry : (0x4000 + 16 * n + 4 * m - 0x4000) / 16 = n := by omega
  have hfield : (0x4000 + 16 * n + 4 * m - 0x4000) % 16 / 4 = m := by omega
  simp (disch := omega) only [locOfWord, if_pos, if_neg, hentry, hfield]

/-- R66: the offsets of IBUF. -/
theorem locOfWord_ibuf {p : Params} {j : Nat} (hj : j < p.ibufBytes) : locOfWord p (0x100000 + j) = .ibuf j := by
  simp (disch := omega) only [locOfWord, if_pos, if_neg, Nat.add_sub_cancel_left]

/-- R67: the offsets of OBUF, which begins past the largest IBUF of R6. -/
theorem locOfWord_obuf {p : Params} (hp : p.wf = true) {j : Nat} (hj : j < p.obufBytes) :
    locOfWord p (0x200000 + j) = .obuf j := by
  obtain ⟨-, hibuf, -, -⟩ := Params.bufferSizes_of_wf hp
  simp (disch := omega) only [locOfWord, if_pos, if_neg, Nat.add_sub_cancel_left]

/-- R60: the offset of a place names it. -/
theorem locOfWord_offset {p : Params} (hp : p.wf = true) {l : Loc} (hl : l.Valid p) : locOfWord p l.offset = l := by
  cases l with
  | reg r => cases r <;> rfl
  | reserved => rfl
  | freq b => simpa [Loc.offset] using locOfWord_freq p b.isLt
  | codeLen b => simpa [Loc.offset] using locOfWord_codeLen p b.isLt
  | code b w => simpa [Loc.offset] using locOfWord_code p b.isLt w.isLt
  | node i f => simpa [Loc.offset] using locOfWord_node p i.isLt f.isLt
  | ibuf j =>
    obtain ⟨-, hj⟩ := hl
    exact locOfWord_ibuf hj
  | obuf j =>
    obtain ⟨-, hj⟩ := hl
    exact locOfWord_obuf hp hj

/-- R63: each of the four byte offsets of a place's word names the place. -/
theorem locAt_offset_add {p : Params} (hp : p.wf = true) {l : Loc} (hl : l.Valid p) {k : Nat} (hk : k < 4) :
    locAt p (l.offset + k) = l := by
  have hmod := hl.offset_mod_four
  rw [locAt, show (l.offset + k) / 4 * 4 = l.offset by omega, locOfWord_offset hp hl]

/-- Settles O8: by `locAt_offset_add` and the span of the block; the offsets of the map are those `Loc.offset` is written with. -/
theorem addressMapNamesEveryPlace : Obligations.AddressMapNamesEveryPlace := by
  refine ⟨fun p l k hp hl hk => ⟨locAt_offset_add hp hl hk, ?_⟩, rfl, fun _ => ⟨rfl, rfl⟩, fun _ _ => rfl, fun _ _ => rfl,
    fun _ => ⟨rfl, rfl⟩⟩
  rw [Nat.add_assoc]
  exact busOffset_base_add (hl.offset_add_lt hp hk)

end Sys2Proof.Machine
end

section
/-! PROOFS. The host's turn: which accesses are made (R61, R62), what a read leaves (R65, R71) and a poll of WAIT (R101), and what
a write to a place that takes none leaves (R64). -/

namespace Sys2Proof.Machine

/-! ### Which accesses are made (R61, R62) -/

theorem step_read_eq_busAccess {s : State} {bytes addr : Nat} {rest : List HostOp} (h : s.HostTurn (.read bytes addr) rest) :
    step s = busAccess (s.tookAccess rest) bytes addr State.hostRead := by
  obtain ⟨hturn, hhost⟩ := h
  rw [step_host hturn]
  simp only [hostStep, State.takeTurn_host, hhost]
  rfl

theorem step_write_eq_busAccess {s : State} {bytes addr : Nat} {v : Word} {rest : List HostOp}
    (h : s.HostTurn (.write bytes addr v) rest) :
    step s = busAccess (s.tookAccess rest) bytes addr fun t l => t.writeLoc v l := by
  obtain ⟨hturn, hhost⟩ := h
  rw [step_host hturn]
  simp only [hostStep, State.takeTurn_host, hhost]
  rfl

/-- R62: an access of another width than 4 bytes. -/
theorem busAccess_refused {s : State} {bytes addr : Nat} {act : State → Loc → State} (hbytes : bytes ≠ 4) :
    busAccess s bytes addr act = .refused .accessWidth := by
  simp [busAccess, accessWidthOk, hbytes]

/-- R61: an access at an address the block does not answer. -/
theorem busAccess_fault {s : State} {addr : Nat} {act : State → Loc → State}
    (haddr : addr < s.params.base ∨ s.params.base + 2 ^ 22 ≤ addr) : busAccess s 4 addr act = .fault .outsideBlock := by
  have hout : busOffset s.params addr = none := if_neg (by simp only [Config.spanBytes]; omega)
  simp [busAccess, accessWidthOk, hout]

/-- An access of the interface is made. -/
theorem busAccess_made {s : State} {addr : Nat} {act : State → Loc → State} (hlow : s.params.base ≤ addr)
    (hhigh : addr < s.params.base + 2 ^ 22) : ∃ t, busAccess s 4 addr act = .next t := by
  have hin : busOffset s.params addr = some (addr - s.params.base) := if_pos ⟨hlow, hhigh⟩
  simp [busAccess, accessWidthOk, hin]

/-- Settles O21: a read and a write are both one bus access, whose three outcomes are those of `busAccess`. -/
theorem accessesOutsideTheInterfaceStop : Obligations.AccessesOutsideTheInterfaceStop := by
  intro s op rest bytes addr h hop
  obtain ⟨act, hstep⟩ : ∃ act, step s = busAccess (s.tookAccess rest) bytes addr act := by
    rcases hop with rfl | ⟨v, rfl⟩
    · exact ⟨_, step_read_eq_busAccess h⟩
    · exact ⟨_, step_write_eq_busAccess h⟩
  rw [hstep]
  refine ⟨busAccess_refused, ?_, ?_⟩
  · rintro rfl haddr
    exact busAccess_fault haddr
  · rintro rfl hlow hhigh
    exact busAccess_made hlow hhigh

/-! ### Reads (R65, R71) -/

/-- Whatever a place reads as, taking an access does not change it. -/
@[simp] theorem State.tookAccess_readLoc (s : State) (rest : List HostOp) (l : Loc) :
    (s.tookAccess rest).readLoc l = s.readLoc l := by
  rcases l with r | _ | _ | _ | _ | _ | _ | _
  · cases r <;> rfl
  all_goals rfl

/-- R71: a read of a result location while BUSY takes the next draw. -/
theorem State.hostRead_of_draw {s : State} {l : Loc} (hbusy : s.busy = true) (hl : l.isResult = true) :
    s.hostRead l = { s with reads := Config.freeRead s.draws :: s.reads, draws := s.draws + 1 } := by
  simp [State.hostRead, State.readValue, hbusy, hl]

/-- R65, R71: any other read returns the place's defined value. -/
theorem State.hostRead_of_defined {s : State} {l : Loc} (hdef : s.busy = false ∨ l.isResult = false) :
    s.hostRead l = { s with reads := s.readLoc l :: s.reads } := by
  have hdraw : (s.busy && l.isResult) = false := Bool.and_eq_false_iff.mpr hdef
  simp [State.hostRead, State.readValue, hdraw]

/-- A host read that returns a defined value, as a whole step. -/
theorem step_read_of_defined {s : State} {off : Nat} {l : Loc} {rest : List HostOp}
    (h : s.HostTurn (.read 4 (s.params.base + off)) rest) (hoff : off < 2 ^ 22) (hl : locAt s.params off = l)
    (hdef : s.busy = false ∨ l.isResult = false) :
    step s = .next { s.tookAccess rest with reads := s.readLoc l :: s.reads } := by
  rw [step_read h hoff, hl, State.hostRead_of_defined (s := s.tookAccess rest) hdef, State.tookAccess_readLoc]
  rfl

/-! ### WAIT (R101) -/

/-- R27: DONE is bit 1 of STATUS. -/
theorem statusWord_getLsbD_one (busy : Bool) (t : Status) : (statusWord busy t).getLsbD 1 = t.done := by
  simp only [statusWord, BitVec.getLsbD_append]
  simp

/-- A poll of WAIT, as a whole step. -/
theorem step_wait {s : State} {rest : List HostOp} (h : s.HostTurn .wait rest) :
    step s = .next { s.tookAccess (if s.status.done then rest else .wait :: rest) with
      reads := statusWord s.busy s.status :: s.reads } := by
  obtain ⟨hturn, hhost⟩ := h
  rw [step_host hturn, hostStep_wait (s := s.takeTurn) hhost, State.takeTurn_host, hhost]
  rfl

/-- Settles O16: a read that is made is `State.hostRead` at some place, which writes `reads` and `draws` only; a poll of WAIT is
`step_wait`, by DONE. -/
theorem hostReadHasNoSideEffect : Obligations.HostReadHasNoSideEffect := by
  refine ⟨fun s t bytes addr rest h hstep => ?_, fun s rest h => ?_⟩
  · rw [step_read_eq_busAccess h] at hstep
    obtain ⟨-, off, -, rfl⟩ := busAccess_next hstep
    exact ⟨rfl, rfl, rfl⟩
  · rw [statusWord_getLsbD_one, step_wait h]
    exact ⟨fun hdone => by rw [if_pos hdone], fun hdone => by rw [hdone]; rfl⟩

/-! ### Writes that are ignored (R64) -/

/-- R64: a write to a read-only place or to reserved space changes nothing: none of the places that take a write is `l`. -/
theorem State.writeLoc_of_readOnly (s : State) (v : Word) {l : Loc}
    (hl : l ≠ .reg .cmd ∧ l ≠ .reg .status ∧ l ≠ .reg .inLen ∧ l ≠ .reg .irqEn ∧ ∀ j, l ≠ .ibuf j) : s.writeLoc v l = s := by
  obtain ⟨hcmd, hstatus, hinLen, hirqEn, hibuf⟩ := hl
  rcases s.writeLoc_cases v l with h | ⟨-, h | h | ⟨j, h⟩, -⟩ | ⟨-, h, -⟩ | ⟨h, -⟩ | ⟨-, h, -⟩ | ⟨h, -⟩ | ⟨-, j, h, -⟩
  · exact h
  · exact absurd h hcmd
  · exact absurd h hinLen
  · exact absurd h (hibuf j)
  · exact absurd h hcmd
  · exact absurd h hstatus
  · exact absurd h hinLen
  · exact absurd h hirqEn
  · exact absurd h (hibuf j)

/-- Settles O14: the offset names the place (R63), and a write there is ignored. -/
theorem readOnlyWriteIgnored : Obligations.ReadOnlyWriteIgnored := by
  intro s l v k rest hp hvalid hk hl h
  rw [Nat.add_assoc] at h
  rw [step_write h (hvalid.offset_add_lt hp hk), locAt_offset_add hp hvalid hk, State.writeLoc_of_readOnly _ v hl]

/-- Settles O15: every offset of the five ranges names reserved space, which is no result location and takes no write. -/
theorem reservedSpaceReadsZero : Obligations.ReservedSpaceReadsZero := by
  intro s off v rest hp hoff
  have hlt := reservedOffset_lt hp hoff
  have hloc := locAt_reserved hp hoff
  refine ⟨fun h => step_read_of_defined h hlt hloc (.inr rfl), fun h => ?_⟩
  rw [step_write h hlt, hloc]
  rfl

end Sys2Proof.Machine
end

section
/-! PROOFS. The windows of IBUF and OBUF (R66 to R68), and what every place reads as (R23 to R41, R71). -/

namespace Sys2Proof.Machine

/-! ### The bytes of a word (R68) -/

theorem extractByte_toNat (v : Word) (n : Nat) : (v.extractLsb' (8 * n) 8).toNat = v.toNat / 256 ^ n % 256 := by
  rw [BitVec.extractLsb'_toNat, Nat.shiftRight_eq_div_pow, Nat.pow_mul]

/-- R66, R67: byte `n` of a word read from a buffer. -/
theorem Buffer.readWord_byte (b : Buffer) (j : Nat) {n : Nat} (hn : n < 4) :
    (b.readWord j).toNat / 256 ^ n % 256 = (b.read (j + n)).toNat := by
  simp only [Buffer.readWord, toNat_append_eq_add]
  interval_cases n <;> simp only [Nat.add_zero, Nat.reducePow] <;> omega

/-- R66: byte `n` of the word a host write puts into IBUF. -/
theorem Buffer.writeWord_byte (b : Buffer) (j : Nat) (v : Word) {n : Nat} (hn : n < 4) :
    ((b.writeWord j v).read (j + n)).toNat = v.toNat / 256 ^ n % 256 := by
  rw [Buffer.read_writeWord b j v hn, extractByte_toNat]

/-- Settles O13: the four byte offsets name the word of IBUF, where `State.writeLoc` writes a word or drops it, and no read takes
a draw. -/
theorem ibufWindow : Obligations.IbufWindow := by
  intro s j k rest hp halign hj hk
  have hvalid : (Loc.ibuf j).Valid s.params := ⟨halign, hj⟩
  have hlt : 0x100000 + j + k < 2 ^ 22 := hvalid.offset_add_lt hp hk
  have hloc : locAt s.params (0x100000 + j + k) = .ibuf j := locAt_offset_add hp hvalid hk
  refine ⟨fun v h hidle => ?_, fun v h hbusy => ?_, fun h => ?_⟩
  · refine ⟨s.ibuf.writeWord j v, ?_, fun n hn => Buffer.writeWord_byte _ j v hn,
      fun a ha => Buffer.read_writeWord_of_ne _ j v ha⟩
    rw [step_write h hlt, hloc]
    simp [State.writeLoc, hidle]
  · rw [step_write h hlt, hloc]
    simp [State.writeLoc, hbusy, State.dropWrite]
  · exact ⟨_, step_read_of_defined h hlt hloc (.inr rfl), fun n hn => Buffer.readWord_byte _ j hn⟩

/-- R36: IRQ_EN as a number. -/
theorem irqEnWord_toNat (b : Bool) : (irqEnWord b).toNat = b.toNat := by
  simp only [irqEnWord, toNat_append_eq_add, BitVec.toNat_ofBool, BitVec.toNat_ofNat]
  omega

/-- Settles O17: the offset names the place (R63), and a read there takes a draw or returns `State.readLoc`, whose values are those
of the registers and of OBUF. -/
theorem readsWhileBusy : Obligations.ReadsWhileBusy := by
  intro s
  refine ⟨fun l k rest hp hvalid hk h => ?_, rfl, rfl, rfl, rfl, rfl, irqEnWord_toNat _, rfl, rfl, rfl, rfl,
    fun j n hn => Buffer.readWord_byte _ j hn⟩
  rw [Nat.add_assoc] at h
  have hlt := hvalid.offset_add_lt hp hk
  have hloc := locAt_offset_add hp hvalid hk
  refine ⟨fun hbusy hl => ?_, fun hdef => step_read_of_defined h hlt hloc hdef⟩
  rw [step_read h hlt, hloc, State.hostRead_of_draw (s := s.tookAccess rest) hbusy hl]
  rfl

end Sys2Proof.Machine
end

section
/-! PROOFS. What the host cannot change while BUSY (R76, R112, R250). -/

namespace Sys2Proof.Machine

/-- R76: while BUSY a host write leaves what the command will read, ENGINE with PENDING and SNAP, the parameters, CMD and the error:
it is dropped, or it goes to STATUS, which keeps ERR, or to IRQ_EN. -/
theorem State.writeLoc_frozen {s : State} (hbusy : s.busy = true) (v : Word) (l : Loc) :
    (s.writeLoc v l).snapshot = s.snapshot ∧ (s.writeLoc v l).engine = s.engine ∧ (s.writeLoc v l).params = s.params ∧
      (s.writeLoc v l).cmd = s.cmd ∧ (s.writeLoc v l).status.error = s.status.error := by
  have hnotIdle : s.busy ≠ false := by simp [hbusy]
  rcases s.writeLoc_cases v l with h | ⟨-, -, h⟩ | ⟨hidle, -⟩ | ⟨-, h⟩ | ⟨hidle, -⟩ | ⟨-, h⟩ | ⟨hidle, -⟩
  case inr.inr.inl | inr.inr.inr.inr.inl | inr.inr.inr.inr.inr.inr => exact absurd hidle hnotIdle
  all_goals rw [h]; exact ⟨rfl, rfl, rfl, rfl, rfl⟩

/-- Settles O55: the host's turn is idle, a write, a read or a poll; of these only a write could change the block. -/
theorem busyFreezesTheInput : Obligations.BusyFreezesTheInput := by
  intro s t hbusy hturn h
  rw [step_host hturn] at h
  rcases hostStep_next h with ⟨-, rfl⟩ | ⟨_, v, rest, _, -, -, rfl⟩ | ⟨_, _, _, -, -, rfl⟩ | ⟨_, -, rfl⟩
  · exact ⟨rfl, rfl, rfl, rfl, rfl⟩
  · exact State.writeLoc_frozen (s := { s.takeTurn with host := rest }) hbusy v _
  · exact ⟨rfl, rfl, rfl, rfl, rfl⟩
  · exact ⟨rfl, rfl, rfl, rfl, rfl⟩

end Sys2Proof.Machine
end

section
/-! PROOFS. Command words: which decode to an instruction, to which one, and why the others are rejected (R90 to R93). -/

namespace Sys2Proof.Machine

/-- Settles O2: `eq_encode_of_decode` one way, `decode_encode` the other. -/
theorem decodeInvertsEncode : Obligations.DecodeInvertsEncode := by
  intro i w
  refine ⟨eq_encode_of_decode, ?_⟩
  rintro rfl
  exact decode_encode i

/-- R90: OP is the value of a command word modulo 16. -/
theorem cmdOp_toNat (w : Word) : (cmdOp w).toNat = w.toNat % 16 := by
  rw [cmdOp, BitVec.extractLsb'_toNat, Nat.shiftRight_zero]

/-- R90: RSV is 0 exactly when the command word is below 16. -/
theorem cmdRsv_eq_zero_iff {w : Word} : cmdRsv w = 0#28 ↔ w.toNat / 16 = 0 := by
  have hrsv : (cmdRsv w).toNat = w.toNat / 16 := by
    rw [cmdRsv, BitVec.extractLsb'_toNat, Nat.shiftRight_eq_div_pow]
    have := w.isLt
    omega
  rw [← BitVec.toNat_inj, hrsv, BitVec.toNat_ofNat, Nat.zero_mod]

/-- R92, R93: an OP value selects an instruction, or is one of 0x8 to 0xE and reserved. -/
theorem decodeOp_cases (op : BitVec 4) :
    ((∃ i, decodeOp op = .ok i) ∧ (op.toNat ≤ 7 ∨ op.toNat = 15)) ∨
    (decodeOp op = .error .reservedOp ∧ 8 ≤ op.toNat ∧ op.toNat ≤ 14) := by
  have hlt := op.isLt
  unfold decodeOp
  split
  case h_10 =>
    refine .inr ⟨rfl, ?_⟩
    simp only [imp_false] at *
    omega
  all_goals exact .inl ⟨⟨_, rfl⟩, by omega⟩

/-- Settles O3: by `decode`'s test of RSV, and below it the two cases of an OP value. -/
theorem legalWordsAreTheNine : Obligations.LegalWordsAreTheNine := by
  intro w
  by_cases hrsv : w.toNat / 16 = 0
  · have hdecode : decode w = decodeOp (cmdOp w) := if_pos (cmdRsv_eq_zero_iff.mpr hrsv)
    have hop := decodeOp_cases (cmdOp w)
    rw [cmdOp_toNat, ← hdecode] at hop
    rcases hop with ⟨⟨i, hi⟩, hop⟩ | ⟨herror, hop⟩
    · exact ⟨iff_of_true ⟨i, hi⟩ ⟨hrsv, hop⟩, iff_of_false (by simp [hi]) (not_not.mpr hrsv),
        iff_of_false (by simp [hi]) (by omega)⟩
    · exact ⟨iff_of_false (by simp [herror]) (by omega), iff_of_false (by simp [herror]) (not_not.mpr hrsv),
        iff_of_true herror ⟨hrsv, hop⟩⟩
  · have hdecode : decode w = .error .reservedBits := if_neg (mt cmdRsv_eq_zero_iff.mp hrsv)
    exact ⟨iff_of_false (by simp [hdecode]) (by omega), iff_of_true hdecode hrsv,
      iff_of_false (by simp [hdecode]) (by omega)⟩

/-- Settles O1: the nine words are the encodings of the instructions, and the rejected ones are rejected as O3 says. -/
theorem tableWordsDecode : Obligations.TableWordsDecode := by
  refine ⟨decode_encode .nop, decode_encode .hufEncode, decode_encode .lzwEncode, decode_encode .rleEncode,
    decode_encode .hufFreq, decode_encode .hufTree, decode_encode .hufCodes, decode_encode .hufPack,
    decode_encode .softReset, ?_, ?_, ?_, ?_⟩
  · exact (legalWordsAreTheNine _).2.2.mpr (by decide)
  · exact (legalWordsAreTheNine _).2.2.mpr (by decide)
  · exact (legalWordsAreTheNine _).2.1.mpr (by decide)
  · exact (legalWordsAreTheNine _).2.1.mpr (by decide)

end Sys2Proof.Machine
end

section
/-! PROOFS. A LOAD gives the next command its bytes (R66, R94, R101). -/

namespace Sys2Proof.Machine

/-- IBUF after a LOAD of `bytes` has written the words of the indices `ms`, in this order (R101). -/
def Buffer.loadWords (bytes : List Byte) (b : Buffer) (ms : List Nat) : Buffer :=
  ms.foldl (fun c m => c.writeWord (4 * m) (loadWord bytes m)) b

/-- R68, R101: the bytes of a word that LOAD writes, the lowest first. -/
theorem loadWord_byte (bytes : List Byte) (m : Nat) {n : Nat} (hn : n < 4) :
    (loadWord bytes m).extractLsb' (8 * n) 8 = loadByte bytes (4 * m + n) := by
  apply BitVec.eq_of_toNat_eq
  rw [extractByte_toNat]
  simp only [loadWord, toNat_append_eq_add]
  interval_cases n <;> simp only [Nat.add_zero, Nat.reducePow] <;> omega

/-- R101: the words written so far read as the loaded bytes, and as 0 past the end of the text. -/
theorem Buffer.read_loadWords_range (bytes : List Byte) (b : Buffer) {n j : Nat} (hj : j < 4 * n) :
    (b.loadWords bytes (List.range n)).read j = loadByte bytes j := by
  induction n with
  | zero => omega
  | succ n ih =>
    have hstep : b.loadWords bytes (List.range (n + 1)) =
        (b.loadWords bytes (List.range n)).writeWord (4 * n) (loadWord bytes n) := by
      simp [Buffer.loadWords, List.range_succ]
    rw [hstep]
    rcases Nat.lt_or_ge j (4 * n) with hlt | hge
    · rw [Buffer.read_writeWord_of_ne _ _ _ (.inl hlt), ih hlt]
    · obtain ⟨k, rfl⟩ := Nat.exists_eq_add_of_le hge
      rw [Buffer.read_writeWord _ _ _ (by omega), loadWord_byte bytes n (by omega)]

/-- R94: a command's input is the loaded bytes if IN_LEN is their number and IBUF reads as they do. -/
theorem Snapshot.input_eq_of_read {x : Snapshot} {bytes : List Byte} (hlen : x.inLen.toNat = bytes.length)
    (hread : ∀ j < bytes.length, x.ibuf.read j = loadByte bytes j) : x.input = bytes := by
  refine List.ext_getElem (by simp [Snapshot.input, hlen]) fun j _ hj => ?_
  simp [Snapshot.input, hread j hj, loadByte, hj]

/-- One `WR` of a script (R100) as a whole step: the block is idle and no schedule is left, so the host moves. -/
theorem step_wr {s : State} (hp : s.params.wf = true) (hidle : s.busy = false) (hturns : s.turns = []) {l : Loc}
    (hl : l.Valid s.params) {v : Word} {rest : List HostOp} (hhost : s.host = .wr s.params.base l v :: rest) :
    step s = .next (State.writeLoc { s with host := rest } v l) := by
  have hturn : s.turn = .host := by simp [State.turn, hturns, hidle]
  have htook : s.tookAccess rest = { s with host := rest } := by simp [State.tookAccess, hturns]
  have hzero : 0 < 4 := by decide
  rw [step_write ⟨hturn, hhost⟩ (hl.offset_add_lt hp hzero), ← Nat.add_zero l.offset, locAt_offset_add hp hl hzero, htook]

/-- R66: the step of a `WR` to IBUF. -/
theorem step_wr_ibuf {s : State} (hp : s.params.wf = true) (hidle : s.busy = false) (hturns : s.turns = []) {j : Nat}
    (hj : (Loc.ibuf j).Valid s.params) {v : Word} {rest : List HostOp}
    (hhost : s.host = .wr s.params.base (.ibuf j) v :: rest) :
    step s = .next { s with host := rest, ibuf := s.ibuf.writeWord j v } := by
  have hidle' : State.busy { s with host := rest } = false := hidle
  rw [step_wr hp hidle hturns hj hhost]
  simp [State.writeLoc, hidle']

/-- R33: the step of a `WR` to IN_LEN. -/
theorem step_wr_inLen {s : State} (hp : s.params.wf = true) (hidle : s.busy = false) (hturns : s.turns = []) {v : Word}
    {rest : List HostOp} (hhost : s.host = .wr s.params.base (.reg .inLen) v :: rest) :
    step s = .next { s with host := rest, inLen := v } := by
  have hidle' : State.busy { s with host := rest } = false := hidle
  rw [step_wr (l := .reg .inLen) hp hidle hturns trivial hhost]
  simp [State.writeLoc, hidle']

/-- The word writes of a LOAD, made one after another (R66, R101). -/
theorem run_loadWords (bytes : List Byte) (k : Nat) {s : State} (hp : s.params.wf = true) (hidle : s.busy = false)
    (hturns : s.turns = []) {rest : List HostOp} {ms : List Nat} (hms : ∀ m ∈ ms, 4 * m < s.params.ibufBytes)
    (hhost : s.host = ms.map (fun m => .wr s.params.base (.ibuf (4 * m)) (loadWord bytes m)) ++ rest) :
    core.run (ms.length + k) s = core.run k { s with host := rest, ibuf := s.ibuf.loadWords bytes ms } := by
  induction ms generalizing s with
  | nil =>
    subst hhost
    simp [Buffer.loadWords]
  | cons m ms ih =>
    have hvalid : (Loc.ibuf (4 * m)).Valid s.params := ⟨Nat.mul_mod_right 4 m, hms m List.mem_cons_self⟩
    rw [List.length_cons, Nat.add_right_comm, run_succ (step_wr_ibuf hp hidle hturns hvalid hhost)]
    exact ih hp hidle hturns (fun n hn => hms n (List.mem_cons_of_mem m hn)) rfl

/-- Settles O23: by `run_loadWords`, one write of IN_LEN, and what the words written read as. -/
theorem loadGivesTheInput : Obligations.LoadGivesTheInput := by
  intro s bytes hp hlen hidle hturns hhost
  have hwords : ∀ m ∈ List.range ((bytes.length + 3) / 4), 4 * m < s.params.ibufBytes := by
    simp only [List.mem_range]
    omega
  refine ⟨s.ibuf.loadWords bytes (List.range ((bytes.length + 3) / 4)), ?_, ?_⟩
  · have hcount : s.host.length = (List.range ((bytes.length + 3) / 4)).length + 1 := by simp [hhost, Stmt.ops]
    rw [hcount, run_loadWords bytes 1 hp hidle hturns hwords hhost]
    refine run_succ (step_wr_inLen ?_ ?_ ?_ ?_) 0
    exacts [hp, hidle, hturns, rfl]
  · obtain ⟨-, hibuf, -, -⟩ := Params.bufferSizes_of_wf hp
    refine Snapshot.input_eq_of_read ?_ fun j hj => Buffer.read_loadWords_range bytes s.ibuf (by omega)
    rw [BitVec.toNat_ofNat]
    omega

end Sys2Proof.Machine
end

section
/-! PROOFS. An output command changes no byte of OBUF past its own output (R96, R252). -/

namespace Sys2Proof.Machine

open Sys2Proof.Reference

/-- OBUF reads as `b` past the output, of which OUT_LEN units take `size OUT_LEN` bytes. -/
def Owned.KeepsPast (size : Nat → Nat) (b : Buffer) (o : Owned) : Prop :=
  ∀ j, size o.outLen.toNat ≤ j → o.obuf.read j = b.read j

/-! ### Pack (R139) -/

/-- No output at all has no last byte. -/
theorem Owned.tailClear_of_empty {o : Owned} (ho : o.outLen = 0#32) : o.TailClear := by
  intro p _ hp
  simp [ho, bytesForBits] at hp

/-- Pack's loop writes bits of codes that fit only, each within the output that it then counts, whatever the outcome. -/
theorem packLoop_keepsPast {p : Params} (hp : 8 * p.obufBytes < 2 ^ 32) {b : Buffer} (input : List Byte) (i : Nat) {o : Owned}
    (htail : o.TailClear) (ho : o.KeepsPast bytesForBits b) : (packLoop p input i o).own.KeepsPast bytesForBits b := by
  induction input generalizing i o with
  | nil => exact ho
  | cons c cs ih =>
    simp only [packLoop]
    split
    · exact ho
    · split
      · exact ho
      · next hfit =>
        obtain ⟨hlen, htail', -, hread⟩ := Owned.putBits_spec (o := { o with pos := BitVec.ofNat 32 i })
          (o.huf.codeOf c).bits htail (by rw [CodeEntry.bits_length]; show o.outLen.toNat + _ < _; omega)
        refine ih (i + 1) htail' fun j hj => ?_
        rw [hlen] at hj
        rw [hread j hj]
        exact ho j (le_trans (bytesForBits_mono (Nat.le_add_right _ _)) hj)

theorem pack_keepsPast {p : Params} (hp : 8 * p.obufBytes < 2 ^ 32) (input : List Byte) (o : Owned) :
    (pack p input o).own.KeepsPast bytesForBits o.obuf :=
  packLoop_keepsPast hp input 0 (Owned.tailClear_of_empty rfl) fun _ _ => rfl

/-! ### LzwLoop (R174) -/

/-- An emitted code lies within the output that OUT_LEN then counts (R175). -/
theorem Owned.emitCode_keepsPast {p : Params} (hp : p.obufBytes < 2 ^ 32) {b : Buffer} {o : Owned} (ho : o.KeepsPast (4 * ·) b)
    (hfit : ¬ o.codeOverflows p = true) (c : Word) : (o.emitCode c).KeepsPast (4 * ·) b := by
  simp only [Owned.codeOverflows, decide_eq_true_eq] at hfit
  obtain ⟨hlen, -, hread⟩ := o.emitCode_spec c (by omega)
  intro j hj
  rw [hlen] at hj
  rw [hread j hj]
  exact ho j (le_trans (Nat.mul_le_mul_left 4 (Nat.le_succ _)) hj)

/-- LzwLoop writes OBUF by emitted codes only, whatever the outcome. -/
theorem lzwLoop_keepsPast {p : Params} (hp : p.obufBytes < 2 ^ 32) {b : Buffer} (input : List Byte) (i : Nat) {o : Owned}
    (ho : o.KeepsPast (4 * ·) b) : (lzwLoop p input i o).own.KeepsPast (4 * ·) b := by
  induction input generalizing i o with
  | nil =>
    simp only [lzwLoop]
    split
    · exact ho
    · split
      · exact ho
      · exact Owned.emitCode_keepsPast hp ho ‹_› _
  | cons c cs ih =>
    simp only [lzwLoop]
    split
    · exact ih (i + 1) ho
    · split
      · exact ih (i + 1) ho
      · split
        · exact ho
        · have hemit := Owned.emitCode_keepsPast hp ho ‹_› ‹Word›
          split
          · exact hemit
          · exact ih (i + 1) hemit

/-! ### RleLoop (R191) -/

/-- An emitted run lies within the output that OUT_LEN then counts (R192). -/
theorem Owned.emitRun_keepsPast {p : Params} (hp : p.obufBytes < 2 ^ 32) {b : Buffer} {o : Owned} (ho : o.KeepsPast id b)
    (hfit : ¬ o.runOverflows p = true) : o.emitRun.KeepsPast id b := by
  simp only [Owned.runOverflows, decide_eq_true_eq] at hfit
  obtain ⟨hlen, -, hread⟩ := o.emitRun_spec _ rfl (by omega)
  intro j hj
  rw [id, hlen] at hj
  rw [hread j hj]
  exact ho j (le_trans (Nat.le_add_right _ _) hj)

/-- RleLoop writes OBUF by emitted runs only, whatever the outcome. -/
theorem rleLoop_keepsPast {p : Params} (hp : p.obufBytes < 2 ^ 32) {b : Buffer} (input : List Byte) (i : Nat) {o : Owned}
    (ho : o.KeepsPast id b) : (rleLoop p input i o).own.KeepsPast id b := by
  induction input generalizing i o with
  | nil =>
    simp only [rleLoop]
    split
    · exact ho
    · exact Owned.emitRun_keepsPast hp ho ‹_›
  | cons c cs ih =>
    simp only [rleLoop]
    split
    · exact ih (i + 1) ho
    · split
      · exact ho
      · exact ih (i + 1) (Owned.emitRun_keepsPast hp ho ‹_›)

theorem rleEncodeBody_keepsPast {p : Params} (hp : p.obufBytes < 2 ^ 32) (input : List Byte) (o : Owned) :
    (rleEncodeBody p input o).own.KeepsPast id o.obuf := by
  cases input with
  | nil => exact fun _ _ => rfl
  | cons c cs => exact rleLoop_keepsPast hp cs 1 fun _ _ => rfl

/-! ### The commands -/

/-- A failed length check writes no output, so a command keeps what its body keeps (R113). -/
theorem checkLen_keepsPast {size : Nat → Nat} {p : Params} {x : Snapshot} {body : Result}
    (h : body.own.KeepsPast size x.own.obuf) : (checkLen p x body).own.KeepsPast size x.own.obuf := by
  rcases checkLen_own_cases p x body with hown | hown <;> rw [hown]
  · exact fun _ _ => rfl
  · exact h

/-- Completion writes neither OBUF nor OUT_LEN (R112). -/
theorem exec_keepsPast {size : Nat → Nat} {i : Instr} {s t : State} (h : exec i s = .next t)
    (hexec : (resultOf s.params s.snapshot i).own.KeepsPast size s.own.obuf) : t.own.KeepsPast size s.own.obuf := by
  rw [exec_own h]
  exact hexec

/-- Settles O48: past its output each command's loop leaves OBUF as it was, whatever the outcome. -/
theorem outputStaysInItsRange : Obligations.OutputStaysInItsRange := by
  intro s t j hp
  obtain ⟨-, -, -, hobuf⟩ := Params.bufferSizes_of_wf hp
  refine ⟨fun h => ?_, fun h => ?_, fun h => ?_⟩
  · have hbits : 8 * s.params.obufBytes < 2 ^ 32 := by omega
    rcases h with h | h <;> exact exec_keepsPast h (checkLen_keepsPast (pack_keepsPast hbits _ _)) j
  · exact exec_keepsPast h (checkLen_keepsPast (lzwLoop_keepsPast (by omega) _ 0 fun _ _ => rfl)) j
  · exact exec_keepsPast h (checkLen_keepsPast (rleEncodeBody_keepsPast (by omega) _ _)) j

end Sys2Proof.Machine
end

section
/-! PROOFS. One command from its acceptance to its completion: what acceptance sets (R111), what every completion leaves alone
(R112), and NOP and SOFT_RESET (R115, R116). -/

namespace Sys2Proof.Machine

/-! ### Acceptance (R111) -/

/-- R32: LASTOP as a number, the OP of the accepted word. -/
theorem extractLsb'_op_eq_ofNat (v : Word) : v.extractLsb' 0 4 = BitVec.ofNat 4 (v.toNat % 16) := by
  apply BitVec.eq_of_toNat_eq
  rw [BitVec.extractLsb'_toNat, Nat.shiftRight_zero, BitVec.toNat_ofNat, Nat.mod_mod]

/-- A host write to CMD while idle, as a whole step. -/
theorem step_write_cmd_of_idle {s : State} {off : Nat} {v : Word} {rest : List HostOp} (hoff : off / 4 = 2)
    (h : s.HostTurn (.write 4 (s.params.base + off) v) rest) (hidle : s.busy = false) :
    step s = .next ((s.tookAccess rest).accept v) := by
  rw [step_write_reg .cmd hoff h]
  simp [State.writeLoc, hidle]

/-- Settles O9: the four offsets are those of CMD, whose write is `State.accept` while idle and dropped while BUSY. -/
theorem commandAcceptance : Obligations.CommandAcceptance := by
  intro s v k rest h hk
  have hoff : (0x008 + k) / 4 = 2 := by omega
  refine ⟨fun hidle => ?_, fun hbusy => ?_⟩
  · rw [step_write_cmd_of_idle hoff h hidle, State.accept, extractLsb'_op_eq_ofNat]
    rfl
  · rw [step_write_reg .cmd hoff h]
    simp [State.writeLoc, hbusy, State.dropWrite]

/-! ### The engine's turn (R110, R112) -/

/-- Settles O4: `engineStep` dispatches on what PENDING decodes to, and taking the turn leaves PENDING. -/
theorem engineTurnRunsPending : Obligations.EngineTurnRunsPending := by
  intro s w x i hturn hbusy hdec
  rw [step_engine hturn]
  simp only [engineStep, State.takeTurn_engine, hbusy, hdec]
  rfl

/-- Settles O6: an idle engine has no step (R110), and a host with no access left makes none. -/
theorem idleBlockKeepsItsState : Obligations.IdleBlockKeepsItsState := by
  intro s
  refine ⟨fun hturn hidle => (step_engine hturn).trans ?_, fun hturn hhost => (step_host hturn).trans ?_⟩
  · show engineStep s.takeTurn = .next s.takeTurn
    simp only [engineStep, State.takeTurn_engine, State.busy_eq_false_iff.mp hidle]
  · show hostStep s.takeTurn = .next s.takeTurn
    simp only [hostStep, State.takeTurn_host, hhost]

/-! ### Completion (R112) -/

/-- Whatever the instruction, its completion writes the engine-owned state, ENGINE, DONE and the error; SOFT_RESET's also clears
HAZ. -/
theorem exec_frame {i : Instr} {s t : State} (h : exec i s = .next t) :
    t = { s with
      own := t.own, engine := .idle
      status := { s.status with
        done := true, error := t.status.error, haz := if i = .softReset then false else s.status.haz } } := by
  rw [exec_eq] at h
  cases h
  by_cases hi : i = .softReset
  · simp only [if_pos hi]
    rw [State.complete_frame]
    rfl
  · simp only [if_neg hi]
    exact State.complete_frame _ _

/-- Settles O46: every instruction answers a next state, framed by `exec_frame`. -/
theorem completionFrame : Obligations.CompletionFrame :=
  fun i s => ⟨_, exec_eq i s, exec_frame (exec_eq i s)⟩

/-- Settles O25: SOFT_RESET's tables are those of `Huffman.clear`; accepted, its LASTOP is 0xF. -/
theorem softResetCompletes : Obligations.SoftResetCompletes := by
  intro s
  refine ⟨⟨_, exec_eq _ _, ?_⟩, s.own.huf.clear, rfl, rfl, rfl, rfl, rfl, rfl, rfl, Huffman.clear_freqOf _,
    Huffman.clear_codeOf _⟩
  show statusWord false ⟨true, none, false, (0x0000000F#32).extractLsb' 0 4⟩ = 0x0000F002#32
  decide

/-- The engine's turn with an illegal word pending completes with E_BAD_CMD (R211). -/
theorem step_of_decode_error {s : State} {w : Word} {x : Snapshot} {e : DecodeError} (hturn : s.turn = .engine)
    (hbusy : s.engine = .busy w x) (hdec : decode w = .error e) :
    step s = .next (s.takeTurn.complete (badCmdResult s.snapshot)) := by
  rw [step_engine hturn]
  simp only [engineStep, State.takeTurn_engine, hbusy, hdec, State.takeTurn_snapshot]

/-! ### Acceptance and completion in two turns -/

theorem run_of_fault {s : State} {r : Fault} (h : step s = .fault r) (k : Nat) : core.run (k + 1) s = .fault r := by
  have h' : core.step s = .fault r := h
  simp only [Host.Core.run, h']

theorem run_of_refused {s : State} {r : Refusal} (h : step s = .refused r) (k : Nat) : core.run (k + 1) s = .refused r := by
  have h' : core.step s = .refused r := h
  simp only [Host.Core.run, h']

theorem run_one (s : State) : core.run 1 s = step s := by
  cases h : step s with
  | next t => exact run_succ h 0
  | fault r => exact run_of_fault h 0
  | refused r => exact run_of_refused h 0

/-- A host's write of an instruction's word to CMD while idle, then the engine's turn. -/
theorem run_accept_exec {s : State} {w : Word} {i : Instr} {rest : List HostOp} (hidle : s.busy = false)
    (hturns : s.turns = [.host, .engine]) (hhost : s.host = .write 4 (s.params.base + 0x008) w :: rest)
    (hdec : decode w = .ok i) :
    core.run 2 s = exec i (State.accept { s with host := rest, turns := [] } w) := by
  have hturn : s.turn = .host := by simp [State.turn, hturns]
  have hnext : ((s.tookAccess rest).accept w).turn = .engine := by simp [State.turn, hturns]
  have htook : ((s.tookAccess rest).accept w).takeTurn = State.accept { s with host := rest, turns := [] } w := by
    simp [State.takeTurn, State.tookAccess, State.accept, hturns]
  rw [run_succ (step_write_cmd_of_idle rfl ⟨hturn, hhost⟩ hidle), run_one, ← htook]
  exact engineTurnRunsPending _ w _ i hnext rfl hdec

/-- Settles O24: NOP's `Exec` is `complete()` on the state as it is; a word with OP = 0 that is not 0 has a nonzero RSV (O3). -/
theorem nopCompletes : Obligations.NopCompletes := by
  refine ⟨fun s => rfl, fun s rest hidle hturns hhost => ?_, fun w hop hw => ?_⟩
  · refine ⟨_, run_accept_exec hidle hturns hhost (decode_encode .nop), Bool.true_and _, ?_⟩
    rw [State.busy_eq_false_iff.mp hidle]
    rfl
  · refine (legalWordsAreTheNine w).2.1.mpr fun hrsv => hw ?_
    have hzero : w.toNat = 0 := by omega
    exact BitVec.eq_of_toNat_eq hzero

end Sys2Proof.Machine
end

section
/-! PROOFS. Which errors `Exec` can raise, body by body, and the input-length check before them (R113, R210, R213). -/

namespace Sys2Proof.Machine

/-! ### The errors of each body -/

/-- `r` raises no error but one of `es`. -/
def Result.RaisesOnly (es : List ErrKind) (r : Result) : Prop := ∀ e pos, r.outcome = .error e pos → e ∈ es

theorem Result.complete_raisesOnly (es : List ErrKind) (o : Owned) : (Result.complete o).RaisesOnly es :=
  fun _ _ h => nomatch h

theorem Result.raise_raisesOnly {es : List ErrKind} {e : ErrKind} (he : e ∈ es) (o : Owned) (pos : Nat) :
    (Result.raise o e pos).RaisesOnly es := by
  intro e' pos' h
  cases h
  exact he

/-- R139: Pack raises E_NO_CODE or E_OBUF_OVF. -/
theorem packLoop_raisesOnly (p : Params) (input : List Byte) (i : Nat) (o : Owned) :
    (packLoop p input i o).RaisesOnly [.noCode, .obufOvf] := by
  induction input generalizing i o with
  | nil => exact Result.complete_raisesOnly _ _
  | cons b bs ih =>
    simp only [packLoop]
    split
    · exact Result.raise_raisesOnly (by simp) _ _
    · split
      · exact Result.raise_raisesOnly (by simp) _ _
      · exact ih _ _

/-- R174: LzwLoop raises E_OBUF_OVF or E_DICT_FULL. -/
theorem lzwLoop_raisesOnly (p : Params) (input : List Byte) (i : Nat) (o : Owned) :
    (lzwLoop p input i o).RaisesOnly [.obufOvf, .dictFull] := by
  induction input generalizing i o with
  | nil =>
    simp only [lzwLoop]
    split
    · exact Result.complete_raisesOnly _ _
    · split
      · exact Result.raise_raisesOnly (by simp) _ _
      · exact Result.complete_raisesOnly _ _
  | cons b bs ih =>
    simp only [lzwLoop]
    split
    · exact ih _ _
    · split
      · exact ih _ _
      · split
        · exact Result.raise_raisesOnly (by simp) _ _
        · split
          · exact Result.raise_raisesOnly (by simp) _ _
          · exact ih _ _

/-- R191: RleLoop raises E_OBUF_OVF only. -/
theorem rleLoop_raisesOnly (p : Params) (input : List Byte) (i : Nat) (o : Owned) :
    (rleLoop p input i o).RaisesOnly [.obufOvf] := by
  induction input generalizing i o with
  | nil =>
    simp only [rleLoop]
    split
    · exact Result.raise_raisesOnly (by simp) _ _
    · exact Result.complete_raisesOnly _ _
  | cons b bs ih =>
    simp only [rleLoop]
    split
    · exact ih _ _
    · split
      · exact Result.raise_raisesOnly (by simp) _ _
      · exact ih _ _

theorem rleEncodeBody_raisesOnly (p : Params) (input : List Byte) (o : Owned) :
    (rleEncodeBody p input o).RaisesOnly [.obufOvf] := by
  cases input with
  | nil => exact Result.complete_raisesOnly _ _
  | cons b bs => exact rleLoop_raisesOnly p bs 1 _

/-! ### The length check (R113) -/

/-- R113: the commands that read input stop at the length check. -/
theorem resultOf_of_len_exceeded {p : Params} {x : Snapshot} {i : Instr}
    (hi : i = .hufFreq ∨ i = .hufPack ∨ i = .hufEncode ∨ i = .lzwEncode ∨ i = .rleEncode)
    (hlen : p.ibufBytes < x.inLen.toNat) : resultOf p x i = Result.raise x.own .len 0 := by
  rcases hi with rfl | rfl | rfl | rfl | rfl <;> exact checkLen_raise hlen _

/-- A command that passes the check raises what its body raises. -/
theorem checkLen_raisesOnly {es : List ErrKind} {p : Params} {x : Snapshot} {body : Result}
    (hlen : x.inLen.toNat ≤ p.ibufBytes) (hbody : body.RaisesOnly es) : (checkLen p x body).RaisesOnly es := by
  rwa [checkLen_pass hlen]

/-- The errors that the procedures a command is made of can raise, its length check left out (R139, R174, R191). -/
def bodyErrors : Instr → List ErrKind
  | .nop | .hufFreq | .hufTree | .hufCodes | .softReset => []
  | .hufEncode | .hufPack => [.noCode, .obufOvf]
  | .lzwEncode => [.obufOvf, .dictFull]
  | .rleEncode => [.obufOvf]

theorem len_notMem_bodyErrors (i : Instr) : ErrKind.len ∉ bodyErrors i := by cases i <;> decide

/-- Where the length check passes, or the command makes none, only the command's procedures can raise an error. -/
theorem resultOf_raisesOnly_bodyErrors {p : Params} {x : Snapshot} {i : Instr}
    (hi : i = .nop ∨ i = .hufTree ∨ i = .hufCodes ∨ i = .softReset ∨ x.inLen.toNat ≤ p.ibufBytes) :
    (resultOf p x i).RaisesOnly (bodyErrors i) := by
  cases i with
  | nop | hufTree | hufCodes | softReset => exact Result.complete_raisesOnly _ _
  | hufFreq => exact checkLen_raisesOnly (by simpa using hi) (Result.complete_raisesOnly _ _)
  | hufEncode | hufPack => exact checkLen_raisesOnly (by simpa using hi) (packLoop_raisesOnly _ _ _ _)
  | lzwEncode => exact checkLen_raisesOnly (by simpa using hi) (lzwLoop_raisesOnly _ _ _ _)
  | rleEncode => exact checkLen_raisesOnly (by simpa using hi) (rleEncodeBody_raisesOnly _ _ _)

/-! ### The error a completion leaves (R214) -/

/-- The engine-owned state and the error after an instruction are those its completion wrote: clearing HAZ leaves them. -/
theorem exec_own_error {i : Instr} {s t : State} (h : exec i s = .next t) :
    t.own = (s.complete (resultOf s.params s.snapshot i)).own ∧
    t.status.error = (s.complete (resultOf s.params s.snapshot i)).status.error := by
  rw [exec_eq] at h
  cases h
  split <;> exact ⟨rfl, rfl⟩

/-- An error held after a completion and not before it is one that the command raised. -/
theorem State.complete_error_mem {s : State} {r : Result} {es : List ErrKind} {e : ErrKind} (hs : s.status.error = none)
    (hr : r.RaisesOnly es) (he : (s.complete r).status.error = some e) : e ∈ es := by
  rcases r with ⟨o, _ | ⟨e', pos⟩⟩
  · exact nomatch hs.symm.trans he
  · cases he
    exact hr _ pos rfl

/-- Settles O26: the check is made before the body (R113), and no body raises E_LEN. -/
theorem inputLengthCheck : Obligations.InputLengthCheck := by
  intro s i
  refine ⟨fun hi hlen => ?_, fun hi hs => ⟨_, exec_eq i s, fun hlenError => ?_⟩⟩
  · have hnotReset : i ≠ .softReset := by rintro rfl; simp at hi
    rw [exec_eq, if_neg hnotReset, resultOf_of_len_exceeded hi hlen]
    rfl
  · rw [(exec_own_error (exec_eq i s)).2] at hlenError
    exact len_notMem_bodyErrors i (State.complete_error_mem hs (resultOf_raisesOnly_bodyErrors hi) hlenError)

end Sys2Proof.Machine
end

section
/-! PROOFS. A command's result does not depend on when its completion fires (R76, R112, R262). -/

namespace Sys2Proof.Machine

/-! ### What a completion depends on -/

/-- What `Exec` answers for the pending word `w`, legal or not (R112, R211). -/
def pendingResult (p : Params) (w : Word) (x : Snapshot) : Result :=
  match decode w with
  | .ok i => resultOf p x i
  | .error _ => badCmdResult x

/-- What the engine's turn leaves while BUSY: the engine-owned state and the error of the completion with `pendingResult`, and the
engine idle; it touches neither IN_LEN nor IBUF. -/
theorem step_engine_of_busy {s t : State} {w : Word} {x : Snapshot} (hturn : s.turn = .engine) (hbusy : s.engine = .busy w x)
    (h : step s = .next t) :
    t.own = (s.takeTurn.complete (pendingResult s.params w s.snapshot)).own ∧
    t.status.error = (s.takeTurn.complete (pendingResult s.params w s.snapshot)).status.error ∧
    t.engine = .idle ∧ t.inLen = s.inLen ∧ t.ibuf = s.ibuf := by
  unfold pendingResult
  cases hdec : decode w with
  | ok i =>
    have hexec : exec i s.takeTurn = .next t := (engineTurnRunsPending s w x i hturn hbusy hdec).symm.trans h
    obtain ⟨hown, herror⟩ := exec_own_error hexec
    rw [exec_frame hexec]
    exact ⟨hown, herror, rfl, rfl, rfl⟩
  | error e =>
    rw [step_of_decode_error hturn hbusy hdec] at h
    cases h
    exact ⟨rfl, rfl, rfl, rfl, rfl⟩

/-- Of the state it completes, a completion carries only the error into what it leaves. -/
theorem State.complete_congr {s t : State} (herror : t.status.error = s.status.error) (r : Result) :
    (t.complete r).own = (s.complete r).own ∧ (t.complete r).status.error = (s.complete r).status.error := by
  rcases r with ⟨o, _ | ⟨e, pos⟩⟩
  · exact ⟨rfl, herror⟩
  · exact ⟨rfl, rfl⟩

/-- `t` runs the command that `s` runs: PENDING and SNAP, all that the command reads, and the error held are those of `s`. -/
structure State.SameCommand (s t : State) : Prop where
  snapshot : t.snapshot = s.snapshot
  engine : t.engine = s.engine
  params : t.params = s.params
  error : t.status.error = s.status.error

theorem State.SameCommand.trans {s t u : State} (hst : s.SameCommand t) (htu : t.SameCommand u) : s.SameCommand u where
  snapshot := htu.snapshot.trans hst.snapshot
  engine := htu.engine.trans hst.engine
  params := htu.params.trans hst.params
  error := htu.error.trans hst.error

/-- Two blocks that run the same command complete it alike. -/
theorem State.SameCommand.completes_alike {a b t u : State} (hab : a.SameCommand b) (hbusy : a.busy = true)
    (ha : a.turn = .engine) (hb : b.turn = .engine) (hat : step a = .next t) (hbu : step b = .next u) :
    u.own = t.own ∧ u.status.error = t.status.error ∧ u.engine = .idle ∧ u.inLen = t.inLen ∧ u.ibuf = t.ibuf := by
  obtain ⟨w, x, hengine⟩ := State.busy_iff.mp hbusy
  obtain ⟨htown, hterror, -, htlen, htbuf⟩ := step_engine_of_busy ha hengine hat
  obtain ⟨huown, huerror, huidle, hulen, hubuf⟩ := step_engine_of_busy hb (hab.engine.trans hengine) hbu
  rw [hab.params, hab.snapshot] at huown huerror
  obtain ⟨hown, herror⟩ :=
    State.complete_congr (s := a.takeTurn) (t := b.takeTurn) hab.error (pendingResult a.params w a.snapshot)
  have hlen : b.inLen = a.inLen := congrArg Snapshot.inLen hab.snapshot
  have hbuf : b.ibuf = a.ibuf := congrArg Snapshot.ibuf hab.snapshot
  exact ⟨huown.trans (hown.trans htown.symm), huerror.trans (herror.trans hterror.symm), huidle,
    hulen.trans (hlen.trans htlen.symm), hubuf.trans (hbuf.trans htbuf.symm)⟩

/-! ### The host's moves before it -/

@[simp] theorem State.writeLoc_turns (s : State) (v : Word) (l : Loc) : (s.writeLoc v l).turns = s.turns := by
  rcases s.writeLoc_cases v l with h | ⟨_, _, h⟩ | ⟨_, _, h⟩ | ⟨_, h⟩ | ⟨_, _, h⟩ | ⟨_, h⟩ | ⟨_, _, _, h⟩ <;> simp [h]

/-- The host's access itself leaves the schedule. -/
theorem hostStep_turns {s t : State} (h : hostStep s = .next t) : t.turns = s.turns := by
  rcases hostStep_next h with ⟨-, rfl⟩ | ⟨_, _, _, _, _, _, rfl⟩ | ⟨_, _, _, _, _, rfl⟩ | ⟨_, _, rfl⟩ <;> simp

/-- Every step takes one entry of the schedule. -/
theorem step_turns {s t : State} (h : step s = .next t) : t.turns = s.turns.tail := by
  rcases step_next h with ⟨-, hhost⟩ | ⟨-, -, rfl⟩ | ⟨-, _, _, _, -, -, hexec⟩ | ⟨-, _, _, _, -, -, rfl⟩ | ⟨-, rfl⟩
  · exact hostStep_turns hhost
  · rfl
  · rw [exec_frame hexec]; rfl
  · rfl
  · rfl

/-- A run that answers a next state is a first step and the rest of the run. -/
theorem run_succ_next {s u : State} {k : Nat} (h : core.run (k + 1) s = .next u) :
    ∃ t, step s = .next t ∧ core.run k t = .next u := by
  cases hstep : step s with
  | next t => exact ⟨t, rfl, (run_succ hstep k).symm.trans h⟩
  | fault r => exact nomatch (run_of_fault hstep k).symm.trans h
  | refused r => exact nomatch (run_of_refused hstep k).symm.trans h

/-- While BUSY, after any number of host turns the engine finds the command it had before them. -/
theorem run_hostTurns_engine {s u : State} (n : Nat) (hbusy : s.busy = true)
    (hturns : s.turns = List.replicate n .host ++ [.engine]) (h : core.run (n + 1) s = .next u) :
    ∃ a, s.SameCommand a ∧ a.turn = .engine ∧ step a = .next u := by
  induction n generalizing s with
  | zero => exact ⟨s, ⟨rfl, rfl, rfl, rfl⟩, by simp [State.turn, hturns], (run_one s).symm.trans h⟩
  | succ n ih =>
    obtain ⟨t, hst, htu⟩ := run_succ_next h
    have hturn : s.turn = .host := by simp [State.turn, hturns, List.replicate_succ]
    obtain ⟨hsnap, hengine, hparams, -, herror⟩ := busyFreezesTheInput s t hbusy hturn hst
    have htbusy : t.busy = true := (congrArg Engine.isBusy hengine).trans hbusy
    have htturns : t.turns = List.replicate n .host ++ [.engine] := by
      rw [step_turns hst, hturns, List.replicate_succ]; rfl
    obtain ⟨a, hta, hturn', hau⟩ := ih htbusy htturns htu
    exact ⟨a, State.SameCommand.trans ⟨hsnap, hengine, hparams, herror⟩ hta, hturn', hau⟩

/-- Settles O56: the host's moves leave the command as it was (O55), and its completion depends on nothing else. -/
theorem resultIndependentOfDelay : Obligations.ResultIndependentOfDelay := by
  intro s t u n hbusy hst hsu
  obtain ⟨a, hsame, hturn, hau⟩ :=
    run_hostTurns_engine (s := { s with turns := List.replicate n .host ++ [.engine] }) n hbusy rfl hsu
  have hsame' : State.SameCommand { s with turns := [.engine] } a := ⟨hsame.snapshot, hsame.engine, hsame.params, hsame.error⟩
  exact hsame'.completes_alike hbusy rfl hturn hst hau

end Sys2Proof.Machine
end

section
/-! PROOFS. The engine starts by an acceptance, stops by a completion or a reset (R110), and always stops (R117, R262). -/

namespace Sys2Proof.Machine

/-! ### What moves the engine (R110) -/

/-- A host write leaves the engine as it is, or is an acceptance. -/
theorem State.writeLoc_engine_cases (s : State) (v : Word) (l : Loc) :
    (s.writeLoc v l).engine = s.engine ∨ (s.busy = false ∧ l = .reg .cmd ∧ s.writeLoc v l = s.accept v) := by
  rcases s.writeLoc_cases v l with h | ⟨-, -, h⟩ | haccept | ⟨-, h⟩ | ⟨-, -, h⟩ | ⟨-, h⟩ | ⟨-, _, -, h⟩
  case inr.inr.inl => exact .inr haccept
  all_goals exact .inl (by simp [h])

/-- The host's turn leaves the engine as it is, or is a write to CMD that an idle engine accepts. -/
theorem hostStep_engine_cases {s t : State} (h : hostStep s = .next t) :
    t.engine = s.engine ∨ (s.busy = false ∧ t.busy = true ∧ ∃ addr v rest off, s.host = .write 4 addr v :: rest ∧
      busOffset s.params addr = some off ∧ locAt s.params off = .reg .cmd ∧ t.cmd = v) := by
  rcases hostStep_next h with ⟨-, rfl⟩ | ⟨addr, v, rest, off, hhost, ho, rfl⟩ | ⟨_, _, _, -, -, rfl⟩ | ⟨_, -, rfl⟩
  · exact .inl rfl
  · refine (State.writeLoc_engine_cases { s with host := rest } v (locAt s.params off)).imp_right fun haccept => ?_
    obtain ⟨hidle, hloc, h⟩ := haccept
    rw [h]
    exact ⟨hidle, rfl, addr, v, rest, off, hhost, ho, hloc, rfl⟩
  · exact .inl rfl
  · exact .inl rfl

/-- Settles O60: the host's turn only accepts, the engine's only completes, a reset leaves the engine idle. -/
theorem engineMovesByAcceptanceAndCompletion : Obligations.EngineMovesByAcceptanceAndCompletion := by
  intro s t h
  rcases step_next h with ⟨hturn, hhost⟩ | ⟨-, -, rfl⟩ | ⟨hturn, _, _, _, -, -, hexec⟩ | ⟨hturn, _, _, _, -, -, rfl⟩ |
    ⟨hturn, rfl⟩
  · rcases hostStep_engine_cases hhost with hsame | ⟨hidle, hbusy, addr, v, rest, off, hop, ho, hloc, hcmd⟩
    · have hsameBusy : t.busy = s.busy := congrArg Engine.isBusy hsame
      rw [hsameBusy]
      exact ⟨fun hs ht => absurd (hs.symm.trans ht) Bool.false_ne_true,
        fun hs ht => absurd (ht.symm.trans hs) Bool.false_ne_true⟩
    · refine ⟨fun _ _ => ⟨addr, v, rest, ⟨hturn, hop⟩, hcmd, ?_⟩,
        fun hs _ => absurd (hidle.symm.trans hs) Bool.false_ne_true⟩
      have hoff : off / 4 = 2 := locAt_eq_reg_iff.mp hloc
      have ho' : busOffset s.params addr = some off := ho
      simp only [ho', List.mem_cons, Option.some.injEq, List.not_mem_nil, or_false]
      omega
  · exact ⟨fun hs ht => absurd (hs.symm.trans ht) Bool.false_ne_true,
      fun hs ht => absurd (ht.symm.trans hs) Bool.false_ne_true⟩
  · rw [exec_frame hexec]
    exact ⟨fun _ ht => absurd ht Bool.false_ne_true, fun _ _ => .inl ⟨hturn, rfl⟩⟩
  · rw [State.complete_frame]
    exact ⟨fun _ ht => absurd ht Bool.false_ne_true, fun _ _ => .inl ⟨hturn, rfl⟩⟩
  · exact ⟨fun _ ht => absurd ht Bool.false_ne_true, fun _ _ => .inr hturn⟩

/-! ### A host inside the interface (R61, R62) -/

/-- A host access inside the interface is made. -/
theorem hostStep_of_hostLegal {s : State} (hs : s.HostLegal) : ∃ t, hostStep s = .next t := by
  rcases hhost : s.host with _ | ⟨op, rest⟩
  · exact ⟨s, by simp only [hostStep, hhost]⟩
  have hop : op.legal s.params = true := hs op (by simp [hhost])
  cases op with
  | write bytes addr v =>
    simp only [HostOp.legal, accessWidthOk, Bool.and_eq_true, beq_iff_eq, Option.isSome_iff_exists] at hop
    obtain ⟨rfl, off, ho⟩ := hop
    exact ⟨_, hostStep_write hhost ho⟩
  | read bytes addr =>
    simp only [HostOp.legal, accessWidthOk, Bool.and_eq_true, beq_iff_eq, Option.isSome_iff_exists] at hop
    obtain ⟨rfl, off, ho⟩ := hop
    exact ⟨_, hostStep_read hhost ho⟩
  | wait => exact ⟨_, hostStep_wait hhost⟩

@[simp] theorem State.writeLoc_host (s : State) (v : Word) (l : Loc) : (s.writeLoc v l).host = s.host := by
  rcases s.writeLoc_cases v l with h | ⟨_, _, h⟩ | ⟨_, _, h⟩ | ⟨_, h⟩ | ⟨_, _, h⟩ | ⟨_, h⟩ | ⟨_, _, _, h⟩ <;> simp [h]

/-- The host's turn leaves only accesses that were to be made before it. -/
theorem hostStep_host_subset {s t : State} (h : hostStep s = .next t) : t.host ⊆ s.host := by
  rcases hostStep_next h with ⟨-, rfl⟩ | ⟨_, _, rest, _, hhost, -, rfl⟩ | ⟨_, rest, _, hhost, -, rfl⟩ | ⟨rest, hhost, rfl⟩
  · exact List.Subset.refl _
  · simp [hhost]
  · simp [hhost]
  · simp only [State.hostRead_host]
    split <;> simp [hhost]

theorem step_host_subset {s t : State} (h : step s = .next t) : t.host ⊆ s.host := by
  rcases step_next h with ⟨-, hhost⟩ | ⟨-, -, rfl⟩ | ⟨-, _, _, _, -, -, hexec⟩ | ⟨-, _, _, _, -, -, rfl⟩ | ⟨-, rfl⟩
  · exact hostStep_host_subset (s := s.takeTurn) hhost
  · exact List.Subset.refl _
  · rw [exec_frame hexec]; exact List.Subset.refl _
  · exact List.Subset.refl _
  · exact List.Subset.refl _

/-- A step keeps the host inside the interface. -/
theorem State.HostLegal.step_keeps {s t : State} (hs : s.HostLegal) (h : step s = .next t) : t.HostLegal := by
  intro op hop
  rw [step_params h]
  exact hs op (step_host_subset h hop)

/-- A machine whose host stays inside the interface has a next step (R117, R210). -/
theorem State.HostLegal.exists_step {s : State} (hs : s.HostLegal) : ∃ t, step s = .next t := by
  cases hturn : s.turn with
  | host =>
    obtain ⟨t, ht⟩ := hostStep_of_hostLegal (s := s.takeTurn) hs
    exact ⟨t, (step_host hturn).trans ht⟩
  | engine =>
    rw [step_engine hturn]
    rcases engineStep_cases s.takeTurn with ⟨-, h⟩ | ⟨_, _, i, -, -, h⟩ | ⟨_, _, _, -, -, h⟩
    · exact ⟨_, h⟩
    · exact ⟨_, h.trans (exec_eq i _)⟩
    · exact ⟨_, h⟩
  | hwReset => exact ⟨_, step_hwReset hturn⟩

/-! ### Completion under every schedule (R117, R262) -/

/-- By induction on the schedule: once it has ended, the engine moves, and its move is the completion. -/
theorem exists_run_idle (ts : List Turn) {s : State} (hs : s.HostLegal) (hturns : s.turns = ts) :
    ∃ (k : Nat) (t : State), k ≤ ts.length + 1 ∧ core.run k s = .next t ∧ t.busy = false := by
  induction ts generalizing s with
  | nil =>
    cases hbusy : s.busy with
    | false => exact ⟨0, s, Nat.zero_le _, rfl, hbusy⟩
    | true =>
      obtain ⟨w, x, hengine⟩ := State.busy_iff.mp hbusy
      obtain ⟨t, hst⟩ := hs.exists_step
      have hturn : s.turn = .engine := by simp [State.turn, hturns, hbusy]
      obtain ⟨-, -, hidle, -, -⟩ := step_engine_of_busy hturn hengine hst
      exact ⟨1, t, le_rfl, (run_one s).trans hst, State.busy_idle hidle⟩
  | cons turn ts ih =>
    obtain ⟨t, hst⟩ := hs.exists_step
    have htturns : t.turns = ts := by rw [step_turns hst, hturns, List.tail_cons]
    obtain ⟨k, u, hk, hrun, hidle⟩ := ih (hs.step_keeps hst) htturns
    exact ⟨k + 1, u, Nat.succ_le_succ hk, (run_succ hst k).trans hrun, hidle⟩

/-- Settles O57: `exists_run_idle` with the whole schedule. -/
theorem everyCommandCompletes : Obligations.EveryCommandCompletes :=
  fun s hs => exists_run_idle s.turns hs rfl

end Sys2Proof.Machine
end

section
/-! PROOFS. FreqCount counts its input (R131): FREQ, ORDER and HUF_NSYM, and the sums over them (R142). -/

namespace Sys2Proof.Machine

open Sys2Proof.Reference

/-- `h` holds the counts of `input` (R131, R46): FREQ, ORDER by first occurrence, HUF_NSYM. -/
structure Huffman.CountsOf (input : List Byte) (h : Huffman) : Prop where
  freqOf : ∀ b, (h.freqOf b).toNat = input.count b
  nodup : h.order.Nodup
  mem_order : ∀ b, b ∈ h.order ↔ b ∈ input
  firstOccurrence : h.order.Pairwise fun a b => input.idxOf a < input.idxOf b
  nsym : h.nsym.toNat = h.order.length

/-- FREQ(s) depends on FREQ only. -/
theorem Huffman.freqOf_congr {h k : Huffman} (hf : k.freq = h.freq) : k.freqOf = h.freqOf := by
  funext b
  simp only [Huffman.freqOf, hf]

/-- Counts are FREQ, ORDER and HUF_NSYM only. -/
theorem Huffman.CountsOf.congr {input : List Byte} {h k : Huffman} (hc : h.CountsOf input) (hf : k.freq = h.freq)
    (ho : k.order = h.order) (hn : k.nsym = h.nsym) : k.CountsOf input where
  freqOf b := by rw [Huffman.freqOf_congr hf, hc.freqOf]
  nodup := ho ▸ hc.nodup
  mem_order b := by rw [ho, hc.mem_order]
  firstOccurrence := ho ▸ hc.firstOccurrence
  nsym := by rw [hn, ho, hc.nsym]

/-- There are 256 symbols. -/
theorem length_le_of_nodup_bytes {l : List Byte} (hl : l.Nodup) : l.length ≤ 256 := by
  have h := hl.length_le_card
  rwa [← FinEnum.card_eq_fintypeCard, show FinEnum.card Byte = 256 from rfl] at h

/-- A count is 0 exactly for a symbol that has not occurred (R131). -/
theorem Huffman.CountsOf.freqOf_eq_zero {input : List Byte} {h : Huffman} (hc : h.CountsOf input) {b : Byte} :
    h.freqOf b = 0#32 ↔ b ∉ input := by
  rw [← List.count_eq_zero, ← hc.freqOf, BitVec.toNat_eq, BitVec.toNat_ofNat]

/-- FREQ after one more byte, no count passing the register's width. -/
theorem Huffman.CountsOf.freqOf_count {input : List Byte} {h : Huffman} (hc : h.CountsOf input) (b : Byte)
    (hlen : input.length + 1 < 2 ^ 32) (c : Byte) : ((h.count b).freqOf c).toNat = (input ++ [b]).count c := by
  have hle : input.count b ≤ input.length := List.count_le_length
  rw [Huffman.count_freqOf, List.count_append]
  by_cases hcb : c = b
  · subst hcb
    rw [if_pos rfl, BitVec.toNat_add, hc.freqOf, List.count_singleton_self, BitVec.toNat_ofNat]
    omega
  · rw [if_neg hcb, hc.freqOf, List.count_singleton, if_neg (by simpa using fun e => hcb e.symm), Nat.add_zero]

/-- A further byte does not move the first occurrences of the symbols before it. -/
theorem Huffman.CountsOf.firstOccurrence_append {input : List Byte} {h : Huffman} (hc : h.CountsOf input) (b : Byte) :
    h.order.Pairwise fun a c => (input ++ [b]).idxOf a < (input ++ [b]).idxOf c :=
  hc.firstOccurrence.imp_of_mem fun ha hb hlt => by
    rwa [List.idxOf_append_of_mem ((hc.mem_order _).mp ha), List.idxOf_append_of_mem ((hc.mem_order _).mp hb)]

/-- One pass of FreqCount's loop. -/
theorem Huffman.CountsOf.snoc {input : List Byte} {h : Huffman} (hc : h.CountsOf input) (b : Byte)
    (hlen : input.length + 1 < 2 ^ 32) : (h.count b).CountsOf (input ++ [b]) := by
  by_cases hb : b ∈ input
  · have hnz : h.freqOf b ≠ 0#32 := fun h0 => hc.freqOf_eq_zero.mp h0 hb
    have horder : (h.count b).order = h.order := by rw [Huffman.count_order, if_neg hnz]
    refine ⟨hc.freqOf_count b hlen, horder ▸ hc.nodup, fun c => ?_, horder ▸ hc.firstOccurrence_append b, ?_⟩
    · rw [horder, hc.mem_order, List.mem_append, List.mem_singleton]
      exact ⟨.inl, fun h => h.elim id fun e => e ▸ hb⟩
    · rw [horder, Huffman.count_nsym, if_neg hnz, hc.nsym]
  · have hzero : h.freqOf b = 0#32 := hc.freqOf_eq_zero.mpr hb
    have horder : (h.count b).order = h.order ++ [b] := by rw [Huffman.count_order, if_pos hzero]
    have hnotMem : b ∉ h.order := fun hmem => hb ((hc.mem_order b).mp hmem)
    refine ⟨hc.freqOf_count b hlen, ?_, fun c => ?_, ?_, ?_⟩
    · rw [horder, ← List.concat_eq_append]
      exact hc.nodup.concat hnotMem
    · rw [horder, List.mem_append, List.mem_append, hc.mem_order]
    · rw [horder, List.pairwise_append]
      refine ⟨hc.firstOccurrence_append b, List.pairwise_singleton _ _, fun a ha c hcmem => ?_⟩
      obtain rfl := List.mem_singleton.mp hcmem
      have ha' := (hc.mem_order a).mp ha
      rw [List.idxOf_append_of_mem ha', List.idxOf_append_of_notMem hb]
      exact lt_of_lt_of_le (List.idxOf_lt_length_of_mem ha') (Nat.le_add_right _ _)
    · have hle := length_le_of_nodup_bytes hc.nodup
      rw [horder, Huffman.count_nsym, if_pos hzero, BitVec.toNat_add, hc.nsym, List.length_append,
        List.length_singleton, BitVec.toNat_ofNat]
      omega

/-- R131: FreqCount's loop counts its input. -/
theorem Huffman.countsOf_counts (h : Huffman) (input : List Byte) (hlen : input.length < 2 ^ 32) :
    (input.foldl Huffman.count h.clear).CountsOf input := by
  induction input using List.reverseRecOn with
  | nil => exact ⟨by simp, List.nodup_nil, fun _ => Iff.rfl, List.Pairwise.nil, rfl⟩
  | append_singleton input b ih =>
    rw [List.length_append, List.length_singleton] at hlen
    rw [List.foldl_append]
    exact (ih (by omega)).snoc b hlen

/-! ### Sums over the symbols -/

/-- A sum over the input is a sum over its distinct symbols, each as often as it was counted (R142). -/
theorem Huffman.CountsOf.sum_order {input : List Byte} {h : Huffman} (hc : h.CountsOf input) (f : Byte → Nat) :
    (h.order.map fun b => (h.freqOf b).toNat * f b).sum = (input.map f).sum := by
  have hsame : h.order.toFinset = input.toFinset := by
    ext b
    rw [List.mem_toFinset, List.mem_toFinset, hc.mem_order]
  simp only [hc.freqOf]
  rw [← List.sum_toFinset _ hc.nodup, hsame, Finset.sum_list_map_count]
  rfl

/-- R131: the counts sum to the input's length. -/
theorem Huffman.CountsOf.totalCount_eq {input : List Byte} {h : Huffman} (hc : h.CountsOf input) :
    totalCount h = input.length := by
  have h1 := hc.sum_order fun _ => 1
  simpa [totalCount] using h1

/-- The counts of an input of legal length are well formed (R46). -/
theorem Huffman.CountsOf.countsOk {input : List Byte} {h : Huffman} (hc : h.CountsOf input) (hlen : input.length ≤ 2 ^ 20) :
    h.CountsOk where
  nsym := hc.nsym
  nodup := hc.nodup
  counted b := by rw [hc.mem_order, Ne, hc.freqOf_eq_zero, not_not]
  bounded := hc.totalCount_eq.trans_le hlen

/-! ### HUF_FREQ (R132) -/

@[simp] theorem Snapshot.input_length (x : Snapshot) : x.input.length = x.inLen.toNat := by simp [Snapshot.input]

/-- What FreqCount leaves of the tree, the code table and W. -/
theorem Huffman.counts_clear_frame (h : Huffman) (input : List Byte) :
    let k := input.foldl Huffman.count h.clear
    k.nnodes = 0#32 ∧ k.arena = [] ∧ k.root = Config.noRoot ∧ k.codes = clearedCodes ∧ k.work = h.work := by
  intro k
  have hk : k = _ := Huffman.counts_frame h.clear input
  rw [hk]
  exact ⟨rfl, rfl, rfl, rfl, rfl⟩

/-- What FreqCount makes of a snapshot's input. -/
theorem Snapshot.countsOf_input (x : Snapshot) (h : Huffman) : (x.input.foldl Huffman.count h.clear).CountsOf x.input :=
  Huffman.countsOf_counts h x.input (x.input_length ▸ x.inLen.isLt)

theorem Huffman.codeOf_of_cleared {h : Huffman} (hc : h.codes = clearedCodes) (b : Byte) : h.codeOf b = ⟨false, 0#8, 0#256⟩ := by
  simp [Huffman.codeOf, hc, clearedCodes]

/-- HUF_FREQ on an input of legal length. -/
theorem exec_hufFreq_of_le {s : State} (hlen : s.inLen.toNat ≤ s.params.ibufBytes) :
    exec .hufFreq s = .next (s.finished (freqCount s.snapshot.input s.own)) := by
  rw [exec_eq, if_neg Instr.noConfusion, show resultOf s.params s.snapshot .hufFreq = _ from checkLen_pass hlen _]
  rfl

/-- Settles O27: by `countsOf_counts`, `totalCount_eq` and the frame of the loop. -/
theorem hufFreqCounts : Obligations.HufFreqCounts := by
  intro s hlen
  have hc := s.snapshot.countsOf_input s.own.huf
  obtain ⟨hnnodes, harena, hroot, hcodes, hwork⟩ := s.own.huf.counts_clear_frame s.snapshot.input
  exact ⟨_, _, exec_hufFreq_of_le hlen, hc.freqOf, hc.totalCount_eq.trans s.snapshot.input_length, hc.nodup, hc.mem_order,
    hc.firstOccurrence, hc.nsym, hnnodes, harena, hroot, Huffman.codeOf_of_cleared hcodes, hwork⟩

end Sys2Proof.Machine
end

section
/-! PROOFS. Every step keeps the Huffman chain (R130): a tree belongs to the counts, a code table to the tree. -/

namespace Sys2Proof.Machine

open Sys2Proof.Reference

/-! ### FreqCount, BuildTree and GenCodes keep the chain -/

/-- Cleared Huffman state is a chain (R116, R131). -/
theorem Huffman.clear_chainOk {h : Huffman} (hwork : h.work = []) : h.clear.ChainOk where
  nsym := rfl
  nodup := List.nodup_nil
  counted b := by rw [Huffman.clear_freqOf]; simp
  bounded := Nat.zero_le _
  work := hwork
  tree := .inl ⟨rfl, rfl, rfl⟩
  codes := .inl rfl

/-- Fresh counts, with neither tree nor codes, are a chain (R131). -/
theorem Huffman.counts_chainOk {h : Huffman} (hwork : h.work = []) {input : List Byte} (hlen : input.length ≤ 2 ^ 20) :
    (input.foldl Huffman.count h.clear).ChainOk := by
  obtain ⟨hnnodes, harena, hroot, hcodes, hwork'⟩ := h.counts_clear_frame input
  exact { (Huffman.countsOf_counts h input (by omega)).countsOk hlen with
    work := hwork'.trans hwork, tree := .inl ⟨harena, hnnodes, hroot⟩, codes := .inl hcodes }

/-- Well-formed counts depend on FREQ, ORDER and HUF_NSYM only. -/
theorem Huffman.CountsOk.congr {h k : Huffman} (hh : h.CountsOk) (hf : k.freq = h.freq) (ho : k.order = h.order)
    (hn : k.nsym = h.nsym) : k.CountsOk where
  nsym := by rw [hn, ho, hh.nsym]
  nodup := ho ▸ hh.nodup
  counted b := by rw [ho, Huffman.freqOf_congr hf, hh.counted]
  bounded := by
    rw [totalCount, Huffman.freqOf_congr hf, ho]
    exact hh.bounded

theorem Huffman.CountsOk.buildTree {h : Huffman} (hh : h.CountsOk) : (buildTree h).CountsOk :=
  hh.congr (buildTree_freq h) (buildTree_order h) (buildTree_nsym h)

/-- A tree stays current where FREQ, ORDER, HUF_NSYM and the tree are kept. -/
theorem Huffman.TreeCurrent.congr {h k : Huffman} (hh : h.TreeCurrent) (hf : k.freq = h.freq) (ho : k.order = h.order)
    (hn : k.nsym = h.nsym) (ha : k.arena = h.arena) (hnn : k.nnodes = h.nnodes) (hr : k.root = h.root) : k.TreeCurrent := by
  rw [Huffman.TreeCurrent, buildTree_congr hf ho hn, ha, hnn, hr]
  exact hh

/-- R135: HUF_TREE issued twice gives the same tree. -/
theorem buildTree_treeCurrent (h : Huffman) : (buildTree h).TreeCurrent := by
  rw [Huffman.TreeCurrent, buildTree_congr (buildTree_freq h) (buildTree_order h) (buildTree_nsym h)]
  exact ⟨rfl, rfl, rfl⟩

theorem Huffman.CountsOk.buildTree_chainOk {h : Huffman} (hh : h.CountsOk) : (Machine.buildTree h).ChainOk :=
  { hh.buildTree with
    work := buildTree_work h, tree := .inr (buildTree_treeCurrent h), codes := .inl (buildTree_codes h) }

/-- GenCodes gives the table of the tree, which it keeps (R138). -/
theorem Huffman.ChainOk.genCodes {h : Huffman} (hh : h.ChainOk) : (genCodes h).ChainOk :=
  { hh.toCountsOk.congr (k := Machine.genCodes h) rfl rfl rfl with
    work := hh.work
    tree := hh.tree.imp id fun hcurrent => hcurrent.congr rfl rfl rfl rfl rfl rfl
    codes := .inr rfl }

/-! ### The commands -/

/-- Pack leaves the Huffman state (R139). -/
@[simp] theorem pack_huf (p : Params) (input : List Byte) (o : Owned) : (pack p input o).own.huf = o.huf := by rw [pack_frame]

/-- HUF_ENCODE's tables: those of its first three steps (R141). -/
theorem hufEncodeBody_huf (p : Params) (input : List Byte) (o : Owned) :
    (hufEncodeBody p input o).own.huf = genCodes (buildTree (input.foldl Huffman.count o.huf.clear)) := by
  simp only [hufEncodeBody, pack_huf]
  rfl

/-- A command that checks its input length keeps the chain if its body does. -/
theorem checkLen_chainOk {p : Params} {x : Snapshot} {body : Result} (hx : x.own.huf.ChainOk)
    (hbody : x.inLen.toNat ≤ p.ibufBytes → body.own.huf.ChainOk) : (checkLen p x body).own.huf.ChainOk := by
  rcases Nat.lt_or_ge p.ibufBytes x.inLen.toNat with hlen | hlen
  · rwa [checkLen_raise hlen]
  · rw [checkLen_pass hlen]
    exact hbody hlen

theorem resultOf_chainOk {p : Params} (hp : p.wf = true) {x : Snapshot} (hx : x.own.huf.ChainOk) (i : Instr) :
    (resultOf p x i).own.huf.ChainOk := by
  obtain ⟨-, hibuf, -, -⟩ := Params.bufferSizes_of_wf hp
  have hcounts : x.inLen.toNat ≤ p.ibufBytes → (x.input.foldl Huffman.count x.own.huf.clear).ChainOk := fun hlen =>
    Huffman.counts_chainOk hx.work (by rw [x.input_length]; omega)
  have hkept : ∀ {i : Instr}, i ≠ .softReset → i ∉ [.hufEncode, .hufFreq, .hufTree, .hufCodes] →
      (resultOf p x i).own.huf.ChainOk := fun hi hhuf => (resultOf_keeps p x hi).huf hhuf ▸ hx
  cases i with
  | nop | hufPack | lzwEncode | rleEncode => exact hkept (by decide) (by decide)
  | hufFreq => exact checkLen_chainOk hx hcounts
  | hufTree => exact hx.toCountsOk.buildTree_chainOk
  | hufCodes => exact hx.genCodes
  | hufEncode =>
    refine checkLen_chainOk hx fun hlen => ?_
    rw [hufEncodeBody_huf]
    exact (hcounts hlen).toCountsOk.buildTree_chainOk.genCodes
  | softReset => exact Huffman.clear_chainOk hx.work

/-! ### The step -/

/-- No host write touches the Huffman state. -/
@[simp] theorem State.writeLoc_huf (s : State) (v : Word) (l : Loc) : (s.writeLoc v l).own.huf = s.own.huf := by
  rcases s.writeLoc_cases v l with h | ⟨_, _, h⟩ | ⟨_, _, h⟩ | ⟨_, h⟩ | ⟨_, _, h⟩ | ⟨_, h⟩ | ⟨_, _, _, h⟩ <;> simp [h]

/-- The host's turn leaves the Huffman state. -/
theorem hostStep_huf {s t : State} (h : hostStep s = .next t) : t.own.huf = s.own.huf := by
  rcases hostStep_next h with ⟨-, rfl⟩ | ⟨_, _, _, _, _, _, rfl⟩ | ⟨_, _, _, _, _, rfl⟩ | ⟨_, _, rfl⟩ <;> simp

/-- Settles O53: by who moves; a command keeps the chain by `resultOf_chainOk`, a reset starts it afresh. -/
theorem stepKeepsHuffmanChain : Obligations.StepKeepsHuffmanChain := by
  intro s t hp hs h
  rcases step_next h with ⟨-, hhost⟩ | ⟨-, -, rfl⟩ | ⟨-, _, _, i, -, -, hexec⟩ | ⟨-, _, _, _, -, -, rfl⟩ | ⟨-, rfl⟩
  · exact hostStep_huf hhost ▸ hs
  · exact hs
  · rw [exec_own hexec]
    exact resultOf_chainOk hp hs i
  · exact hs
  · exact Huffman.reset_chainOk

end Sys2Proof.Machine
end

section
/-! PROOFS. The node arena read as a graph, and R134's selection: what an appended node changes, what `leastKey` finds. -/

namespace Sys2Proof.Machine

open Sys2Proof.Reference

/-! ### Children and counts in an arena that grows -/

theorem isChild_lt_length {arena : List Node} {n i : Nat} (h : isChild arena n i) : n < arena.length := by
  obtain ⟨a, b, hn, -⟩ := h
  by_contra hlt
  rw [List.getElem?_eq_none (Nat.not_lt.mp hlt)] at hn
  cases hn

/-- A node that is made next has the children it is given, and no other node's children change. -/
theorem isChild_append_internal {arena : List Node} {f : Word} {a b : BitVec 9} {n i : Nat} :
    isChild (arena ++ [⟨f, .internal a b⟩]) n i ↔
      isChild arena n i ∨ (n = arena.length ∧ (a.toNat = i ∨ b.toNat = i)) := by
  rcases Nat.lt_trichotomy n arena.length with hlt | rfl | hgt
  · simp [isChild, List.getElem?_append_left hlt, hlt.ne]
  · have hnone : ¬ isChild arena arena.length i := fun h => lt_irrefl _ (isChild_lt_length h)
    simp only [hnone, false_or, true_and]
    simp [isChild]
  · have hnew : ¬ isChild (arena ++ [⟨f, .internal a b⟩]) n i := fun h => by
      have hlt := isChild_lt_length h
      rw [List.length_append, List.length_singleton] at hlt
      omega
    have hold : ¬ isChild arena n i := fun h => absurd (isChild_lt_length h) (by omega)
    simp [hnew, hold, hgt.ne']

theorem nfreqAt_append {arena : List Node} (nd : Node) {i : Nat} (hi : i < arena.length) :
    nfreqAt (arena ++ [nd]) i = nfreqAt arena i := by
  simp only [nfreqAt, List.getElem?_append_left hi]

@[simp] theorem nfreqAt_append_length (arena : List Node) (nd : Node) :
    nfreqAt (arena ++ [nd]) arena.length = nd.nfreq.toNat := by
  simp [nfreqAt]

theorem keyLess_append {arena : List Node} (nd : Node) {i j : Nat} (hi : i < arena.length) (hj : j < arena.length) :
    keyLess (arena ++ [nd]) i j ↔ keyLess arena i j := by
  rw [keyLess, keyLess, nfreqAt_append nd hi, nfreqAt_append nd hj]

/-- Who waits when node `n` is made is not changed by a later node. -/
theorem waiting_append {arena : List Node} {f : Word} {a b : BitVec 9} {k n i : Nat} (hn : n ≤ arena.length) :
    waiting (arena ++ [⟨f, .internal a b⟩]) k n i ↔ waiting arena k n i := by
  refine and_congr_right fun _ => forall₃_congr fun m _ hm => ?_
  rw [isChild_append_internal, or_iff_left fun h => by omega]

/-! ### A forest over the symbols' leaves -/

/-- The arena is a forest over the leaves of ORDER: the leaves come first, and every other node comes after its children, with
the sum of their counts (R136). -/
structure Huffman.Forest (h : Huffman) : Prop where
  planted : h.order.length ≤ h.arena.length
  leaves : ∀ (j : Nat) (s : Byte), h.order[j]? = some s → h.arena[j]? = some ⟨h.freqOf s, .leaf s⟩
  internals : ∀ n : Nat, h.order.length ≤ n → n < h.arena.length → ∃ f a b,
    h.arena[n]? = some ⟨f, .internal a b⟩ ∧ a.toNat < n ∧ b.toNat < n ∧
      f.toNat = nfreqAt h.arena a.toNat + nfreqAt h.arena b.toNat

namespace Huffman.Forest

variable {h : Huffman} (hf : h.Forest)
include hf

/-- An internal node comes after the leaves and after its children. -/
theorem internal_bounds {n : Nat} {a b : BitVec 9} (hn : (h.arena[n]?).map Node.kind = some (.internal a b)) :
    h.order.length ≤ n ∧ n < h.arena.length ∧ a.toNat < n ∧ b.toNat < n := by
  obtain ⟨nd, hnd, hkind⟩ := Option.map_eq_some_iff.mp hn
  have hlt : n < h.arena.length := (List.getElem?_eq_some_iff.mp hnd).1
  have hle : h.order.length ≤ n := by
    by_contra hgt
    rw [hf.leaves n _ (List.getElem?_eq_getElem (Nat.not_le.mp hgt))] at hnd
    cases hnd
    cases hkind
  obtain ⟨f', a', b', hn', ha', hb', -⟩ := hf.internals n hle hlt
  rw [hn'] at hnd
  cases hnd
  cases hkind
  exact ⟨hle, hlt, ha', hb'⟩

/-- The leaf at an index is that of ORDER's symbol there. -/
theorem leaf_iff {j : Nat} {s : Byte} : (h.arena[j]?).map Node.kind = some (.leaf s) ↔ h.order[j]? = some s := by
  refine ⟨fun hj => ?_, fun hs => by rw [hf.leaves j s hs]; rfl⟩
  obtain ⟨nd, hnd, hkind⟩ := Option.map_eq_some_iff.mp hj
  rcases Nat.lt_or_ge j h.order.length with hlt | hge
  · have hsym := List.getElem?_eq_getElem hlt
    rw [hf.leaves j _ hsym] at hnd
    cases hnd
    cases hkind
    exact hsym
  · obtain ⟨f, a, b, hn, -⟩ := hf.internals j hge (List.getElem?_eq_some_iff.mp hnd).1
    rw [hn] at hnd
    cases hnd
    cases hkind

/-- A node with a child is no leaf, and comes after its child. -/
theorem isChild_bounds {n i : Nat} (hc : isChild h.arena n i) : h.order.length ≤ n ∧ i < n ∧ n < h.arena.length := by
  obtain ⟨a, b, hn, hi⟩ := hc
  have := hf.internal_bounds hn
  omega

end Huffman.Forest

/-! ### The least key (R134) -/

theorem keyLt_iff {arena : List Node} {i j : Nat} : keyLt arena i j = true ↔ keyLess arena i j := by
  simp [keyLt, keyLess]

theorem keyLess_trans {arena : List Node} {i j l : Nat} (hij : keyLess arena i j) (hjl : keyLess arena j l) :
    keyLess arena i l := by
  unfold keyLess at *
  omega

theorem keyLess_of_not {arena : List Node} {i j : Nat} (h : ¬ keyLess arena i j) (hne : i ≠ j) : keyLess arena j i := by
  unfold keyLess at *
  omega

/-- `a` is the element of `w` with the least key (R134). -/
def IsLeastKey (arena : List Node) (w : List Nat) (a : Nat) : Prop := a ∈ w ∧ ∀ i ∈ w, i ≠ a → keyLess arena a i

theorem leastKey_eq_none {arena : List Node} {w : List Nat} : leastKey arena w = none ↔ w = [] := by
  cases w with
  | nil => simp [leastKey]
  | cons i w =>
    simp only [leastKey]
    split
    · simp
    · split <;> simp

theorem leastKey_eq_some {arena : List Node} {w : List Nat} {a : Nat} (h : leastKey arena w = some a) :
    IsLeastKey arena w a := by
  induction w generalizing a with
  | nil => cases h
  | cons i w ih =>
    simp only [leastKey] at h
    split at h
    · obtain rfl := Option.some.inj h
      obtain rfl := leastKey_eq_none.mp ‹_›
      exact ⟨List.mem_singleton_self _, fun j hj hne => absurd (List.mem_singleton.mp hj) hne⟩
    · next j hj =>
      obtain ⟨hmem, hleast⟩ := ih hj
      split at h
      · next hlt =>
        obtain rfl := Option.some.inj h
        refine ⟨List.mem_cons_of_mem _ hmem, fun l hl hne => ?_⟩
        rcases List.mem_cons.mp hl with rfl | hl
        · exact keyLt_iff.mp hlt
        · exact hleast l hl hne
      · next hlt =>
        obtain rfl := Option.some.inj h
        have hnot : ¬ keyLess arena j i := fun hless => hlt (keyLt_iff.mpr hless)
        refine ⟨List.mem_cons_self, fun l hl hne => ?_⟩
        have hlw : l ∈ w := (List.mem_cons.mp hl).resolve_left hne
        by_cases hlj : l = j
        · exact hlj ▸ keyLess_of_not hnot (hlj ▸ hne)
        · by_cases hji : j = i
          · exact hji ▸ hleast l hlw hlj
          · exact keyLess_trans (keyLess_of_not hnot hji) (hleast l hlw hlj)

end Sys2Proof.Machine
end

section
/-! PROOFS. BuildTree's loop (R135): the invariant of a partly merged collection, and that each merge keeps it. -/

namespace Sys2Proof.Machine

open Sys2Proof.Reference

/-- What holds between the merges of BuildTree: the arena is a forest of which W holds the roots, each merge so far having taken
the least two. -/
structure Huffman.Merging (h : Huffman) : Prop extends Huffman.Forest h where
  /-- A merge takes two nodes from W and adds one. -/
  size : h.arena.length + h.work.length = 2 * h.order.length
  symbols : h.order.length ≤ 256
  nnodes : h.nnodes.toNat = h.arena.length
  nodup : h.work.Nodup
  /-- W holds the nodes that are no one's child. -/
  mem_work : ∀ i, i ∈ h.work ↔ i < h.arena.length ∧ ∀ n, ¬ isChild h.arena n i
  oneParent : ∀ i m n, isChild h.arena m i → isChild h.arena n i → m = n
  weight : (h.work.map (nfreqAt h.arena)).sum = totalCount h
  bounded : totalCount h ≤ 2 ^ 20
  selects : SelectsLeast h

/-- The nodes waiting for the next merge are those of W. -/
theorem Huffman.Merging.waiting_next {h : Huffman} (hm : h.Merging) {i : Nat} :
    waiting h.arena h.order.length h.arena.length i ↔ i ∈ h.work := by
  rw [hm.mem_work]
  refine and_congr_right fun _ => ⟨fun hw n hc => ?_, fun hw n _ _ => hw n⟩
  obtain ⟨hle, -, hlt⟩ := hm.isChild_bounds hc
  exact hw n hle hlt hc

/-! ### One merge -/

/-- `a` and `b` are the nodes R134 selects from W. -/
structure Huffman.Selected (h : Huffman) (a b : Nat) : Prop where
  first : IsLeastKey h.arena h.work a
  second : IsLeastKey h.arena (h.work.erase a) b

/-- A merge of selected nodes, by the facts about the nodes that the invariant gives. -/
structure Huffman.MergeOf (h : Huffman) (a b : Nat) (f : Word) (l r : BitVec 9) : Prop where
  arena : (h.merge a b).arena = h.arena ++ [⟨f, .internal l r⟩]
  work : (h.merge a b).work = (h.work.erase a).erase b ++ [h.arena.length]
  nnodes : (h.merge a b).nnodes.toNat = h.arena.length + 1
  left : l.toNat = a
  right : r.toNat = b
  freq : f.toNat = nfreqAt h.arena a + nfreqAt h.arena b

namespace Huffman.Selected

variable {h : Huffman} {a b : Nat} (hs : h.Selected a b)
include hs

theorem length_erase : ((h.work.erase a).erase b).length + 2 = h.work.length := by
  have h1 := List.length_erase_add_one hs.first.1
  have h2 := List.length_erase_add_one hs.second.1
  omega

variable (hm : h.Merging)
include hm

theorem ne : b ≠ a := (hm.nodup.mem_erase_iff.mp hs.second.1).1

theorem mem_right : b ∈ h.work := (hm.nodup.mem_erase_iff.mp hs.second.1).2

theorem left_lt : a < h.arena.length := ((hm.mem_work a).mp hs.first.1).1

theorem right_lt : b < h.arena.length := ((hm.mem_work b).mp (hs.mem_right hm)).1

/-- The weight of W, the selected nodes taken apart. -/
theorem weight_split : nfreqAt h.arena a + (nfreqAt h.arena b + (((h.work.erase a).erase b).map (nfreqAt h.arena)).sum) =
    totalCount h := by
  rw [List.sum_map_erase _ hs.second.1, List.sum_map_erase _ hs.first.1, hm.weight]

theorem length_lt : h.arena.length + 2 ≤ 2 * h.order.length := by
  have := hs.length_erase
  have := hm.size
  omega

/-- No index or count of the new node passes its width (R47). -/
theorem mergeOf : ∃ f l r, h.MergeOf a b f l r := by
  have hsum := hs.weight_split hm
  have hbound := hm.bounded
  have hlen := hs.length_lt hm
  have hsym := hm.symbols
  have hleft := hs.left_lt hm
  have hright := hs.right_lt hm
  refine ⟨_, _, _, rfl, by rw [← hm.nnodes]; rfl, ?_, ?_, ?_, ?_⟩
  · show (h.nnodes + 1#32).toNat = _
    rw [BitVec.toNat_add, hm.nnodes, BitVec.toNat_ofNat]
    omega
  all_goals
    rw [BitVec.toNat_ofNat]
    exact Nat.mod_eq_of_lt (by omega)

end Huffman.Selected

namespace Huffman.MergeOf

variable {h : Huffman} {a b : Nat} {f : Word} {l r : BitVec 9} (hn : h.MergeOf a b f l r)
include hn

/-- The new node is the parent of the two selected ones, and nothing else changes. -/
theorem isChild_iff {n i : Nat} :
    isChild (h.merge a b).arena n i ↔ isChild h.arena n i ∨ (n = h.arena.length ∧ (i = a ∨ i = b)) := by
  rw [hn.arena, isChild_append_internal, hn.left, hn.right, eq_comm (a := a), eq_comm (a := b)]

variable (hs : h.Selected a b) (hm : h.Merging)
include hs hm

theorem mem_work {i : Nat} : i ∈ (h.merge a b).work ↔
    i < (h.merge a b).arena.length ∧ ∀ n, ¬ isChild (h.merge a b).arena n i := by
  have hleft := hs.left_lt hm
  have hright := hs.right_lt hm
  have herase : i ∈ (h.work.erase a).erase b ↔ i ≠ b ∧ i ≠ a ∧ i ∈ h.work := by
    rw [(hm.nodup.erase a).mem_erase_iff, hm.nodup.mem_erase_iff]
  have hnone : ∀ n, ¬ isChild h.arena n h.arena.length := fun n hc => by
    have := hm.isChild_bounds hc
    omega
  simp only [hn.isChild_iff, not_or, forall_and]
  rw [hn.work, hn.arena, List.mem_append, List.mem_singleton, herase, hm.mem_work, List.length_append,
    List.length_singleton]
  constructor
  · rintro (⟨hb, ha, hlt, hc⟩ | rfl)
    · exact ⟨by omega, hc, fun n => by tauto⟩
    · exact ⟨by omega, hnone, fun n => by omega⟩
  · rintro ⟨hlt, hc, hnew⟩
    have hnew := hnew h.arena.length
    by_cases hi : i = h.arena.length
    · exact .inr hi
    · exact .inl ⟨by tauto, by tauto, by omega, hc⟩

theorem selects : SelectsLeast (h.merge a b) := by
  intro n f' l' r' hnode
  have hlt : n < h.arena.length + 1 := by
    by_contra hge
    rw [hn.arena, List.getElem?_eq_none (by simpa using hge)] at hnode
    cases hnode
  have hwait : ∀ i, waiting (h.merge a b).arena (h.merge a b).order.length n i ↔ waiting h.arena h.order.length n i := by
    intro i
    rw [hn.arena]
    exact waiting_append (by omega)
  have hkey : ∀ {i j}, waiting h.arena h.order.length n i → waiting h.arena h.order.length n j → keyLess h.arena i j →
      keyLess (h.merge a b).arena i j := by
    intro i j hi hj hless
    rw [hn.arena]
    exact (keyLess_append _ (by have := hi.1; omega) (by have := hj.1; omega)).mpr hless
  simp only [hwait]
  by_cases hnew : n = h.arena.length
  · subst hnew
    rw [hn.arena, List.getElem?_append_right le_rfl, Nat.sub_self] at hnode
    cases hnode
    rw [hn.left, hn.right]
    have hwa := hm.waiting_next.mpr hs.first.1
    have hwb := hm.waiting_next.mpr (hs.mem_right hm)
    refine ⟨hwa, hwb, fun e => hs.ne hm (by rw [← hn.left, ← hn.right, e]), fun i hi hia => ?_, fun i hi hia hib => ?_⟩
    · exact hkey hwa hi (hs.first.2 i (hm.waiting_next.mp hi) hia)
    · exact hkey hwb hi (hs.second.2 i (hm.nodup.mem_erase_iff.mpr ⟨hia, hm.waiting_next.mp hi⟩) hib)
  · rw [hn.arena, List.getElem?_append_left (by omega)] at hnode
    obtain ⟨hwl, hwr, hne, hleast, hnext⟩ := hm.selects n f' l' r' hnode
    exact ⟨hwl, hwr, hne, fun i hi hil => hkey hwl hi (hleast i hi hil),
      fun i hi hil hir => hkey hwr hi (hnext i hi hil hir)⟩

theorem weight : ((h.merge a b).work.map (nfreqAt (h.merge a b).arena)).sum = totalCount h := by
  have hold : ((h.work.erase a).erase b).map (nfreqAt (h.merge a b).arena) =
      ((h.work.erase a).erase b).map (nfreqAt h.arena) := by
    refine List.map_congr_left fun i hi => ?_
    rw [hn.arena]
    exact nfreqAt_append _ ((hm.mem_work i).mp (List.mem_of_mem_erase (List.mem_of_mem_erase hi))).1
  have hnew : nfreqAt (h.merge a b).arena h.arena.length = f.toNat := by rw [hn.arena, nfreqAt_append_length]
  rw [hn.work, List.map_append, List.sum_append, hold, List.map_singleton, List.sum_singleton, hnew, hn.freq,
    ← hs.weight_split hm]
  omega

theorem internals (n : Nat) (hle : h.order.length ≤ n) (hlt : n < (h.merge a b).arena.length) : ∃ f l r,
    (h.merge a b).arena[n]? = some ⟨f, .internal l r⟩ ∧ l.toNat < n ∧ r.toNat < n ∧
      f.toNat = nfreqAt (h.merge a b).arena l.toNat + nfreqAt (h.merge a b).arena r.toNat := by
  rw [hn.arena, List.length_append, List.length_singleton] at hlt
  rw [hn.arena]
  by_cases hnew : n = h.arena.length
  · subst hnew
    have hleft := hs.left_lt hm
    have hright := hs.right_lt hm
    refine ⟨f, l, r, by simp, hn.left ▸ hleft, hn.right ▸ hright, ?_⟩
    rw [hn.left, hn.right, nfreqAt_append _ hleft, nfreqAt_append _ hright, hn.freq]
  · obtain ⟨f', l', r', hnode, hl, hr, hf⟩ := hm.internals n hle (by omega)
    refine ⟨f', l', r', ?_, hl, hr, ?_⟩
    · rw [List.getElem?_append_left (by omega), hnode]
    · rw [nfreqAt_append _ (by omega), nfreqAt_append _ (by omega), hf]

theorem oneParent (i m n : Nat) (hmc : isChild (h.merge a b).arena m i) (hnc : isChild (h.merge a b).arena n i) : m = n := by
  rw [hn.isChild_iff] at hmc hnc
  have hroot : ∀ j, i = a ∨ i = b → ¬ isChild h.arena j i := by
    rintro j (rfl | rfl)
    · exact ((hm.mem_work _).mp hs.first.1).2 j
    · exact ((hm.mem_work _).mp (hs.mem_right hm)).2 j
  rcases hmc with hmc | ⟨rfl, hi⟩ <;> rcases hnc with hnc | ⟨rfl, hi'⟩
  · exact hm.oneParent i m n hmc hnc
  · exact absurd hmc (hroot m hi')
  · exact absurd hnc (hroot n hi)
  · rfl

theorem forest : (h.merge a b).Forest where
  planted := by
    rw [hn.arena, List.length_append]
    exact le_trans hm.planted (Nat.le_add_right _ _)
  leaves j s hj := by
    have hleaf := hm.leaves j s hj
    have hlt : j < h.arena.length := (List.getElem?_eq_some_iff.mp hleaf).1
    rw [hn.arena, List.getElem?_append_left hlt]
    exact hleaf
  internals := hn.internals hs hm

/-- A merge of the selected nodes keeps the invariant. -/
theorem merging : (h.merge a b).Merging where
  toForest := hn.forest hs hm
  size := by
    have := hm.size
    have := hs.length_erase
    show _ = 2 * h.order.length
    simp only [hn.arena, hn.work, List.length_append, List.length_singleton]
    omega
  symbols := hm.symbols
  nnodes := by rw [hn.nnodes, hn.arena, List.length_append, List.length_singleton]
  nodup := by
    rw [hn.work, ← List.concat_eq_append]
    refine ((hm.nodup.erase a).erase b).concat fun hmem => ?_
    exact lt_irrefl _ ((hm.mem_work _).mp (List.mem_of_mem_erase (List.mem_of_mem_erase hmem))).1
  mem_work _ := hn.mem_work hs hm
  oneParent := hn.oneParent hs hm
  weight := hn.weight hs hm
  bounded := hm.bounded
  selects := hn.selects hs hm

end Huffman.MergeOf

/-! ### The loop -/

/-- R133: leaf `j` is the symbol ORDER(j) with its count. -/
theorem Huffman.CountsOk.plantLeaves_arena {h : Huffman} (hh : h.CountsOk) :
    h.plantLeaves.arena = h.order.map fun s => ⟨h.freqOf s, .leaf s⟩ := by
  refine List.ext_getElem (by simp [Huffman.plantLeaves, hh.nsym]) fun j h1 h2 => ?_
  rw [List.length_map] at h2
  simp [Huffman.plantLeaves, Huffman.leafNode, List.getElem?_eq_getElem h2]

/-- The NFREQ column of an arena. -/
theorem map_nfreqAt_range (arena : List Node) :
    (List.range arena.length).map (nfreqAt arena) = arena.map fun n => n.nfreq.toNat :=
  List.ext_getElem (by simp) fun j h1 h2 => by
    rw [List.length_map] at h2
    simp [nfreqAt, List.getElem?_eq_getElem h2]

/-- The leaves alone, all of them waiting (R133). -/
theorem Huffman.CountsOk.plantLeaves_merging {h : Huffman} (hh : h.CountsOk) : h.plantLeaves.Merging := by
  have harena := hh.plantLeaves_arena
  have hlen : h.plantLeaves.arena.length = h.order.length := by rw [harena, List.length_map]
  have hwork : h.plantLeaves.work = List.range h.plantLeaves.arena.length := by
    rw [hlen, ← hh.nsym]
    rfl
  have hleaf : ∀ {n : Nat} {nd : Node}, h.plantLeaves.arena[n]? = some nd → ∃ s, nd.kind = .leaf s := by
    intro n nd hnd
    rw [harena, List.getElem?_map, Option.map_eq_some_iff] at hnd
    obtain ⟨s, -, rfl⟩ := hnd
    exact ⟨s, rfl⟩
  have hnoChild : ∀ n i, ¬ isChild h.plantLeaves.arena n i := by
    rintro n i ⟨a, b, hn, -⟩
    obtain ⟨nd, hnd, hkind⟩ := Option.map_eq_some_iff.mp hn
    obtain ⟨s, hs⟩ := hleaf hnd
    rw [hs] at hkind
    cases hkind
  refine
    { size := ?_, planted := hlen.ge, symbols := length_le_of_nodup_bytes hh.nodup, nnodes := hh.nsym.trans hlen.symm
      leaves := fun j s hj => ?_, internals := fun n hle hlt => absurd hlt (Nat.not_lt.mpr (hlen.trans_le hle))
      nodup := hwork ▸ List.nodup_range, mem_work := fun i => ?_, oneParent := fun i m n hc => absurd hc (hnoChild m i)
      weight := ?_, bounded := hh.bounded, selects := fun n f a b hn => ?_ }
  · rw [harena, List.getElem?_map, show h.order[j]? = some s from hj]
    rfl
  · rw [hwork, List.length_range, hlen]
    exact (Nat.two_mul _).symm
  · rw [hwork, List.mem_range]
    exact ⟨fun hlt => ⟨hlt, fun n => hnoChild n i⟩, And.left⟩
  · rw [hwork, map_nfreqAt_range, harena, List.map_map]
    rfl
  · obtain ⟨s, hs⟩ := hleaf hn
    cases hs

/-- BuildTree's loop, with a bound that is enough, ends with at most one node in W. -/
theorem mergeLoop_merging (n : Nat) {h : Huffman} (hm : h.Merging) (hn : h.work.length ≤ n + 1) :
    (mergeLoop n h).Merging ∧ (mergeLoop n h).work.length ≤ 1 := by
  induction n generalizing h with
  | zero => exact ⟨hm, hn⟩
  | succ n ih =>
    simp only [mergeLoop]
    split
    · next hnone =>
      rw [leastKey_eq_none] at hnone
      exact ⟨hm, by simp [hnone]⟩
    · next a ha =>
      have hfirst := leastKey_eq_some ha
      split
      · next hnone =>
        rw [leastKey_eq_none] at hnone
        have hlen := List.length_erase_add_one hfirst.1
        rw [hnone] at hlen
        exact ⟨hm, hlen.ge⟩
      · next b hb =>
        have hs : h.Selected a b := ⟨hfirst, leastKey_eq_some hb⟩
        obtain ⟨f, l, r, hmerge⟩ := hs.mergeOf hm
        have hlen := hs.length_erase
        refine ih (hmerge.merging hs hm) ?_
        rw [hmerge.work, List.length_append, List.length_singleton]
        omega

end Sys2Proof.Machine
end

section
/-! PROOFS. Paths in the arena (R137): what a bit-string leads to, and how long it can be (R136). -/

namespace Sys2Proof.Machine

open Sys2Proof.Reference

/-- The left (`false`) or right (`true`) child of node `n`. -/
def child (arena : List Node) (n : Nat) (d : Bool) : Option Nat :=
  match (arena[n]?).map Node.kind with
  | some (.internal a b) => some (if d then b.toNat else a.toNat)
  | _ => none

theorem child_eq_some {arena : List Node} {n i : Nat} {d : Bool} : child arena n d = some i ↔
    ∃ a b, (arena[n]?).map Node.kind = some (.internal a b) ∧ (if d then b.toNat else a.toNat) = i := by
  unfold child
  split
  · next a b h => simp [h]
  · next h => exact ⟨nofun, fun ⟨a, b, hk, _⟩ => absurd hk (h a b)⟩

theorem isChild_of_child {arena : List Node} {n i : Nat} {d : Bool} (h : child arena n d = some i) : isChild arena n i := by
  obtain ⟨a, b, hn, hi⟩ := child_eq_some.mp h
  refine ⟨a, b, hn, ?_⟩
  cases d
  · exact .inl hi
  · exact .inr hi

theorem exists_child {arena : List Node} {n i : Nat} (h : isChild arena n i) : ∃ d, child arena n d = some i := by
  obtain ⟨a, b, hn, hi | hi⟩ := h
  · exact ⟨false, child_eq_some.mpr ⟨a, b, hn, hi⟩⟩
  · exact ⟨true, child_eq_some.mpr ⟨a, b, hn, hi⟩⟩

/-- The node that the bits lead to from node `i`. -/
def reach (arena : List Node) (i : Nat) (bits : List Bool) : Option Nat := bits.foldlM (child arena) i

@[simp] theorem reach_nil (arena : List Node) (i : Nat) : reach arena i [] = some i := rfl

theorem reach_cons (arena : List Node) (i : Nat) (d : Bool) (ds : List Bool) :
    reach arena i (d :: ds) = (child arena i d).bind fun j => reach arena j ds := List.foldlM_cons

theorem reach_append (arena : List Node) (i : Nat) (p q : List Bool) :
    reach arena i (p ++ q) = (reach arena i p).bind fun j => reach arena j q := List.foldlM_append

theorem reach_concat_eq_some {arena : List Node} {i j : Nat} {p : List Bool} {d : Bool} :
    reach arena i (p ++ [d]) = some j ↔ ∃ n, reach arena i p = some n ∧ child arena n d = some j := by
  rw [reach_append, Option.bind_eq_some_iff]
  refine exists_congr fun n => and_congr_right fun _ => ?_
  rw [reach_cons]
  simp

/-- Following a bit goes to that child (R137). -/
theorem follow_cons (arena : List Node) (i : Nat) (d : Bool) (ds : List Bool) :
    follow arena i (d :: ds) = (child arena i d).bind fun j => follow arena j ds := by
  rcases hk : (arena[i]?).map Node.kind with _ | (s | ⟨a, b⟩) <;> simp [follow, child, hk]

/-- Following bits gives the kind of the node they lead to. -/
theorem follow_eq (arena : List Node) (i : Nat) (bits : List Bool) :
    follow arena i bits = (reach arena i bits).bind fun j => (arena[j]?).map Node.kind := by
  induction bits generalizing i with
  | nil => rfl
  | cons d ds ih =>
    rw [follow_cons, reach_cons, Option.bind_assoc]
    simp only [ih]

theorem exists_reach_of_follow {arena : List Node} {i : Nat} {bits : List Bool} (h : follow arena i bits ≠ none) :
    ∃ j, reach arena i bits = some j := by
  rw [follow_eq] at h
  exact Option.ne_none_iff_exists'.mp fun hnone => h (by rw [hnone]; rfl)

namespace Huffman.Forest

variable {h : Huffman} (hf : h.Forest)
include hf

/-- A path's inner nodes are internal and their indices fall, so it is no longer than the number of internal nodes up to its
start (R136). -/
theorem length_of_reach {bits : List Bool} {i j : Nat} (hr : reach h.arena i bits = some j) :
    bits.length ≤ i + 1 - h.order.length := by
  induction bits generalizing i with
  | nil => exact Nat.zero_le _
  | cons d ds ih =>
    rw [reach_cons, Option.bind_eq_some_iff] at hr
    obtain ⟨n, hn, hds⟩ := hr
    have := hf.isChild_bounds (isChild_of_child hn)
    have := ih hds
    rw [List.length_cons]
    omega

/-- A path that ends at a leaf goes no further. -/
theorem reach_leaf {bits : List Bool} {i j : Nat} (hi : i < h.order.length) (hr : reach h.arena i bits = some j) :
    bits = [] ∧ j = i := by
  have hlen := hf.length_of_reach hr
  obtain rfl : bits = [] := List.length_eq_zero_iff.mp (by omega)
  exact ⟨rfl, (Option.some.inj hr).symm⟩

/-- The bits that lead to a symbol's leaf. -/
theorem follow_leaf_iff {bits : List Bool} {i : Nat} {s : Byte} : follow h.arena i bits = some (.leaf s) ↔
    ∃ j, reach h.arena i bits = some j ∧ h.order[j]? = some s := by
  rw [follow_eq, Option.bind_eq_some_iff]
  exact exists_congr fun j => and_congr_right fun _ => hf.leaf_iff

end Huffman.Forest

/-! ### The finished tree -/

/-- A tree over distinct symbols, at least one, of R136's shape and R134's merges. -/
structure Huffman.IsTree (h : Huffman) : Prop where
  shape : TreeShape h
  selects : SelectsLeast h
  nodup : h.order.Nodup
  nonempty : h.order ≠ []

namespace Huffman.IsTree

variable {h : Huffman} (ht : h.IsTree)
include ht

theorem forest : h.Forest where
  planted := by
    have := ht.shape.arena
    omega
  leaves := ht.shape.leaves
  internals := ht.shape.internals

theorem length_pos : 0 < h.order.length := List.length_pos_iff.mpr ht.nonempty

theorem symbols : h.order.length ≤ 256 := length_le_of_nodup_bytes ht.nodup

/-- The root is the last node. -/
theorem root_eq : h.root.toNat + 1 = h.arena.length := by
  have := ht.shape.root
  have := ht.shape.arena
  have := ht.length_pos
  omega

/-- A node hangs at one place only: its parent is one, and its children differ (R134, R136). -/
theorem child_inj {m n i : Nat} {d e : Bool} (hm : child h.arena m d = some i) (hn : child h.arena n e = some i) :
    m = n ∧ d = e := by
  have hbounds := ht.forest.isChild_bounds (isChild_of_child hm)
  have hi : i < 2 * h.order.length - 2 := by
    have := ht.shape.arena
    omega
  obtain rfl : m = n := (ht.shape.parent i hi).unique (isChild_of_child hm) (isChild_of_child hn)
  refine ⟨rfl, ?_⟩
  obtain ⟨a, b, hk, hd⟩ := child_eq_some.mp hm
  obtain ⟨a', b', hk', he⟩ := child_eq_some.mp hn
  rw [hk] at hk'
  cases hk'
  obtain ⟨⟨f, k⟩, hnode, rfl⟩ := Option.map_eq_some_iff.mp hk
  have hne : a.toNat ≠ b.toNat := fun e => (ht.selects m f a b hnode).2.2.1 (BitVec.eq_of_toNat_eq e)
  have hside : (if d then b.toNat else a.toNat) = if e then b.toNat else a.toNat := hd.trans he.symm
  cases d <;> cases e
  · rfl
  · exact absurd hside hne
  · exact absurd hside hne.symm
  · rfl

/-- The root is no one's child. -/
theorem child_ne_root {n : Nat} {d : Bool} (hn : child h.arena n d = some h.root.toNat) : False := by
  have := ht.forest.isChild_bounds (isChild_of_child hn)
  have := ht.root_eq
  omega

/-- One path leads from the root to a node. -/
theorem reach_inj {p q : List Bool} {j : Nat} (hp : reach h.arena h.root.toNat p = some j)
    (hq : reach h.arena h.root.toNat q = some j) : p = q := by
  induction p using List.reverseRecOn generalizing q j with
  | nil =>
    obtain rfl := Option.some.inj hp
    rcases List.eq_nil_or_concat' q with rfl | ⟨q, e, rfl⟩
    · rfl
    · obtain ⟨n, -, hn⟩ := reach_concat_eq_some.mp hq
      exact (ht.child_ne_root hn).elim
  | append_singleton p d ih =>
    obtain ⟨m, hm, hmj⟩ := reach_concat_eq_some.mp hp
    rcases List.eq_nil_or_concat' q with rfl | ⟨q, e, rfl⟩
    · obtain rfl := Option.some.inj hq
      exact (ht.child_ne_root hmj).elim
    · obtain ⟨n, hn, hnj⟩ := reach_concat_eq_some.mp hq
      obtain ⟨rfl, rfl⟩ := ht.child_inj hmj hnj
      rw [ih hm hn]

/-- Every node hangs under the root. -/
theorem exists_reach {i : Nat} (hi : i < h.arena.length) : ∃ p, reach h.arena h.root.toNat p = some i := by
  have hroot := ht.root_eq
  induction hd : h.root.toNat - i using Nat.strong_induction_on generalizing i with
  | h m ih =>
    by_cases hir : i = h.root.toNat
    · exact ⟨[], by rw [hir, reach_nil]⟩
    · have hlt : i < 2 * h.order.length - 2 := by
        have := ht.shape.root
        omega
      obtain ⟨n, hn, -⟩ := ht.shape.parent i hlt
      have hbounds := ht.forest.isChild_bounds hn
      obtain ⟨p, hp⟩ := ih (h.root.toNat - n) (by omega) hbounds.2.2 rfl
      obtain ⟨d, hc⟩ := exists_child hn
      exact ⟨p ++ [d], reach_concat_eq_some.mpr ⟨n, hp, hc⟩⟩

/-! ### Paths to the symbols -/

/-- The bits lead from the root to the symbol's leaf. -/
theorem exists_path {s : Byte} (hs : s ∈ h.order) : ∃ p, follow h.arena h.root.toNat p = some (.leaf s) := by
  obtain ⟨j, hj⟩ := List.mem_iff_getElem?.mp hs
  have hlt : j < h.arena.length := lt_of_lt_of_le (List.getElem?_eq_some_iff.mp hj).1 ht.forest.planted
  obtain ⟨p, hp⟩ := ht.exists_reach hlt
  exact ⟨p, ht.forest.follow_leaf_iff.mpr ⟨j, hp, hj⟩⟩

theorem mem_order_of_path {s : Byte} {p : List Bool} (hp : follow h.arena h.root.toNat p = some (.leaf s)) : s ∈ h.order := by
  obtain ⟨j, -, hj⟩ := ht.forest.follow_leaf_iff.mp hp
  exact List.mem_of_getElem? hj

theorem path_inj {s : Byte} {p q : List Bool} (hp : follow h.arena h.root.toNat p = some (.leaf s))
    (hq : follow h.arena h.root.toNat q = some (.leaf s)) : p = q := by
  obtain ⟨i, hpi, hi⟩ := ht.forest.follow_leaf_iff.mp hp
  obtain ⟨j, hqj, hj⟩ := ht.forest.follow_leaf_iff.mp hq
  obtain rfl : i = j :=
    (List.getElem?_inj (List.getElem?_eq_some_iff.mp hi).1 ht.nodup).mp (hi.trans hj.symm)
  exact ht.reach_inj hpi hqj

theorem path_length {s : Byte} {p : List Bool} (hp : follow h.arena h.root.toNat p = some (.leaf s)) : p.length < 256 := by
  have := ht.shape.depth p (by rw [hp]; exact Option.some_ne_none _)
  have := ht.symbols
  have := ht.length_pos
  omega

/-- No path to a leaf goes on to another leaf (R143). -/
theorem path_prefix {a b : Byte} {p q : List Bool} (hp : follow h.arena h.root.toNat p = some (.leaf a))
    (hq : follow h.arena h.root.toNat q = some (.leaf b)) (hpre : p <+: q) : a = b := by
  obtain ⟨r, rfl⟩ := hpre
  obtain ⟨i, hpi, hi⟩ := ht.forest.follow_leaf_iff.mp hp
  obtain ⟨j, hqj, hj⟩ := ht.forest.follow_leaf_iff.mp hq
  rw [reach_append, hpi, Option.bind_some] at hqj
  obtain ⟨-, rfl⟩ := ht.forest.reach_leaf (List.getElem?_eq_some_iff.mp hi).1 hqj
  exact Option.some.inj (hi.symm.trans hj)

/-- With two symbols or more the root is no leaf, so no symbol's path is empty (R143). -/
theorem path_ne_nil {s : Byte} {p : List Bool} (hp : follow h.arena h.root.toNat p = some (.leaf s))
    (htwo : 2 ≤ h.order.length) : p ≠ [] := by
  rintro rfl
  obtain ⟨j, hr, hj⟩ := ht.forest.follow_leaf_iff.mp hp
  obtain rfl := Option.some.inj hr
  have := (List.getElem?_eq_some_iff.mp hj).1
  have := ht.shape.root
  omega

end Huffman.IsTree

end Sys2Proof.Machine
end

section
/-! PROOFS. BuildTree (R135) makes the tree of R136 by the merges of R134. -/

namespace Sys2Proof.Machine

open Sys2Proof.Reference

/-! ### The end of the loop -/

namespace Huffman.Merging

variable {h : Huffman} (hm : h.Merging) (hend : h.work.length ≤ 1) (hpos : h.order ≠ [])
include hm hend hpos

/-- When the loop ends, W is the last node alone. -/
theorem work_eq_last : h.work = [h.arena.length - 1] := by
  have hplanted := hm.planted
  have hlen := List.length_pos_iff.mpr hpos
  have hlast : h.arena.length - 1 ∈ h.work := by
    refine (hm.mem_work _).mpr ⟨by omega, fun n hc => ?_⟩
    have := hm.isChild_bounds hc
    omega
  match hw : h.work, hend with
  | [], _ => simp [hw] at hlast
  | [i], _ => rw [hw, List.mem_singleton] at hlast; rw [hlast]

theorem arena_length : h.arena.length = 2 * h.order.length - 1 := by
  have hsize := hm.size
  rw [hm.work_eq_last hend hpos, List.length_singleton] at hsize
  omega

/-- Every node but the last has exactly one parent. -/
theorem existsUnique_parent {i : Nat} (hi : i < 2 * h.order.length - 2) : ∃! n, isChild h.arena n i := by
  have hlen := hm.arena_length hend hpos
  have hnot : i ∉ h.work := by
    rw [hm.work_eq_last hend hpos, List.mem_singleton]
    omega
  have hparent : ∃ n, isChild h.arena n i := by
    by_contra hnone
    exact hnot ((hm.mem_work i).mpr ⟨by omega, not_exists.mp hnone⟩)
  obtain ⟨n, hn⟩ := hparent
  exact ⟨n, hn, fun m hmc => hm.oneParent i m n hmc hn⟩

/-- The last node has the weight of all. -/
theorem nfreqAt_last : nfreqAt h.arena (2 * h.order.length - 2) = totalCount h := by
  have hweight := hm.weight
  rw [hm.work_eq_last hend hpos, List.map_singleton, List.sum_singleton, hm.arena_length hend hpos] at hweight
  exact hweight

/-- The tree that the loop leaves, its root set. -/
theorem treeShape (hnsym : h.nsym ≠ 0#32) : TreeShape h.setRoot := by
  have hlen := hm.arena_length hend hpos
  have hsym := hm.symbols
  have hk := List.length_pos_iff.mpr hpos
  have hroot : h.setRoot.root.toNat = 2 * h.order.length - 2 := by
    have hnn := hm.nnodes
    simp only [Huffman.setRoot, if_neg hnsym]
    rw [BitVec.toNat_sub, BitVec.toNat_ofNat]
    omega
  exact
    { nnodes := hm.nnodes.trans hlen, arena := hlen, root := hroot, leaves := hm.leaves, internals := hm.internals
      parent := fun i hi => hm.existsUnique_parent hend hpos hi
      rootFreq := by rw [hroot]; exact hm.nfreqAt_last hend hpos
      depth := fun bits hbits => by
        obtain ⟨j, hj⟩ := exists_reach_of_follow hbits
        have := hm.toForest.length_of_reach hj
        show bits.length ≤ h.order.length - 1
        omega }

end Huffman.Merging

/-! ### BuildTree -/

/-- BuildTree's loop leaves ORDER and HUF_NSYM. -/
theorem Huffman.merged_frame (h : Huffman) :
    let m := mergeLoop h.nsym.toNat h.plantLeaves
    m.order = h.order ∧ m.nsym = h.nsym := by
  intro m
  have hm : m = _ := mergeLoop_frame h.nsym.toNat h.plantLeaves
  rw [hm]
  exact ⟨rfl, rfl⟩

/-- Whether a state holds a tree does not depend on its code table, HUF_NSYM or W. -/
theorem Huffman.IsTree.congr {h k : Huffman} (hk : k.IsTree) (hfreq : h.freq = k.freq) (horder : h.order = k.order)
    (harena : h.arena = k.arena) (hnnodes : h.nnodes = k.nnodes) (hroot : h.root = k.root) : h.IsTree := by
  cases h
  cases k
  subst hfreq horder harena hnnodes hroot
  exact ⟨{ hk.shape with }, hk.selects, hk.nodup, hk.nonempty⟩

namespace Huffman.CountsOk

variable {h : Huffman} (hh : h.CountsOk)
include hh

/-- What BuildTree's loop leaves. -/
theorem merged : (mergeLoop h.nsym.toNat h.plantLeaves).Merging ∧
    (mergeLoop h.nsym.toNat h.plantLeaves).work.length ≤ 1 :=
  mergeLoop_merging _ hh.plantLeaves_merging (by simp [Huffman.plantLeaves])

theorem nsym_eq_zero : h.nsym = 0#32 ↔ h.order = [] := by
  rw [BitVec.toNat_eq, hh.nsym, BitVec.toNat_ofNat, ← List.length_eq_zero_iff]

/-- R134. -/
theorem buildTree_selects : SelectsLeast (Machine.buildTree h) := hh.merged.1.selects

/-- R136. -/
theorem buildTree_isTree (hpos : h.order ≠ []) : (Machine.buildTree h).IsTree := by
  obtain ⟨hm, hend⟩ := hh.merged
  obtain ⟨horder, hnsym⟩ := h.merged_frame
  exact
    { shape := hm.treeShape hend (horder ▸ hpos) (fun e => hpos (hh.nsym_eq_zero.mp (hnsym.symm.trans e)))
      selects := hh.buildTree_selects
      nodup := (buildTree_order h).symm ▸ hh.nodup
      nonempty := (buildTree_order h).symm ▸ hpos }

/-- The current tree of well-formed counts, whatever the code table. -/
theorem isTree_of_current (hpos : h.order ≠ []) (hcurrent : h.TreeCurrent) : h.IsTree :=
  have ⟨harena, hnnodes, hroot⟩ := hcurrent
  (hh.buildTree_isTree hpos).congr (buildTree_freq h).symm (buildTree_order h).symm harena hnnodes hroot

end Huffman.CountsOk

/-- R135: from no counts the tree is empty. -/
theorem buildTree_of_nsym_eq_zero {h : Huffman} (hnsym : h.nsym = 0#32) :
    (buildTree h).arena = [] ∧ (buildTree h).nnodes = 0#32 ∧ (buildTree h).root = Config.noRoot := by
  simp [buildTree, hnsym, mergeLoop, Huffman.plantLeaves, Huffman.setRoot]

/-! ### HUF_TREE -/

theorem exec_hufTree (s : State) :
    exec .hufTree s = .next (s.finished { s.own with huf := buildTree s.own.huf }) := rfl

/-- Settles O28: the shape by `buildTree_isTree`, the rest by BuildTree's frame. -/
theorem hufTreeShape : Obligations.HufTreeShape := by
  intro s hs
  refine ⟨_, exec_hufTree s, buildTree_freq _, buildTree_order _, buildTree_nsym _, buildTree_work _,
    Huffman.codeOf_of_cleared (buildTree_codes _), fun hpos => ?_, fun hempty => ?_⟩
  · exact (hs.buildTree_isTree (buildTree_order s.own.huf ▸ hpos)).shape
  · exact buildTree_of_nsym_eq_zero (hs.nsym_eq_zero.mpr (buildTree_order s.own.huf ▸ hempty))

/-- Settles O29: every merge of the loop took the selected nodes, by its invariant. -/
theorem hufTreeSelectsLeast : Obligations.HufTreeSelectsLeast := by
  intro s t hs h
  rw [exec_hufTree] at h
  cases h
  exact hs.buildTree_selects

end Sys2Proof.Machine
end

section
/-! PROOFS. GenCodes (R137): a symbol's code is the path to its leaf. -/

namespace Sys2Proof.Machine

open Sys2Proof.Reference

/-! ### A path as a code-table entry (R49, R137) -/

/-- The accumulated code `v` with the bits appended: "v <- 2v + d" (R137). -/
def appendBits (v : Nat) (bits : List Bool) : Nat := bits.foldl (fun v d => 2 * v + d.toNat) v

theorem appendBits_concat (v : Nat) (bits : List Bool) (d : Bool) :
    appendBits v (bits ++ [d]) = 2 * appendBits v bits + d.toNat := by
  simp [appendBits]

theorem appendBits_lt (bits : List Bool) : appendBits 0 bits < 2 ^ bits.length := by
  induction bits using List.reverseRecOn with
  | nil => exact Nat.one_pos
  | append_singleton bits d ih =>
    rw [appendBits_concat, List.length_append, List.length_singleton, Nat.pow_succ]
    have := d.toNat_le
    omega

/-- Bit `k` from the left of an accumulated code. -/
theorem testBit_appendBits (bits : List Bool) {k : Nat} (hk : k < bits.length) :
    (appendBits 0 bits).testBit (bits.length - 1 - k) = bits[k] := by
  induction bits using List.reverseRecOn with
  | nil => exact absurd hk (Nat.not_lt_zero k)
  | append_singleton bits d ih =>
    rw [List.length_append, List.length_singleton] at hk
    rw [appendBits_concat, List.length_append, List.length_singleton]
    have hbit : d.toNat < 2 ^ 1 := by
      have := d.toNat_le
      omega
    rw [show 2 * appendBits 0 bits = 2 ^ 1 * appendBits 0 bits from rfl, Nat.testBit_two_pow_mul_add _ hbit]
    by_cases hlast : k < bits.length
    · rw [if_neg (by omega), List.getElem_append_left hlast, ← ih hlast]
      congr 1
      omega
    · obtain rfl : k = bits.length := by omega
      cases d <;> simp

/-- The entry that Visit records for the path `bits` from a node at accumulated code `v` and length `l` (R137). -/
def pathEntry (v l : Nat) (bits : List Bool) : CodeEntry :=
  ⟨true, BitVec.ofNat 8 (l + bits.length), BitVec.ofNat 256 (appendBits v bits)⟩

theorem pathEntry_cons (v l : Nat) (d : Bool) (ds : List Bool) :
    pathEntry v l (d :: ds) = pathEntry (2 * v + d.toNat) (l + 1) ds := by
  simp only [pathEntry, List.length_cons, appendBits, List.foldl_cons]
  rw [Nat.add_right_comm, Nat.add_assoc]

/-- A path short enough for the entry's fields reads back from it (R49). -/
theorem pathEntry_len {bits : List Bool} (hlen : bits.length < 256) : (pathEntry 0 0 bits).len.toNat = bits.length := by
  rw [pathEntry, BitVec.toNat_ofNat, Nat.zero_add, Nat.mod_eq_of_lt hlen]

theorem pathEntry_val {bits : List Bool} (hlen : bits.length < 256) :
    (pathEntry 0 0 bits).val.toNat = appendBits 0 bits := by
  have hlt : appendBits 0 bits < 2 ^ 256 := (appendBits_lt bits).trans (Nat.pow_lt_pow_right (by omega) hlen)
  rw [pathEntry, BitVec.toNat_ofNat, Nat.mod_eq_of_lt hlt]

theorem pathEntry_bits {bits : List Bool} (hlen : bits.length < 256) : (pathEntry 0 0 bits).bits = bits := by
  refine List.ext_getElem (by rw [CodeEntry.bits_length, pathEntry_len hlen]) fun k _ hk => ?_
  simp only [CodeEntry.bits, List.getElem_map, List.getElem_range, pathEntry_len hlen]
  rw [← BitVec.testBit_toNat, pathEntry_val hlen, testBit_appendBits bits hk]

/-! ### Visit (R137) -/

theorem visit_leaf {arena : List Node} {n i : Nat} {b : Byte} (hi : (arena[i]?).map Node.kind = some (.leaf b)) (v l : Nat)
    (t : Vector CodeEntry 256) :
    visit arena (n + 1) i v l t = t.set b.toNat ⟨true, BitVec.ofNat 8 l, BitVec.ofNat 256 v⟩ b.isLt := by
  obtain ⟨nd, hnd, hkind⟩ := Option.map_eq_some_iff.mp hi
  simp only [visit, hnd, hkind]

theorem visit_internal {arena : List Node} {n i : Nat} {a b : BitVec 9}
    (hi : (arena[i]?).map Node.kind = some (.internal a b)) (v l : Nat) (t : Vector CodeEntry 256) :
    visit arena (n + 1) i v l t =
      visit arena n b.toNat (2 * v + 1) (l + 1) (visit arena n a.toNat (2 * v) (l + 1) t) := by
  obtain ⟨nd, hnd, hkind⟩ := Option.map_eq_some_iff.mp hi
  simp only [visit, hnd, hkind]

/-- Following a bit from an internal node. -/
theorem follow_internal {arena : List Node} {i : Nat} {a b : BitVec 9}
    (hi : (arena[i]?).map Node.kind = some (.internal a b)) (d : Bool) (ds : List Bool) :
    follow arena i (d :: ds) = follow arena (if d then b.toNat else a.toNat) ds := by
  rw [follow_cons, child_eq_some.mpr ⟨a, b, hi, rfl⟩, Option.bind_some]

/-- What a visit of node `i` made of the entry `old` of the symbol `s`: the path from `i` to the symbol's leaf, if there is
one. -/
def Visited (arena : List Node) (i v l : Nat) (s : Byte) (old new : CodeEntry) : Prop :=
  (∃ bits, follow arena i bits = some (.leaf s) ∧ new = pathEntry v l bits) ∨
  ((∀ bits, follow arena i bits ≠ some (.leaf s)) ∧ new = old)

theorem Huffman.Forest.visit_spec {h : Huffman} (hf : h.Forest) (n : Nat) {i : Nat} (hn : i < n) (hi : i < h.arena.length)
    (v l : Nat) (t : Vector CodeEntry 256) (s : Byte) :
    Visited h.arena i v l s (t[s.toNat]'s.isLt) ((visit h.arena n i v l t)[s.toNat]'s.isLt) := by
  induction n generalizing i v l t with
  | zero => exact absurd hn (Nat.not_lt_zero i)
  | succ n ih =>
    rcases Nat.lt_or_ge i h.order.length with hleaf | hinner
    · have hsym := List.getElem?_eq_getElem hleaf
      have hkind := hf.leaf_iff.mpr hsym
      simp only [visit_leaf hkind, getElem_set_byte]
      by_cases hs : s = h.order[i]
      · refine .inl ⟨[], by rw [hs, ← hkind]; rfl, ?_⟩
        rw [if_pos hs]
        rfl
      · refine .inr ⟨fun bits hbits => ?_, if_neg hs⟩
        obtain ⟨j, hr, hj⟩ := hf.follow_leaf_iff.mp hbits
        obtain ⟨-, rfl⟩ := hf.reach_leaf hleaf hr
        exact hs (Option.some.inj (hj.symm.trans hsym))
    · obtain ⟨f, a, b, hnode, ha, hb, -⟩ := hf.internals i hinner hi
      have hkind : (h.arena[i]?).map Node.kind = some (.internal a b) := by rw [hnode]; rfl
      simp only [visit_internal hkind]
      rcases ih (i := b.toNat) (by omega) (by omega) (2 * v + 1) (l + 1) (visit h.arena n a.toNat (2 * v) (l + 1) t) with
        ⟨bits, hbits, hnew⟩ | ⟨hright, hold⟩
      · exact .inl ⟨true :: bits, (follow_internal hkind true bits).trans hbits, hnew.trans (pathEntry_cons v l true bits).symm⟩
      · rw [hold]
        rcases ih (i := a.toNat) (by omega) (by omega) (2 * v) (l + 1) t with ⟨bits, hbits, hnew⟩ | ⟨hleft, hold'⟩
        · exact .inl ⟨false :: bits, (follow_internal hkind false bits).trans hbits,
            hnew.trans (pathEntry_cons v l false bits).symm⟩
        · refine .inr ⟨fun bits hbits => ?_, hold'⟩
          match bits with
          | [] => exact absurd (hkind.symm.trans hbits) nofun
          | true :: ds => exact hright ds ((follow_internal hkind true ds).symm.trans hbits)
          | false :: ds => exact hleft ds ((follow_internal hkind false ds).symm.trans hbits)

/-! ### GenCodes -/

/-- A finished tree with the code table that GenCodes makes of it. -/
structure Huffman.IsCoded (h : Huffman) : Prop extends Huffman.IsTree h where
  codes : h.codes = (genCodes h).codes

/-- GenCodes keeps the tree, and its table is that of the tree. -/
theorem Huffman.IsTree.genCodes {h : Huffman} (ht : h.IsTree) : (genCodes h).IsCoded where
  toIsTree := ht.congr rfl rfl rfl rfl rfl
  codes := rfl

/-- GenCodes visits the tree from its root. -/
theorem Huffman.IsTree.genCodes_codes {h : Huffman} (ht : h.IsTree) :
    (Machine.genCodes h).codes = visit h.arena h.nnodes.toNat h.root.toNat 0 0 clearedCodes := by
  refine if_neg fun hroot => ?_
  have hlast := ht.root_eq
  have harena := ht.shape.arena
  have hsymbols := ht.symbols
  have hnone : Config.noRoot.toNat = 2 ^ 32 - 1 := rfl
  rw [hroot, hnone] at hlast
  omega

namespace Huffman.IsCoded

variable {h : Huffman} (hc : h.IsCoded)
include hc

/-- The entries that GenCodes gives: a path's, or a cleared one. -/
theorem codeOf_visited (s : Byte) : Visited h.arena h.root.toNat 0 0 s ⟨false, 0#8, 0#256⟩ (h.codeOf s) := by
  have hroot := hc.root_eq
  have hnnodes := hc.shape.nnodes
  have harena := hc.shape.arena
  have hclear : clearedCodes[s.toNat]'s.isLt = ⟨false, 0#8, 0#256⟩ := codeOf_clearedCodes h s
  have hvisit := hc.forest.visit_spec h.nnodes.toNat (i := h.root.toNat) (by omega) (by omega) 0 0 clearedCodes s
  rw [hclear] at hvisit
  simpa only [Huffman.codeOf, hc.codes, hc.genCodes_codes] using hvisit

/-- A symbol's code, where a path leads to its leaf. -/
theorem codeOf_of_path {s : Byte} {bits : List Bool} (hp : follow h.arena h.root.toNat bits = some (.leaf s)) :
    h.codeOf s = pathEntry 0 0 bits := by
  rcases hc.codeOf_visited s with ⟨bits', hp', he⟩ | ⟨hnone, -⟩
  · rw [he, hc.path_inj hp hp']
  · exact absurd hp (hnone bits)

theorem codeOf_of_notMem {s : Byte} (hs : s ∉ h.order) : h.codeOf s = ⟨false, 0#8, 0#256⟩ := by
  rcases hc.codeOf_visited s with ⟨bits, hp, -⟩ | ⟨-, he⟩
  · exact absurd (hc.mem_order_of_path hp) hs
  · exact he

/-- R137: the codes are the paths. -/
theorem code_iff_path {s : Byte} {bits : List Bool} :
    (h.codeOf s).valid = true ∧ (h.codeOf s).bits = bits ↔ follow h.arena h.root.toNat bits = some (.leaf s) := by
  constructor
  · rintro ⟨hvalid, rfl⟩
    by_cases hs : s ∈ h.order
    · obtain ⟨p, hp⟩ := hc.exists_path hs
      rw [hc.codeOf_of_path hp, pathEntry_bits (hc.path_length hp)]
      exact hp
    · rw [hc.codeOf_of_notMem hs] at hvalid
      cases hvalid
  · intro hp
    rw [hc.codeOf_of_path hp]
    exact ⟨rfl, pathEntry_bits (hc.path_length hp)⟩

/-- R49: a code's value has no more bits than the code. -/
theorem codeOf_val_lt (s : Byte) : (h.codeOf s).val.toNat < 2 ^ (h.codeOf s).len.toNat := by
  by_cases hs : s ∈ h.order
  · obtain ⟨p, hp⟩ := hc.exists_path hs
    rw [hc.codeOf_of_path hp, pathEntry_val (hc.path_length hp), pathEntry_len (hc.path_length hp)]
    exact appendBits_lt p
  · rw [hc.codeOf_of_notMem hs]
    exact Nat.one_pos

/-- Every counted symbol has a code. -/
theorem codeOf_valid {s : Byte} (hs : s ∈ h.order) : (h.codeOf s).valid = true := by
  obtain ⟨p, hp⟩ := hc.exists_path hs
  exact (hc.code_iff_path.mpr hp).1

end Huffman.IsCoded

/-! ### HUF_CODES -/

theorem exec_hufCodes (s : State) :
    exec .hufCodes s = .next (s.finished { s.own with huf := genCodes s.own.huf }) := rfl

/-- Without a tree GenCodes clears the table. -/
theorem genCodes_of_noRoot {h : Huffman} (hroot : h.root = Config.noRoot) : genCodes h = { h with codes := clearedCodes } := by
  rw [genCodes, if_pos hroot]

/-- Settles O30: `code_iff_path` for the current tree; without a tree by the first line of GenCodes. -/
theorem hufCodesArePaths : Obligations.HufCodesArePaths := by
  intro s hs
  refine ⟨fun hpos hcurrent => ?_, fun hroot => ?_⟩
  · have hc := (hs.isTree_of_current hpos hcurrent).genCodes
    exact ⟨_, exec_hufCodes s, genCodes_frame _, fun _ _ => hc.code_iff_path, hc.codeOf_val_lt, fun _ => hc.codeOf_of_notMem⟩
  · rw [exec_hufCodes, genCodes_of_noRoot hroot]

end Sys2Proof.Machine
end

section
/-! PROOFS. Pack (R139): the codes of the input one after another, up to the first byte that fails. -/

namespace Sys2Proof.Machine

open Sys2Proof.Reference

/-- `q` is `o` with the codes of `input` as its output (R97, R139): the bits, the clear tail, and OBUF past them as it was. -/
structure Owned.Packed (o : Owned) (input : List Byte) (q : Owned) : Prop where
  frame : q = { o with obuf := q.obuf, outLen := q.outLen, pos := q.pos }
  outLen : q.outLen.toNat = packedLength o.huf input
  bits : bitsOf q.obuf q.outLen.toNat = packedBits o.huf input
  tail : q.TailClear
  rest : ∀ j, bytesForBits q.outLen.toNat ≤ j → q.obuf.read j = o.obuf.read j

theorem Owned.Packed.huf {o q : Owned} {input : List Byte} (hq : o.Packed input q) : q.huf = o.huf := by rw [hq.frame]

/-- The hidden POS is no output. -/
theorem Owned.Packed.setPos {o q : Owned} {input : List Byte} (hq : o.Packed input q) (i : Word) :
    o.Packed input { q with pos := i } := by
  refine ⟨?_, hq.outLen, hq.bits, hq.tail, hq.rest⟩
  have hframe := hq.frame
  generalize q.obuf = b at hframe ⊢
  generalize q.outLen = n at hframe ⊢
  generalize q.pos = c at hframe
  rw [hframe]

/-! ### Pack's loop -/

/-- Past bytes that pack without an error, the loop goes on from what they leave. -/
theorem packLoop_append {p : Params} {pre post : List Byte} {i : Nat} {o q : Owned}
    (hpre : packLoop p pre i o = Result.complete q) :
    packLoop p (pre ++ post) i o = packLoop p post (i + pre.length) q := by
  induction pre generalizing i o with
  | nil =>
    obtain rfl : { o with pos := BitVec.ofNat 32 i } = q := congrArg Result.own hpre
    cases post <;> rfl
  | cons b pre ih =>
    rw [List.cons_append, packLoop]
    rw [packLoop] at hpre
    split at hpre
    · cases hpre
    · split at hpre
      · cases hpre
      · rename_i hvalid hfits
        rw [if_neg hvalid, if_neg hfits, ih hpre, List.length_cons]
        congr 1
        omega

/-- A byte at which Pack stops, its error and its position (R139, R215). -/
theorem packLoop_stops {p : Params} {b : Byte} {post : List Byte} {i : Nat} {o : Owned}
    (hfail : (o.huf.codeOf b).valid = false ∨ 8 * p.obufBytes < o.outLen.toNat + (o.huf.codeOf b).len.toNat) :
    packLoop p (b :: post) i o =
      Result.raise { o with pos := BitVec.ofNat 32 i } (if (o.huf.codeOf b).valid then .obufOvf else .noCode) i := by
  rw [packLoop]
  cases hvalid : (o.huf.codeOf b).valid
  · rfl
  · have hover : o.outLen.toNat + (o.huf.codeOf b).len.toNat > 8 * p.obufBytes := hfail.resolve_left (by simp [hvalid])
    simp [hover]

/-- A loop that completes has found codes that fit. -/
theorem packLoop_done {p : Params} (hp : 8 * p.obufBytes < 2 ^ 32) {input : List Byte} {i : Nat} {o : Owned}
    (htail : o.TailClear) (hstart : o.outLen.toNat ≤ 8 * p.obufBytes) (hdone : (packLoop p input i o).outcome = .done) :
    (∀ b ∈ input, (o.huf.codeOf b).valid = true) ∧ o.outLen.toNat + packedLength o.huf input ≤ 8 * p.obufBytes := by
  induction input generalizing i o with
  | nil => exact ⟨by simp, hstart⟩
  | cons b bs ih =>
    rw [packLoop] at hdone
    split at hdone
    · cases hdone
    · split at hdone
      · cases hdone
      · rename_i hvalid hfits
        simp only [Bool.not_eq_true', Bool.not_eq_false, not_lt] at hvalid hfits
        obtain ⟨hlen, htail', -, -⟩ := Owned.putBits_spec (o := { o with pos := BitVec.ofNat 32 i })
          (o.huf.codeOf b).bits htail (by rw [CodeEntry.bits_length]; show o.outLen.toNat + _ < _; omega)
        rw [CodeEntry.bits_length] at hlen
        obtain ⟨hvalids, hsum⟩ := ih htail' (hlen.trans_le hfits) hdone
        rw [Owned.putBits_huf] at hvalids hsum
        refine ⟨List.forall_mem_cons.mpr ⟨hvalid, hvalids⟩, ?_⟩
        rw [hlen] at hsum
        rwa [packedLength, List.map_cons, List.sum_cons, ← Nat.add_assoc]

/-! ### Pack -/

/-- Pack over bytes that all have codes that fit. -/
theorem pack_fits {p : Params} (hp : 8 * p.obufBytes < 2 ^ 32) {input : List Byte} {o : Owned}
    (hvalid : ∀ b ∈ input, (o.huf.codeOf b).valid = true) (hfits : packedLength o.huf input ≤ 8 * p.obufBytes) :
    ∃ q, pack p input o = Result.complete q ∧ o.Packed input q := by
  obtain ⟨q, hq, hframe, hlen, htail, hbits, hrest⟩ := packLoop_fits p hp input 0 { o with outLen := 0#32 } hvalid
    (Owned.tailClear_of_empty rfl) (by simpa using hfits)
  refine ⟨q, hq, ?_, by simpa using hlen, by simpa [bitsOf] using hbits, htail, hrest⟩
  generalize q.obuf = b at hframe ⊢
  generalize q.outLen = n at hframe ⊢
  rw [hframe]

/-- Pack over bytes that pack, up to a byte that fails. -/
theorem pack_stops {p : Params} (hp : 8 * p.obufBytes < 2 ^ 32) {pre post : List Byte} {b : Byte} {o : Owned}
    (hvalid : ∀ c ∈ pre, (o.huf.codeOf c).valid = true) (hfits : packedLength o.huf pre ≤ 8 * p.obufBytes)
    (hfail : (o.huf.codeOf b).valid = false ∨
      8 * p.obufBytes < packedLength o.huf pre + (o.huf.codeOf b).len.toNat) :
    ∃ q, pack p (pre ++ b :: post) o =
      Result.raise q (if (o.huf.codeOf b).valid then .obufOvf else .noCode) pre.length ∧ o.Packed pre q := by
  obtain ⟨q, hpre, hq⟩ := pack_fits hp hvalid hfits
  refine ⟨_, ?_, hq.setPos (BitVec.ofNat 32 pre.length)⟩
  rw [pack, packLoop_append hpre, Nat.zero_add, packLoop_stops (by rwa [hq.huf, hq.outLen]), hq.huf]

/-- Pack that completes has packed its whole input. -/
theorem pack_done {p : Params} (hp : 8 * p.obufBytes < 2 ^ 32) {input : List Byte} {o : Owned}
    (hdone : (pack p input o).outcome = .done) : ∃ q, pack p input o = Result.complete q ∧ o.Packed input q := by
  obtain ⟨hvalid, hfits⟩ := packLoop_done hp (o := { o with outLen := 0#32 }) (Owned.tailClear_of_empty rfl)
    (Nat.zero_le _) hdone
  exact pack_fits hp hvalid (by simpa using hfits)

/-! ### HUF_PACK -/

theorem Params.obufBits_lt {p : Params} (hp : p.wf = true) : 8 * p.obufBytes < 2 ^ 32 := by
  obtain ⟨-, -, -, hobuf⟩ := Params.bufferSizes_of_wf hp
  omega

theorem exec_hufPack_of_le {s : State} (hlen : s.inLen.toNat ≤ s.params.ibufBytes) :
    exec .hufPack s = .next (s.complete (pack s.params s.snapshot.input s.own)) := by
  rw [exec_eq, if_neg Instr.noConfusion, show resultOf s.params s.snapshot .hufPack = _ from checkLen_pass hlen _,
    State.snapshot_own]

/-- Settles O31: `pack_fits`. -/
theorem hufPackConcatenatesCodes : Obligations.HufPackConcatenatesCodes := by
  intro s hp hlen hvalid hfits
  obtain ⟨q, hpack, hq⟩ := pack_fits (Params.obufBits_lt hp) hvalid hfits
  refine ⟨q, ?_, hq.frame, hq.outLen, hq.bits, hq.tail, hq.rest⟩
  rw [exec_hufPack_of_le hlen, hpack, State.complete_done]

/-- Settles O32: `pack_stops` at byte `i` of the input. -/
theorem hufPackStopsAtFirstFailingByte : Obligations.HufPackStopsAtFirstFailingByte := by
  intro s i b hp hlen hb hvalid hfits hfail
  obtain ⟨hi, hget⟩ := List.getElem?_eq_some_iff.mp hb
  have hsplit : s.snapshot.input = s.snapshot.input.take i ++ b :: s.snapshot.input.drop (i + 1) := by
    rw [← hget, List.cons_getElem_drop_succ, List.take_append_drop]
  obtain ⟨q, hpack, hq⟩ := pack_stops (Params.obufBits_lt hp) (post := s.snapshot.input.drop (i + 1)) hvalid hfits hfail
  rw [← hsplit, List.length_take_of_le hi.le] at hpack
  refine ⟨q, ?_, hq.frame, hq.outLen, hq.bits, hq.tail, hq.rest⟩
  rw [exec_hufPack_of_le hlen, hpack, State.complete_raise]

end Sys2Proof.Machine
end

section
/-! PROOFS. HUF_ENCODE (R141): the chain of its four steps, its tables, its output's length, and that
no code begins another (R142, R143). -/

namespace Sys2Proof.Machine

open Sys2Proof.Reference

/-! ### The tables of an input -/

/-- What the first three steps of HUF_ENCODE make of an input (R141). -/
def Huffman.tablesOf (h : Huffman) (input : List Byte) : Huffman := genCodes (buildTree (input.foldl Huffman.count h.clear))

/-- HUF_ENCODE packs its input with the tables of that input. -/
theorem hufEncodeBody_eq (p : Params) (input : List Byte) (o : Owned) :
    hufEncodeBody p input o =
      pack p input { o with huf := o.huf.tablesOf input, pos := BitVec.ofNat 32 input.length } := rfl

section Tables

variable {h : Huffman} {input : List Byte}

theorem Huffman.tablesOf_countsOf (hlen : input.length < 2 ^ 32) : (h.tablesOf input).CountsOf input :=
  (Huffman.countsOf_counts h input hlen).congr (buildTree_freq _) (buildTree_order _) (buildTree_nsym _)

theorem Huffman.tablesOf_countsOk (hlen : input.length ≤ 2 ^ 20) : (h.tablesOf input).CountsOk :=
  (Huffman.tablesOf_countsOf (by omega)).countsOk hlen

theorem Huffman.tablesOf_treeCurrent : (h.tablesOf input).TreeCurrent :=
  (buildTree_treeCurrent _).congr rfl rfl rfl rfl rfl rfl

/-- The tree of an input that is not empty, and its codes. -/
theorem Huffman.tablesOf_isCoded (hlen : input.length ≤ 2 ^ 20) (hpos : (h.tablesOf input).order ≠ []) :
    (h.tablesOf input).IsCoded where
  toIsTree := (Huffman.tablesOf_countsOk hlen).isTree_of_current hpos Huffman.tablesOf_treeCurrent
  codes := rfl

/-- R141: E_NO_CODE cannot occur, since every byte of the input was counted. -/
theorem Huffman.tablesOf_valid (hlen : input.length ≤ 2 ^ 20) {b : Byte} (hb : b ∈ input) :
    ((h.tablesOf input).codeOf b).valid = true := by
  have hmem : b ∈ (h.tablesOf input).order := ((Huffman.tablesOf_countsOf (by omega)).mem_order b).mpr hb
  exact (Huffman.tablesOf_isCoded hlen (List.ne_nil_of_mem hmem)).codeOf_valid hmem

end Tables

/-! ### The command -/

theorem exec_hufEncode_of_le {s : State} (hlen : s.inLen.toNat ≤ s.params.ibufBytes) :
    exec .hufEncode s = .next (s.complete (hufEncodeBody s.params s.snapshot.input s.own)) := by
  rw [exec_eq, if_neg Instr.noConfusion, show resultOf s.params s.snapshot .hufEncode = _ from checkLen_pass hlen _,
    State.snapshot_own]

/-- A legal input has at most 2^20 bytes (R6). -/
theorem State.input_length_le {s : State} (hp : s.params.wf = true) (hlen : s.inLen.toNat ≤ s.params.ibufBytes) :
    s.snapshot.input.length ≤ 2 ^ 20 := by
  obtain ⟨-, hibuf, -, -⟩ := Params.bufferSizes_of_wf hp
  rw [Snapshot.input_length]
  exact hlen.trans hibuf

/-- HUF_ENCODE leaves the tables of its input, whatever its outcome. -/
theorem exec_hufEncode_huf {s t : State} (hlen : s.inLen.toNat ≤ s.params.ibufBytes) (h : exec .hufEncode s = .next t) :
    t.own.huf = s.own.huf.tablesOf s.snapshot.input := by
  rw [exec_hufEncode_of_le hlen] at h
  cases h
  rw [State.complete_own]
  exact hufEncodeBody_huf s.params s.snapshot.input s.own

/-- `s` with the engine-owned state `o`. -/
def State.withOwn (s : State) (o : Owned) : State := { s with own := o }

@[simp] theorem State.withOwn_withOwn (s : State) (o p : Owned) : (s.withOwn o).withOwn p = s.withOwn p := rfl

/-- Of a command that completed without an error, the next acceptance leaves only what the engine owns (R111). -/
theorem State.accept_of_next {s t : State} {v : Word} {o : Owned}
    (h : Host.Outcome.next (φ := Fault) (ρ := Refusal) ((s.accept v).finished o) = .next t) (w : Word) :
    t.accept w = (s.withOwn o).accept w := by
  cases h
  rfl

/-- Of the state a command is accepted in, its completion with the outcome `r` keeps neither what the engine owned nor, but for
CMD and LASTOP, which command it was. -/
theorem State.complete_accept_congr {s d t : State} {v w : Word} {o : Owned} {r : Result}
    (hd : Host.Outcome.next (φ := Fault) (ρ := Refusal) (((s.withOwn o).accept v).complete r) = .next d)
    (ht : Host.Outcome.next (φ := Fault) (ρ := Refusal) ((s.accept w).complete r) = .next t) :
    t = { d with cmd := t.cmd, status := { d.status with lastop := t.status.lastop } } := by
  cases hd
  cases ht
  rcases r with ⟨q, _ | ⟨e, pos⟩⟩ <;> rfl

/-- Settles O33: the first three steps leave the tables that HUF_ENCODE makes, and either way the last step packs the same input
with them. -/
theorem hufEncodeIsTheChain : Obligations.HufEncodeIsTheChain := by
  intro s a b c d t hlen ha hb hc hd ht
  have hpack : ∀ o : Owned, exec .hufPack ((s.withOwn o).accept (encode .hufPack)) = _ := fun o => exec_hufPack_of_le hlen
  rw [exec_hufFreq_of_le (s := s.accept _) hlen] at ha
  rw [State.accept_of_next ha, exec_hufTree] at hb
  rw [State.accept_of_next hb, State.withOwn_withOwn, exec_hufCodes] at hc
  rw [State.accept_of_next hc, State.withOwn_withOwn, hpack] at hd
  rw [exec_hufEncode_of_le (s := s.accept _) hlen, hufEncodeBody_eq] at ht
  exact State.complete_accept_congr hd ht

/-! ### The length of the output (R142) -/

/-- A command with a length check that leaves no error has passed it, and its body has raised none. -/
theorem State.complete_checkLen_done {s : State} {body : Result}
    (hnone : (s.complete (checkLen s.params s.snapshot body)).status.error = none) :
    s.inLen.toNat ≤ s.params.ibufBytes ∧ body.outcome = .done := by
  rcases Nat.lt_or_ge s.params.ibufBytes s.inLen.toNat with hlen | hlen
  · rw [checkLen_raise hlen] at hnone
    cases hnone
  · rw [checkLen_pass hlen] at hnone
    refine ⟨hlen, ?_⟩
    rcases body with ⟨o, _ | ⟨e, pos⟩⟩
    · rfl
    · cases hnone

/-- HUF_PACK and HUF_ENCODE without an error have packed the input by the code table they leave. -/
theorem exec_packed {s t : State} (hp : s.params.wf = true) (h : exec .hufPack s = .next t ∨ exec .hufEncode s = .next t)
    (hnone : t.status.error = none) : s.inLen.toNat ≤ s.params.ibufBytes ∧
      t.own.outLen.toNat = packedLength t.own.huf s.snapshot.input ∧
      bitsOf t.own.obuf t.own.outLen.toNat = packedBits t.own.huf s.snapshot.input := by
  obtain ⟨o, rfl⟩ : ∃ o, t = s.complete (checkLen s.params s.snapshot (pack s.params s.snapshot.input o)) := by
    rcases h with h | h <;> cases h <;> exact ⟨_, rfl⟩
  obtain ⟨hlen, hdone⟩ := State.complete_checkLen_done hnone
  obtain ⟨q, hpack, hq⟩ := pack_done (Params.obufBits_lt hp) hdone
  rw [checkLen_pass hlen, hpack, State.complete_done, State.finished_own, hq.huf]
  exact ⟨hlen, hq.outLen, hq.bits⟩

/-- Settles O34: `exec_packed`, the sum over the counted symbols, and `tablesOf`'s own lemmas. -/
theorem huffmanOutputLength : Obligations.HuffmanOutputLength := by
  intro s hp
  refine ⟨fun t h _ hnone => ?_, fun t h _ hnone => ?_, fun hlen => ?_⟩
  · exact (exec_packed hp h hnone).2.1
  · obtain ⟨hlen, houtLen, -⟩ := exec_packed hp (.inr h) hnone
    have hinput := State.input_length_le hp hlen
    have hc := Huffman.tablesOf_countsOf (h := s.own.huf) (input := s.snapshot.input) (by omega)
    rw [houtLen, exec_hufEncode_huf hlen h, hc.sum_order]
    rfl
  · have hinput := State.input_length_le hp hlen
    have hexec := exec_hufEncode_of_le hlen
    have hhuf := exec_hufEncode_huf hlen hexec
    refine ⟨_, hexec, ?_, ?_, ?_, fun hfits => ?_⟩
    · exact hhuf ▸ Huffman.tablesOf_countsOk hinput
    · rw [hhuf, (Huffman.tablesOf_countsOf (by omega)).totalCount_eq, Snapshot.input_length, State.snapshot_inLen]
    · exact hhuf ▸ Huffman.tablesOf_treeCurrent
    · rw [hhuf] at hfits
      obtain ⟨q, hpack, -⟩ := pack_fits (Params.obufBits_lt hp)
        (o := { s.own with huf := s.own.huf.tablesOf s.snapshot.input, pos := BitVec.ofNat 32 s.snapshot.input.length })
        (fun b hb => Huffman.tablesOf_valid hinput hb) hfits
      rw [hufEncodeBody_eq, hpack]
      rfl

/-! ### No code begins another (R143) -/

/-- No valid code is empty or begins another symbol's (R143). -/
def Huffman.PrefixFree (h : Huffman) : Prop :=
  ∀ a b : Byte, (h.codeOf a).valid = true → (h.codeOf b).valid = true →
    (h.codeOf a).bits ≠ [] ∧ ((h.codeOf a).bits <+: (h.codeOf b).bits → a = b)

/-- R143: with two symbols or more. -/
theorem Huffman.IsCoded.prefixFree {h : Huffman} (hc : h.IsCoded) (htwo : 2 ≤ h.order.length) : h.PrefixFree := by
  intro a b ha hb
  have hpa := hc.code_iff_path.mp ⟨ha, rfl⟩
  have hpb := hc.code_iff_path.mp ⟨hb, rfl⟩
  exact ⟨hc.path_ne_nil hpa htwo, hc.path_prefix hpa hpb⟩

/-- After HUF_ENCODE of an input of two or more symbols. -/
theorem exec_hufEncode_prefixFree {s t : State} (hp : s.params.wf = true) (hlen : s.inLen.toNat ≤ s.params.ibufBytes)
    (h : exec .hufEncode s = .next t) (htwo : 2 ≤ t.own.huf.order.length) : t.own.huf.PrefixFree := by
  rw [exec_hufEncode_huf hlen h] at htwo ⊢
  refine (Huffman.tablesOf_isCoded (State.input_length_le hp hlen) fun hnil => ?_).prefixFree htwo
  rw [hnil] at htwo
  exact absurd htwo (by decide)

/-- Settles O35: `exec_hufEncode_prefixFree`. -/
theorem huffmanCodesArePrefixFree : Obligations.HuffmanCodesArePrefixFree :=
  fun _ _ hp hlen h htwo => exec_hufEncode_prefixFree hp hlen h htwo

end Sys2Proof.Machine
end

section
/-! PROOFS. A reader of a code table of which no code begins another decodes what was packed with it (R143). -/

namespace Sys2Proof.Machine

open Sys2Proof.Reference

/-- What the reader finds has the code it looked for. -/
theorem symbolOf_eq_some {h : Huffman} {bits : List Bool} {s : Byte} (hs : symbolOf h bits = some s) :
    (h.codeOf s).valid = true ∧ (h.codeOf s).bits = bits := by
  simpa using List.find?_some hs

/-- A reader that finds nothing has looked at every symbol. -/
theorem symbolOf_ne_none {h : Huffman} {bits : List Bool} {s : Byte} (hvalid : (h.codeOf s).valid = true)
    (hbits : (h.codeOf s).bits = bits) : symbolOf h bits ≠ none := by
  intro hnone
  have hmem : s ∈ (List.range 256).map (BitVec.ofNat 8) :=
    List.mem_map.mpr ⟨s.toNat, List.mem_range.mpr s.isLt, by simp⟩
  have hnot := List.find?_eq_none.mp hnone s hmem
  simp [hvalid, hbits] at hnot

namespace Huffman.PrefixFree

variable {h : Huffman} (hfree : h.PrefixFree) {b : Byte} (hb : (h.codeOf b).valid = true)
include hfree hb

/-- A symbol that is found at the beginning of a symbol's code is that symbol, and its code is all there. -/
theorem eq_of_symbolOf_prefix {bits : List Bool} (hpre : bits <+: (h.codeOf b).bits) {s : Byte}
    (hs : symbolOf h bits = some s) : s = b ∧ bits = (h.codeOf b).bits := by
  obtain ⟨hvalid, rfl⟩ := symbolOf_eq_some hs
  obtain rfl := (hfree s b hvalid hb).2 hpre
  exact ⟨rfl, rfl⟩

theorem symbolOf_code : symbolOf h (h.codeOf b).bits = some b := by
  obtain ⟨s, hs⟩ := Option.ne_none_iff_exists'.mp (symbolOf_ne_none hb rfl)
  obtain ⟨rfl, -⟩ := hfree.eq_of_symbolOf_prefix hb List.prefix_rfl hs
  exact hs

/-- The reader goes on to the end of a code and gives its symbol. -/
theorem decodeBits_code {seen tail : List Bool} (hcode : seen ++ tail = (h.codeOf b).bits) (htail : tail ≠ [])
    (rest : List Bool) : decodeBits h seen (tail ++ rest) = b :: decodeBits h [] rest := by
  induction tail generalizing seen with
  | nil => exact absurd rfl htail
  | cons d ds ih =>
    have hcode' : (seen ++ [d]) ++ ds = (h.codeOf b).bits := by rw [← hcode, List.append_assoc, List.singleton_append]
    rw [List.cons_append, decodeBits]
    by_cases hds : ds = []
    · subst hds
      rw [List.append_nil] at hcode'
      rw [hcode', hfree.symbolOf_code hb, List.nil_append]
    · have hnone : symbolOf h (seen ++ [d]) = none := by
        by_contra hsome
        obtain ⟨s, hs⟩ := Option.ne_none_iff_exists'.mp hsome
        obtain ⟨-, hall⟩ := hfree.eq_of_symbolOf_prefix hb ⟨ds, hcode'⟩ hs
        exact hds (List.append_right_eq_self.mp (hcode'.trans hall.symm))
      rw [hnone]
      exact ih hcode' hds

end Huffman.PrefixFree

/-- The reader gets the packed input back (R143). -/
theorem Huffman.PrefixFree.decodeBits_packedBits {h : Huffman} (hfree : h.PrefixFree) {input : List Byte}
    (hvalid : ∀ b ∈ input, (h.codeOf b).valid = true) : decodeBits h [] (packedBits h input) = input := by
  induction input with
  | nil => rfl
  | cons b bs ih =>
    obtain ⟨hb, hbs⟩ := List.forall_mem_cons.mp hvalid
    have hsplit : packedBits h (b :: bs) = (h.codeOf b).bits ++ packedBits h bs := List.flatMap_cons
    rw [hsplit, hfree.decodeBits_code hb rfl (hfree b b hb hb).1, ih hbs]

/-- Settles O36: the output is the packed input, which `decodeBits_packedBits` reads. -/
theorem huffmanRoundTrip : Obligations.HuffmanRoundTrip := by
  intro s t hp hlen _ h hnone htwo
  have hinput := State.input_length_le hp hlen
  obtain ⟨-, -, hbits⟩ := exec_packed hp (.inr h) hnone
  rw [hbits]
  refine (exec_hufEncode_prefixFree hp hlen h htwo).decodeBits_packedBits fun b hb => ?_
  rw [exec_hufEncode_huf hlen h]
  exact Huffman.tablesOf_valid hinput hb

end Sys2Proof.Machine
end

section
/-! PROOFS. HUF_ENCODE of the empty input and of one repeated symbol (R144, R145): no bit of output. -/

namespace Sys2Proof.Machine

open Sys2Proof.Reference

/-! ### Pack without output -/

/-- R139: a symbol with the empty code adds no bits. -/
theorem packLoop_of_empty_codes (p : Params) {input : List Byte} (i : Nat) {o : Owned} (hstart : o.outLen = 0#32)
    (hcodes : ∀ b ∈ input, o.huf.codeOf b = ⟨true, 0#8, 0#256⟩) :
    packLoop p input i o = Result.complete { o with pos := BitVec.ofNat 32 (i + input.length) } := by
  induction input generalizing i o with
  | nil => rfl
  | cons b bs ih =>
    obtain ⟨hb, hbs⟩ := List.forall_mem_cons.mp hcodes
    have hfits : ¬ o.outLen.toNat + (0#8).toNat > 8 * p.obufBytes := by simp [hstart]
    have hnext := ih (i + 1) (o := { o with pos := BitVec.ofNat 32 i }) hstart hbs
    rw [Nat.add_right_comm] at hnext
    simp only [packLoop, hb, hfits]
    exact hnext

theorem pack_of_empty_codes (p : Params) {input : List Byte} {o : Owned}
    (hcodes : ∀ b ∈ input, o.huf.codeOf b = ⟨true, 0#8, 0#256⟩) :
    pack p input o = Result.complete { o with outLen := 0#32, pos := BitVec.ofNat 32 input.length } := by
  have hloop := packLoop_of_empty_codes p 0 (o := { o with outLen := 0#32 }) rfl hcodes
  rwa [Nat.zero_add] at hloop

theorem exec_hufEncode_of_empty_codes {s : State} (hlen : s.inLen.toNat ≤ s.params.ibufBytes)
    (hcodes : ∀ b ∈ s.snapshot.input, (s.own.huf.tablesOf s.snapshot.input).codeOf b = ⟨true, 0#8, 0#256⟩) :
    exec .hufEncode s = .next (s.finished { s.own with
      outLen := 0#32, pos := BitVec.ofNat 32 s.snapshot.input.length
      huf := s.own.huf.tablesOf s.snapshot.input }) := by
  generalize hhuf : s.own.huf.tablesOf s.snapshot.input = k at hcodes ⊢
  have hpack := pack_of_empty_codes s.params (input := s.snapshot.input)
    (o := { s.own with huf := k, pos := BitVec.ofNat 32 s.snapshot.input.length }) hcodes
  rw [exec_hufEncode_of_le hlen, hufEncodeBody_eq, hhuf, hpack, State.complete_done]

/-- Settles O37: no symbol, so BuildTree makes no tree and GenCodes no code. -/
theorem hufEncodeOfEmptyInput : Obligations.HufEncodeOfEmptyInput := by
  intro s hlen
  have hinput : s.snapshot.input = [] := by
    rw [← List.length_eq_zero_iff, Snapshot.input_length, State.snapshot_inLen, hlen]
    rfl
  have hexec := exec_hufEncode_of_empty_codes (s := s) (by simp [hlen]) (by simp [hinput])
  rw [hinput] at hexec
  obtain ⟨harena, hnnodes, hroot⟩ := buildTree_of_nsym_eq_zero s.own.huf.clear_nsym
  have hc : (s.own.huf.tablesOf []).CountsOf [] := Huffman.tablesOf_countsOf (Nat.two_pow_pos 32)
  exact ⟨_, _, hexec, buildTree_nsym _, buildTree_order _, hnnodes, harena, hroot, buildTree_work _,
    fun b => hc.freqOf_eq_zero.mpr List.not_mem_nil,
    Huffman.codeOf_of_cleared (congrArg Huffman.codes (genCodes_of_noRoot hroot))⟩

/-- The tables of one repeated symbol: a tree that is one leaf, whose path is empty (R145). -/
theorem Huffman.tablesOf_replicate {h k : Huffman} {n : Nat} {b : Byte} (hlen : n + 1 ≤ 2 ^ 20)
    (hk : k = h.tablesOf (List.replicate (n + 1) b)) :
    k.nsym = 1#32 ∧ k.order = [b] ∧ k.nnodes = 1#32 ∧ k.root = 0#32 ∧ k.arena = [⟨BitVec.ofNat 32 (n + 1), .leaf b⟩] ∧
      k.codeOf b = ⟨true, 0#8, 0#256⟩ ∧ (k.freqOf b).toNat = n + 1 ∧
      ∀ c, c ≠ b → k.freqOf c = 0#32 ∧ k.codeOf c = ⟨false, 0#8, 0#256⟩ := by
  have hlength : (List.replicate (n + 1) b).length ≤ 2 ^ 20 := by rwa [List.length_replicate]
  have hc : k.CountsOf (List.replicate (n + 1) b) := hk ▸ Huffman.tablesOf_countsOf (by omega)
  have horder : k.order = [b] := by
    rw [← List.perm_singleton, List.perm_ext_iff_of_nodup hc.nodup (List.nodup_singleton b)]
    intro c
    rw [hc.mem_order, List.mem_replicate, List.mem_singleton]
    simp
  have hfreq : (k.freqOf b).toNat = n + 1 := by rw [hc.freqOf, List.count_replicate_self]
  have ht : k.IsCoded := hk ▸ Huffman.tablesOf_isCoded hlength (by rw [← hk, horder]; exact List.cons_ne_nil b [])
  have hleaf := ht.shape.leaves 0 b (by rw [horder]; rfl)
  have hroot : k.root = 0#32 := BitVec.eq_of_toNat_eq (by rw [ht.shape.root, horder]; rfl)
  have harena : k.arena = [⟨BitVec.ofNat 32 (n + 1), .leaf b⟩] := by
    obtain ⟨nd, hnd⟩ := List.length_eq_one_iff.mp (by rw [ht.shape.arena, horder]; rfl : k.arena.length = 1)
    rw [hnd] at hleaf
    rw [hnd, Option.some.inj hleaf, ← hfreq, BitVec.ofNat_toNat, BitVec.setWidth_eq]
  have hcode : k.codeOf b = pathEntry 0 0 [] := ht.codeOf_of_path (by rw [hroot, harena]; rfl)
  refine ⟨BitVec.eq_of_toNat_eq (by rw [hc.nsym, horder]; rfl), horder,
    BitVec.eq_of_toNat_eq (by rw [ht.shape.nnodes, horder]; rfl), hroot, harena, hcode, hfreq, fun c hne => ⟨?_, ?_⟩⟩
  · exact hc.freqOf_eq_zero.mpr fun hmem => hne (List.eq_of_mem_replicate hmem)
  · exact ht.codeOf_of_notMem fun hmem => hne (List.mem_singleton.mp (horder ▸ hmem))

/-- Settles O38: `tablesOf_replicate`, and Pack with the empty code alone. -/
theorem hufEncodeOfOneSymbol : Obligations.HufEncodeOfOneSymbol := by
  intro s n b hp hlen hinput
  have hn : n + 1 ≤ 2 ^ 20 := by
    have hle := State.input_length_le hp hlen
    rwa [hinput, List.length_replicate] at hle
  obtain ⟨hnsym, horder, hnnodes, hroot, harena, hcode, hfreq, hothers⟩ := Huffman.tablesOf_replicate (h := s.own.huf) hn rfl
  have hcodes : ∀ c ∈ s.snapshot.input, (s.own.huf.tablesOf s.snapshot.input).codeOf c = ⟨true, 0#8, 0#256⟩ := by
    rw [hinput]
    intro c hc
    rw [List.eq_of_mem_replicate hc, hcode]
  have hexec := exec_hufEncode_of_empty_codes hlen hcodes
  rw [hinput] at hexec
  exact ⟨_, _, hexec, hnsym, horder, hnnodes, hroot, harena, hcode, hfreq, hothers⟩

end Sys2Proof.Machine
end

section
/-! PROOFS. Every step keeps the LZW dictionary well formed (R37, R50, R170 to R174). -/

namespace Sys2Proof.Machine

/-- The dictionary while LzwLoop runs (R174): DICT_COUNT counts the 256 implicit entries too, and ACC is a code of the dictionary. -/
structure Lzw.Running (cap : Nat) (z : Lzw) : Prop where
  count : z.dictCount.toNat = 256 + z.dict.length
  capacity : 256 + z.dict.length ≤ cap
  earlier : ∀ (k : Nat) (e : DictEntry), z.dict[k]? = some e → e.pfx.toNat < 256 + k
  nodup : z.dict.Nodup
  acc : ∀ a ∈ z.acc, a.toNat < 256 + z.dict.length

namespace Lzw.Running

variable {cap : Nat} {z : Lzw}

theorem dictOk (h : z.Running cap) : z.DictOk cap :=
  ⟨.inr h.count, h.count ▸ h.capacity, h.earlier, h.nodup⟩

/-- The accumulator may take any code of the dictionary. -/
theorem withAcc (h : z.Running cap) {c : Word} (hc : c.toNat < 256 + z.dict.length) : Running cap { z with acc := some c } :=
  ⟨h.count, h.capacity, h.earlier, h.nodup, by rintro _ ⟨⟩; exact hc⟩

/-- A byte is its own code (R170). -/
theorem withAcc_byte (h : z.Running cap) (b : Byte) : Running cap { z with acc := some (b.setWidth 32) } := by
  refine h.withAcc ?_
  rw [BitVec.toNat_setWidth]
  omega

/-- A code that Lookup finds is one of the dictionary (R171). -/
theorem withAcc_of_lookup (h : z.Running cap) (hcap : cap ≤ 2 ^ 21) {a c : Word} {b : Byte} (hlook : z.lookup a b = some c) :
    Running cap { z with acc := some c } := by
  have hlen : z.dict.length < 2 ^ 31 := by have := h.capacity; omega
  obtain ⟨-, hc, -⟩ := Lzw.lookup_some hlen hlook
  exact h.withAcc hc

/-- Insert (R172), after Lookup missed and found room: the entry is new, and its DPREFIX an earlier code. -/
theorem insert (h : z.Running cap) (hcap : cap ≤ 2 ^ 21) {a : Word} {b : Byte} (ha : a ∈ z.acc) (hmiss : z.lookup a b = none)
    (hroom : z.dictCount.toNat ≠ cap) : (z.insert a b).Running cap := by
  obtain ⟨hcount, hcapacity, hearlier, hnodup, hacc⟩ := h
  have hlen : (z.insert a b).dict.length = z.dict.length + 1 := by simp
  refine ⟨?_, by omega, fun k e hk => ?_, ?_, fun c hc => ?_⟩
  · rw [Lzw.insert_dictCount, BitVec.toNat_add, BitVec.toNat_ofNat, hlen]
    omega
  · rw [Lzw.insert_dict, List.getElem?_append] at hk
    split at hk
    · exact hearlier k e hk
    · have := hacc a ha
      obtain ⟨-, rfl⟩ : k - z.dict.length = 0 ∧ _ = e := by simpa [List.getElem?_singleton] using hk
      show a.toNat < 256 + k
      omega
  · rw [Lzw.insert_dict]
    exact List.concat_eq_append ▸ hnodup.concat (Lzw.lookup_none.mp hmiss)
  · have := hacc c hc
    omega

end Lzw.Running

/-- LzwLoop keeps the dictionary well formed, whatever its outcome (R174). -/
theorem lzwLoop_running {p : Params} (hcap : p.dictCap ≤ 2 ^ 21) (input : List Byte) (i : Nat) {o : Owned}
    (ho : o.lzw.Running p.dictCap) : (lzwLoop p input i o).own.lzw.Running p.dictCap := by
  induction input generalizing i o with
  | nil =>
    simp only [lzwLoop]
    split
    · exact ho
    · split <;> exact ho
  | cons b bs ih =>
    simp only [lzwLoop]
    split
    · exact ih (i + 1) (ho.withAcc_byte b)
    · rename_i a hacc
      split
      · rename_i c hlook
        exact ih (i + 1) (ho.withAcc_of_lookup hcap hlook)
      · rename_i hmiss
        split
        · exact ho
        · split
          · exact ho
          · rename_i hroom
            refine ih (i + 1) ((ho.insert hcap hacc hmiss ?_).withAcc_byte b)
            simpa [Lzw.full] using hroom

/-- R173: InitDict leaves the 256 implicit entries alone. -/
theorem Lzw.initDict_running {cap : Nat} (hcap : 256 ≤ cap) (z : Lzw) : Running cap { z.initDict with acc := none } :=
  ⟨rfl, hcap, by simp, List.nodup_nil, by simp⟩

theorem resultOf_dictOk {p : Params} (hp : p.wf = true) {x : Snapshot} (hx : x.own.lzw.DictOk p.dictCap) (i : Instr) :
    (resultOf p x i).own.lzw.DictOk p.dictCap := by
  obtain ⟨hlow, hhigh⟩ := Params.dictCap_of_wf hp
  by_cases hsoft : i = .softReset
  · subst hsoft
    exact Lzw.dictOk_of_empty rfl rfl
  · by_cases hlzw : i = .lzwEncode
    · subst hlzw
      rcases checkLen_own_cases p x (lzwEncodeBody p x.input x.own) with hown | hown <;>
        rw [show resultOf p x .lzwEncode = checkLen p x (lzwEncodeBody p x.input x.own) from rfl, hown]
      · exact hx
      · exact (lzwLoop_running hhigh _ _ (Lzw.initDict_running hlow _)).dictOk
    · rw [(resultOf_keeps p x hsoft).lzw hlzw]
      exact hx

/-- No host write touches the LZW state. -/
@[simp] theorem State.writeLoc_lzw (s : State) (v : Word) (l : Loc) : (s.writeLoc v l).own.lzw = s.own.lzw := by
  rcases s.writeLoc_cases v l with h | ⟨_, _, h⟩ | ⟨_, _, h⟩ | ⟨_, h⟩ | ⟨_, _, h⟩ | ⟨_, h⟩ | ⟨_, _, _, h⟩ <;> simp [h]

/-- The host's turn leaves the LZW state. -/
theorem hostStep_lzw {s t : State} (h : hostStep s = .next t) : t.own.lzw = s.own.lzw := by
  rcases hostStep_next h with ⟨-, rfl⟩ | ⟨_, _, _, _, _, _, rfl⟩ | ⟨_, _, _, _, _, rfl⟩ | ⟨_, _, rfl⟩ <;> simp

/-- Settles O54: by who moves; LZW_ENCODE keeps the dictionary well formed by `lzwLoop_running`, and both resets empty it. -/
theorem stepKeepsDictionary : Obligations.StepKeepsDictionary := by
  intro s t hp hs h
  rw [step_params h]
  rcases step_next h with ⟨-, hhost⟩ | ⟨-, -, rfl⟩ | ⟨-, _, _, i, -, -, hexec⟩ | ⟨-, _, _, _, -, -, rfl⟩ | ⟨-, rfl⟩
  · exact hostStep_lzw hhost ▸ hs
  · exact hs
  · rw [exec_own hexec]
    exact resultOf_dictOk hp hs i
  · exact hs
  · exact Lzw.dictOk_of_empty rfl rfl

end Sys2Proof.Machine
end

section
/-! PROOFS. The LZW encoder over strings (R170 to R175): the codes of strings, and how many codes an input has and how large they
are (R177, R178). -/

namespace Sys2Proof.Machine

open Sys2Proof.Reference

/-! ### The codes of strings (R170) -/

/-- A string with a code is a single byte or one of the keys. -/
theorem stringCode_eq_some {keys : List (List Byte)} {str : List Byte} {c : Nat} (h : stringCode keys str = some c) :
    (∃ b : Byte, str = [b] ∧ c = b.toNat) ∨ ((∀ b, str ≠ [b]) ∧ ∃ k, keys.idxOf? str = some k ∧ c = 256 + k) := by
  unfold stringCode at h
  split at h
  · exact .inl ⟨_, rfl, by simpa using h.symm⟩
  · next hne =>
    obtain ⟨k, hk, rfl⟩ := Option.map_eq_some_iff.mp h
    exact .inr ⟨hne, k, hk, rfl⟩

/-- A string of two bytes or more is looked for among the keys. -/
theorem stringCode_append_singleton (keys : List (List Byte)) {cur : List Byte} (hcur : cur ≠ []) (b : Byte) :
    stringCode keys (cur ++ [b]) = (keys.idxOf? (cur ++ [b])).map (256 + ·) := by
  obtain ⟨d, ds, rfl⟩ := List.exists_cons_of_ne_nil hcur
  cases ds <;> rfl

theorem stringCode_lt {keys : List (List Byte)} {str : List Byte} {c : Nat} (h : stringCode keys str = some c) :
    c < 256 + keys.length := by
  rcases stringCode_eq_some h with ⟨b, -, rfl⟩ | ⟨-, k, hk, rfl⟩
  · omega
  · obtain ⟨hlt, -⟩ := List.idxOf?_eq_some_iff.mp hk
    omega

/-- No two strings have the same code. -/
theorem stringCode_injective {keys : List (List Byte)} {str str' : List Byte} {c : Nat} (h : stringCode keys str = some c)
    (h' : stringCode keys str' = some c) : str = str' := by
  rcases stringCode_eq_some h with ⟨b, rfl, rfl⟩ | ⟨-, k, hk, rfl⟩ <;>
    rcases stringCode_eq_some h' with ⟨b', rfl, heq⟩ | ⟨-, k', hk', heq⟩
  · rw [BitVec.eq_of_toNat_eq heq]
  · omega
  · omega
  · obtain rfl : k = k' := by omega
    obtain ⟨_, hget, -⟩ := List.idxOf?_eq_some_iff.mp hk
    obtain ⟨_, hget', -⟩ := List.idxOf?_eq_some_iff.mp hk'
    exact hget.symm.trans hget'

/-- A new key leaves the codes of the strings before it. -/
theorem stringCode_concat {keys : List (List Byte)} {str : List Byte} {c : Nat} (h : stringCode keys str = some c)
    (key : List Byte) : stringCode (keys ++ [key]) str = some c := by
  rcases stringCode_eq_some h with ⟨b, rfl, rfl⟩ | ⟨hne, k, hk, rfl⟩
  · rfl
  · have hk' : (keys ++ [key]).idxOf? str = some k := by
      rw [List.idxOf?, List.findIdx?_append, ← List.idxOf?, hk]
      rfl
    unfold stringCode
    split
    · exact absurd rfl (hne _)
    · rw [hk']
      rfl

/-! ### One byte of input (R174) -/

section Byte

variable {keys : List (List Byte)} {cur bs : List Byte} {b : Byte} {i : Nat}

theorem lzwCodes_of_hit (h : (stringCode keys (cur ++ [b])).isSome) :
    lzwCodes keys cur (b :: bs) i = lzwCodes keys (cur ++ [b]) bs (i + 1) := by
  rw [lzwCodes, if_pos h]

theorem lzwCodes_of_miss (h : stringCode keys (cur ++ [b]) = none) :
    lzwCodes keys cur (b :: bs) i =
      ((stringCode keys cur).getD 0, i) :: lzwCodes (keys ++ [cur ++ [b]]) [b] bs (i + 1) := by
  rw [lzwCodes, if_neg (by simp [h])]

theorem lzwCodes_nil (hcur : cur ≠ []) : lzwCodes keys cur [] i = [((stringCode keys cur).getD 0, i)] := by
  rw [lzwCodes, if_neg hcur]

/-- The first byte only enters the accumulator. -/
theorem lzwOutput_cons : lzwOutput (b :: bs) = lzwCodes [] [b] bs 1 := rfl

end Byte

/-! ### How many codes, and how large -/

/-- The string in the accumulator is emitted at last. -/
theorem lzwCodes_ne_nil (keys : List (List Byte)) {cur : List Byte} (hcur : cur ≠ []) (bs : List Byte) (i : Nat) :
    lzwCodes keys cur bs i ≠ [] := by
  induction bs generalizing keys cur i with
  | nil => simp [lzwCodes_nil hcur]
  | cons b bs ih =>
    cases hcode : stringCode keys (cur ++ [b]) with
    | none => simp [lzwCodes_of_miss hcode]
    | some c => rw [lzwCodes_of_hit (by simp [hcode])]; exact ih keys (by simp) _

/-- R177: each code is one of the dictionary at that moment, which has one more entry for every code before it. -/
theorem lzwCodes_lt {keys : List (List Byte)} {cur bs : List Byte} {i c : Nat} (hcur : cur ≠ [])
    (hcode : stringCode keys cur = some c) {k : Nat} {u : Nat × Nat} (hk : (lzwCodes keys cur bs i)[k]? = some u) :
    u.1 < 256 + keys.length + k := by
  induction bs generalizing keys cur i c k with
  | nil =>
    rw [lzwCodes_nil hcur, hcode, List.getElem?_singleton] at hk
    obtain ⟨rfl, rfl⟩ : k = 0 ∧ (c, i) = u := by simpa using hk
    exact stringCode_lt hcode
  | cons b bs ih =>
    cases hnext : stringCode keys (cur ++ [b]) with
    | none =>
      rw [lzwCodes_of_miss hnext, hcode] at hk
      cases k with
      | zero =>
        obtain rfl : (c, i) = u := by simpa using hk
        exact stringCode_lt hcode
      | succ k =>
        have hrest := ih (by simp) (rfl : stringCode (keys ++ [cur ++ [b]]) [b] = some b.toNat) hk
        rw [List.length_append, List.length_singleton] at hrest
        omega
    | some d =>
      rw [lzwCodes_of_hit (by simp [hnext])] at hk
      exact ih (by simp) hnext hk

/-- R178: at most one code for each byte, the accumulator's included. -/
theorem lzwCodes_length_le (keys : List (List Byte)) (cur bs : List Byte) (i : Nat) :
    (lzwCodes keys cur bs i).length ≤ bs.length + 1 := by
  induction bs generalizing keys cur i with
  | nil => rw [lzwCodes]; split <;> simp
  | cons b bs ih =>
    cases hcode : stringCode keys (cur ++ [b]) with
    | none =>
      rw [lzwCodes_of_miss hcode]
      exact Nat.succ_le_succ (ih _ _ _)
    | some c =>
      rw [lzwCodes_of_hit (by simp [hcode])]
      exact (ih _ _ _).trans (Nat.le_succ _)

/-- The key of a pair of bytes. -/
def pairKey (q : Byte × Byte) : List Byte := [q.1, q.2]

theorem stringCode_pair_isSome (seen : List (Byte × Byte)) (b c : Byte) :
    (stringCode (seen.map pairKey) ([b] ++ [c])).isSome ↔ (b, c) ∈ seen := by
  rw [stringCode_append_singleton _ (by simp), Option.isSome_map, List.isSome_idxOf?]
  simp [pairKey]

/-- R178: as long as the keys are the pairs read so far, and these all different, every byte gives a code exactly when the pairs to
come are different from those and from each other. -/
theorem lzwCodes_length_eq_iff {seen : List (Byte × Byte)} (hseen : seen.Nodup) (b : Byte) (bs : List Byte) (i : Nat) :
    (lzwCodes (seen.map pairKey) [b] bs i).length = bs.length + 1 ↔ (seen ++ (b :: bs).zip bs).Nodup := by
  induction bs generalizing seen b i with
  | nil => simpa [lzwCodes_nil] using hseen
  | cons c bs ih =>
    rw [List.zip_cons_cons]
    by_cases hmem : (b, c) ∈ seen
    · have hshort := lzwCodes_length_le (seen.map pairKey) ([b] ++ [c]) bs (i + 1)
      rw [lzwCodes_of_hit ((stringCode_pair_isSome seen b c).mpr hmem), List.length_cons]
      refine iff_of_false (by omega) fun hnodup => ?_
      exact (List.nodup_append.mp hnodup).2.2 _ hmem _ List.mem_cons_self rfl
    · have hmiss : stringCode (seen.map pairKey) ([b] ++ [c]) = none := by
        rw [← Option.not_isSome_iff_eq_none, stringCode_pair_isSome]
        exact hmem
      have hkeys : seen.map pairKey ++ [[b] ++ [c]] = (seen ++ [(b, c)]).map pairKey := by simp [pairKey]
      have hseen' : (seen ++ [(b, c)]).Nodup := List.concat_eq_append ▸ hseen.concat hmem
      rw [lzwCodes_of_miss hmiss, hkeys, List.length_cons, List.length_cons, Nat.succ_inj, ih hseen', List.append_assoc,
        List.singleton_append]

/-! ### A whole input -/

theorem lzwOutput_ne_nil {input : List Byte} (h : input ≠ []) : lzwOutput input ≠ [] := by
  obtain ⟨b, bs, rfl⟩ := List.exists_cons_of_ne_nil h
  exact lzwCodes_ne_nil [] (by simp) bs 1

theorem lzwOutput_length_le (input : List Byte) : (lzwOutput input).length ≤ input.length := by
  cases input with
  | nil => exact le_rfl
  | cons b bs => exact lzwCodes_length_le [] [b] bs 1

/-- R178: as many codes as bytes exactly when no two adjacent pairs of bytes are the same. -/
theorem lzwOutput_length_eq_iff (input : List Byte) :
    (lzwOutput input).length = input.length ↔ (input.zip input.tail).Nodup := by
  cases input with
  | nil => exact iff_of_true rfl List.nodup_nil
  | cons b bs => exact lzwCodes_length_eq_iff List.nodup_nil b bs 1

/-- R177: code `k` is less than 256 + `k`. -/
theorem lzwOutput_lt {input : List Byte} {k : Nat} {u : Nat × Nat} (hk : (lzwOutput input)[k]? = some u) :
    u.1 < 256 + k := by
  cases input with
  | nil => simp [lzwOutput, lzwCodes] at hk
  | cons b bs => exact lzwCodes_lt (by simp) (rfl : stringCode [] [b] = some b.toNat) hk

end Sys2Proof.Machine
end

section
/-! PROOFS. LzwLoop (R174) emits the codes of the encoder over strings, up to the first code or entry that does not fit. -/

namespace Sys2Proof.Machine

open Sys2Proof.Reference

/-! ### One byte of input, by the accumulator and Lookup (R174) -/

/-- POS at the input byte of index `i` (R53). -/
def Owned.atPos (o : Owned) (i : Nat) : Owned := { o with pos := BitVec.ofNat 32 i }

section Loop

variable {p : Params} {b : Byte} {bs : List Byte} {i : Nat} {o : Owned} {a : Word}

/-- The first byte only enters the accumulator. -/
theorem lzwEncodeBody_cons : lzwEncodeBody p (b :: bs) o = lzwLoop p bs 1
    (Owned.setAcc { o with pos := 0#32, outLen := 0#32, lzw := { o.lzw.initDict with acc := none } } (b.setWidth 32)) := rfl

theorem lzwLoop_nil (hacc : o.lzw.acc = some a) : lzwLoop p [] i o =
    if (o.atPos i).codeOverflows p then Result.raise (o.atPos i) .obufOvf i
    else Result.complete ((o.atPos i).emitCode a) := by
  simp only [lzwLoop, hacc]
  rfl

theorem lzwLoop_hit {c : Word} (hacc : o.lzw.acc = some a) (hlook : o.lzw.lookup a b = some c) :
    lzwLoop p (b :: bs) i o = lzwLoop p bs (i + 1) ((o.atPos i).setAcc c) := by
  simp only [lzwLoop, hacc, hlook]
  rfl

theorem lzwLoop_miss (hacc : o.lzw.acc = some a) (hlook : o.lzw.lookup a b = none) : lzwLoop p (b :: bs) i o =
    if (o.atPos i).codeOverflows p then Result.raise (o.atPos i) .obufOvf i
    else if o.lzw.full p then Result.raise ((o.atPos i).emitCode a) .dictFull i
    else lzwLoop p bs (i + 1)
      (Owned.setAcc { (o.atPos i).emitCode a with lzw := o.lzw.insert a b } (b.setWidth 32)) := by
  simp only [lzwLoop, hacc, hlook]
  rfl

end Loop

/-! ### The dictionary, entry by key (R170, R171) -/

/-- The entry `e` stands for the key `key`: its DPREFIX is the code of the key but for the last byte (R50). -/
def Spells (keys : List (List Byte)) (e : DictEntry) (key : List Byte) : Prop :=
  ∃ str, stringCode keys str = some e.pfx.toNat ∧ key = str ++ [e.byte]

/-- The entry for a pair is the one that stands for the accumulator's string and the byte. -/
theorem Spells.eq_append_iff {keys : List (List Byte)} {e : DictEntry} {key cur : List Byte} {a : Word}
    (h : Spells keys e key) (hcur : stringCode keys cur = some a.toNat) (b : Byte) :
    key = cur ++ [b] ↔ e.pfx = a ∧ e.byte = b := by
  obtain ⟨str, hstr, rfl⟩ := h
  constructor
  · intro heq
    obtain ⟨rfl, hbyte⟩ := List.append_inj' heq rfl
    exact ⟨BitVec.eq_of_toNat_eq (Option.some.inj (hstr.symm.trans hcur)), by simpa using hbyte⟩
  · rintro ⟨rfl, rfl⟩
    rw [stringCode_injective hstr hcur]

/-- The search for a pair finds the place of its key. -/
theorem dictSearch_eq_idxOf? {keys ks : List (List Byte)} {es : List DictEntry} (h : List.Forall₂ (Spells keys) es ks)
    {cur : List Byte} {a : Word} (hcur : stringCode keys cur = some a.toNat) (b : Byte) (n : Nat) :
    dictSearch a b es n = (ks.idxOf? (cur ++ [b])).map (n + ·) := by
  induction h generalizing n with
  | nil => rfl
  | cons hhead _ ih =>
    rw [dictSearch, List.idxOf?_cons, ih]
    simp only [beq_iff_eq, ← hhead.eq_append_iff hcur]
    split
    · simp
    · rw [Option.map_map]
      congr 1
      funext k
      exact Nat.add_right_comm n 1 k

/-- Lookup gives the code of the accumulator's string and the byte (R171). -/
theorem Lzw.lookup_eq_stringCode {keys : List (List Byte)} {z : Lzw} (h : List.Forall₂ (Spells keys) z.dict keys)
    {cur : List Byte} (hne : cur ≠ []) {a : Word} (hcur : stringCode keys cur = some a.toNat) (b : Byte) :
    z.lookup a b = (stringCode keys (cur ++ [b])).map (BitVec.ofNat 32) := by
  rw [Lzw.lookup, dictSearch_eq_idxOf? h hcur, stringCode_append_singleton keys hne]

/-- Insert appends the entry of the new key (R172). -/
theorem Spells.concat {keys : List (List Byte)} {es : List DictEntry} (h : List.Forall₂ (Spells keys) es keys)
    {cur : List Byte} {a : Word} (hcur : stringCode keys cur = some a.toNat) (b : Byte) :
    List.Forall₂ (Spells (keys ++ [cur ++ [b]])) (es ++ [⟨a, b⟩]) (keys ++ [cur ++ [b]]) := by
  refine List.rel_append (h.imp ?_) (.cons ⟨cur, stringCode_concat hcur _, rfl⟩ .nil)
  rintro e key ⟨str, hstr, rfl⟩
  exact ⟨str, stringCode_concat hstr _, rfl⟩

/-! ### The output (R98), and how the command ends -/

/-- The codes OBUF holds (R98). -/
def Owned.outCodes (o : Owned) : List Nat := (wordsOf o.obuf o.outLen.toNat).map BitVec.toNat

@[simp] theorem Owned.outCodes_length (o : Owned) : o.outCodes.length = o.outLen.toNat := by simp [Owned.outCodes, wordsOf]

theorem Owned.emitCode_outCodes (o : Owned) (c : Word) (hlen : o.outLen.toNat + 1 < 2 ^ 32) :
    (o.emitCode c).outCodes = o.outCodes ++ [c.toNat] := by
  obtain ⟨houtLen, hwords, -⟩ := o.emitCode_spec c hlen
  rw [Owned.outCodes, houtLen, hwords, List.map_append]
  rfl

/-- What an output of `m` codes is as OUT_LEN and as words of OBUF. -/
theorem Owned.output_of_outCodes {o : Owned} {out : List (Nat × Nat)} {m : Nat} (hm : m ≤ out.length)
    (h : o.outCodes = (out.take m).map Prod.fst) :
    o.outLen.toNat = m ∧ (wordsOf o.obuf m).map BitVec.toNat = (out.take m).map Prod.fst := by
  have hlen : o.outLen.toNat = m := by rw [← Owned.outCodes_length, h, List.length_map, List.length_take_of_le hm]
  exact ⟨hlen, hlen ▸ h⟩

/-- How LZW_ENCODE ends on an input whose codes over strings, with their positions, are `out` (R172, R174, R175, R214). -/
inductive LzwEnds (p : Params) (out : List (Nat × Nat)) : Result → Prop
  /-- Every code fits, and so does the entry that each code but the last makes. -/
  | done {q : Owned} (hcodes : q.outCodes = out.map Prod.fst) (hcount : q.lzw.dictCount.toNat = 256 + (out.length - 1))
      (hobuf : 4 * out.length ≤ p.obufBytes) (hdict : 256 + (out.length - 1) ≤ p.dictCap) :
      LzwEnds p out (Result.complete q)
  /-- Code `k` is the first that does not fit, and every entry before it does. -/
  | obufOvf {q : Owned} {k c pos : Nat} (hunit : out[k]? = some (c, pos)) (hcodes : q.outCodes = (out.take k).map Prod.fst)
      (hcount : q.lzw.dictCount.toNat = 256 + k) (hobuf : 4 * k = p.obufBytes) (hdict : 256 + k ≤ p.dictCap) :
      LzwEnds p out (Result.raise q .obufOvf pos)
  /-- Code `k`, not the last, fits, and the entry it makes is the first that does not. -/
  | dictFull {q : Owned} {k c pos : Nat} (hunit : out[k]? = some (c, pos)) (hmore : k + 1 < out.length)
      (hcodes : q.outCodes = (out.take (k + 1)).map Prod.fst) (hcount : q.lzw.dictCount.toNat = 256 + k)
      (hobuf : 4 * (k + 1) ≤ p.obufBytes) (hdict : 256 + k = p.dictCap) : LzwEnds p out (Result.raise q .dictFull pos)

/-- Whatever the outcome, the output is a beginning of the codes over strings. -/
theorem LzwEnds.outCodes_prefix {p : Params} {out : List (Nat × Nat)} {r : Result} (h : LzwEnds p out r) :
    r.own.outCodes <+: out.map Prod.fst := by
  cases h with
  | done hcodes => exact hcodes ▸ List.prefix_rfl
  | obufOvf _ hcodes | dictFull _ _ hcodes => exact hcodes ▸ (List.take_prefix _ _).map _

/-! ### The simulation -/

/-- LzwLoop's state `o` is the encoder's over strings: it has emitted `sent`, its dictionary has an entry for each of `keys`, one
for each code emitted, and its accumulator `a` is the code of `cur`. -/
structure Owned.Mirrors (p : Params) (sent : List (Nat × Nat)) (keys : List (List Byte)) (cur : List Byte) (a : Word)
    (o : Owned) : Prop where
  codes : o.outCodes = sent.map Prod.fst
  fits : 4 * sent.length ≤ p.obufBytes
  entries : keys.length = sent.length
  dict : o.lzw.Running p.dictCap
  spells : List.Forall₂ (Spells keys) o.lzw.dict keys
  acc : o.lzw.acc = some a
  cur_ne : cur ≠ []
  cur_code : stringCode keys cur = some a.toNat

namespace Owned.Mirrors

variable {p : Params} {sent rest : List (Nat × Nat)} {keys : List (List Byte)} {cur : List Byte} {a : Word} {o : Owned}

theorem outLen (h : o.Mirrors p sent keys cur a) : o.outLen.toNat = sent.length := by
  rw [← Owned.outCodes_length, h.codes, List.length_map]

theorem dict_length (h : o.Mirrors p sent keys cur a) : o.lzw.dict.length = sent.length :=
  h.spells.length_eq.trans h.entries

theorem dictCount (h : o.Mirrors p sent keys cur a) : o.lzw.dictCount.toNat = 256 + sent.length := by
  rw [h.dict.count, h.dict_length]

theorem room (h : o.Mirrors p sent keys cur a) : 256 + sent.length ≤ p.dictCap := h.dict_length ▸ h.dict.capacity

/-- The hidden POS is no part of it. -/
theorem atPos (h : o.Mirrors p sent keys cur a) (i : Nat) : (o.atPos i).Mirrors p sent keys cur a :=
  ⟨h.codes, h.fits, h.entries, h.dict, h.spells, h.acc, h.cur_ne, h.cur_code⟩

variable (hp : p.wf = true)
include hp

/-- A hit: the accumulator takes the longer string's code. -/
theorem hit (h : o.Mirrors p sent keys cur a) {b : Byte} {c : Nat} (hcode : stringCode keys (cur ++ [b]) = some c) :
    (o.setAcc (BitVec.ofNat 32 c)).Mirrors p sent keys (cur ++ [b]) (BitVec.ofNat 32 c) := by
  have hlt : c < 256 + o.lzw.dict.length := h.spells.length_eq ▸ stringCode_lt hcode
  have hle := h.dict.capacity.trans (Params.dictCap_of_wf hp).2
  have htoNat : (BitVec.ofNat 32 c).toNat = c := by
    rw [BitVec.toNat_ofNat]
    omega
  exact ⟨h.codes, h.fits, h.entries, h.dict.withAcc (htoNat.symm ▸ hlt), h.spells, rfl, by simp, htoNat.symm ▸ hcode⟩

/-- Emit where it fits: one code more (R175). -/
theorem emit (h : o.Mirrors p sent keys cur a) (hfit : ¬ o.codeOverflows p = true) (i : Nat) :
    (o.emitCode a).outCodes = (sent ++ [(a.toNat, i)]).map Prod.fst ∧ 4 * (sent.length + 1) ≤ p.obufBytes := by
  obtain ⟨-, -, -, hobuf⟩ := Params.bufferSizes_of_wf hp
  simp only [Owned.codeOverflows, decide_eq_true_eq, h.outLen] at hfit
  rw [o.emitCode_outCodes a (by rw [h.outLen]; omega), h.codes, List.map_append]
  exact ⟨rfl, by omega⟩

/-- Emit where it does not fit (R175). -/
theorem overflow (h : o.Mirrors p sent keys cur a) (hover : o.codeOverflows p = true) (i : Nat) :
    LzwEnds p (sent ++ (a.toNat, i) :: rest) (Result.raise o .obufOvf i) := by
  obtain ⟨-, -, hmod, -⟩ := Params.bufferSizes_of_wf hp
  simp only [Owned.codeOverflows, decide_eq_true_eq, h.outLen] at hover
  have hfits := h.fits
  exact .obufOvf (k := sent.length) (c := a.toNat) (by simp) (by simp [h.codes]) h.dictCount (by omega) h.room

/-- The last Emit, where it fits. -/
theorem last (h : o.Mirrors p sent keys cur a) (hfit : ¬ o.codeOverflows p = true) (i : Nat) :
    LzwEnds p (sent ++ [(a.toNat, i)]) (Result.complete (o.emitCode a)) := by
  obtain ⟨hcodes, hobuf⟩ := h.emit hp hfit i
  exact .done hcodes (by simp [h.dictCount]) (by simpa using hobuf) (by simpa using h.room)

/-- Insert into a full dictionary, after Emit (R172, R215). -/
theorem full (h : o.Mirrors p sent keys cur a) (hfit : ¬ o.codeOverflows p = true) (hfull : o.lzw.full p = true) (i : Nat)
    (hrest : rest ≠ []) : LzwEnds p (sent ++ (a.toNat, i) :: rest) (Result.raise (o.emitCode a) .dictFull i) := by
  obtain ⟨hcodes, hobuf⟩ := h.emit hp hfit i
  rw [Lzw.full, beq_iff_eq, h.dictCount] at hfull
  have hmore := List.length_pos_of_ne_nil hrest
  refine .dictFull (k := sent.length) (c := a.toNat) (by simp) (by simp; omega) ?_ h.dictCount hobuf hfull
  rw [List.append_cons sent _ rest, List.take_left' (by simp), hcodes]

/-- A miss with room for the code and for the entry: both are made, and the byte alone enters the accumulator. -/
theorem insert (h : o.Mirrors p sent keys cur a) (hfit : ¬ o.codeOverflows p = true) (hroom : ¬ o.lzw.full p = true) {b : Byte}
    (hmiss : o.lzw.lookup a b = none) (i : Nat) :
    (Owned.setAcc { o.emitCode a with lzw := o.lzw.insert a b } (b.setWidth 32)).Mirrors p (sent ++ [(a.toNat, i)])
      (keys ++ [cur ++ [b]]) [b] (b.setWidth 32) := by
  obtain ⟨hcodes, hobuf⟩ := h.emit hp hfit i
  obtain ⟨-, hcap⟩ := Params.dictCap_of_wf hp
  have hdict := (h.dict.insert hcap h.acc hmiss (by simpa [Lzw.full] using hroom)).withAcc_byte b
  refine ⟨hcodes, by simpa using hobuf, by simp [h.entries], hdict, Spells.concat h.spells h.cur_code b, rfl, by simp, ?_⟩
  rw [BitVec.toNat_setWidth, Nat.mod_eq_of_lt (by omega)]
  rfl

/-- LzwLoop ends as the codes over strings say. -/
theorem lzwLoop_ends (h : o.Mirrors p sent keys cur a) (bs : List Byte) (i : Nat) :
    LzwEnds p (sent ++ lzwCodes keys cur bs i) (lzwLoop p bs i o) := by
  induction bs generalizing sent keys cur a o i with
  | nil =>
    rw [lzwLoop_nil h.acc, lzwCodes_nil h.cur_ne, h.cur_code, Option.getD_some]
    split
    · exact (h.atPos i).overflow hp ‹_› i
    · exact (h.atPos i).last hp ‹_› i
  | cons b bs ih =>
    have hlook := Lzw.lookup_eq_stringCode h.spells h.cur_ne h.cur_code b
    cases hcode : stringCode keys (cur ++ [b]) with
    | some c =>
      rw [hcode, Option.map_some] at hlook
      rw [lzwLoop_hit h.acc hlook, lzwCodes_of_hit (by simp [hcode])]
      exact ih ((h.atPos i).hit hp hcode) (i + 1)
    | none =>
      rw [hcode, Option.map_none] at hlook
      rw [lzwLoop_miss h.acc hlook, lzwCodes_of_miss hcode, h.cur_code, Option.getD_some]
      split
      · exact (h.atPos i).overflow hp ‹_› i
      · split
        · exact (h.atPos i).full hp ‹_› ‹_› i (lzwCodes_ne_nil _ (by simp) _ _)
        · rw [List.append_cons]
          exact ih ((h.atPos i).insert hp ‹_› ‹_› hlook i) (i + 1)

end Owned.Mirrors

/-- The accumulator with the first byte, over the initial dictionary (R173, R174). -/
theorem Owned.mirrors_first {p : Params} (hp : p.wf = true) (o : Owned) (b : Byte) :
    (Owned.setAcc { o with pos := 0#32, outLen := 0#32, lzw := { o.lzw.initDict with acc := none } }
      (b.setWidth 32)).Mirrors p [] [] [b] (b.setWidth 32) := by
  refine ⟨rfl, Nat.zero_le _, rfl, ?_, .nil, rfl, by simp, ?_⟩
  · exact (Lzw.initDict_running (Params.dictCap_of_wf hp).1 o.lzw).withAcc_byte b
  · rw [BitVec.toNat_setWidth, Nat.mod_eq_of_lt (by omega)]
    rfl

/-- LZW_ENCODE's body ends as the codes over strings say. -/
theorem lzwEncodeBody_ends {p : Params} (hp : p.wf = true) (input : List Byte) (o : Owned) :
    LzwEnds p (lzwOutput input) (lzwEncodeBody p input o) := by
  cases input with
  | nil => exact .done rfl rfl (Nat.zero_le _) (Params.dictCap_of_wf hp).1
  | cons b bs =>
    rw [lzwEncodeBody_cons, lzwOutput_cons]
    exact (Owned.mirrors_first hp o b).lzwLoop_ends hp bs 1

end Sys2Proof.Machine
end

section
/-! PROOFS. LZW_ENCODE (R176): the encoder over strings, the first unit that does not fit, no forward references, and the size of
the output (R177 to R179). -/

namespace Sys2Proof.Machine

open Sys2Proof.Reference

theorem exec_lzwEncode_of_le {s : State} (hlen : s.inLen.toNat ≤ s.params.ibufBytes) :
    exec .lzwEncode s = .next (s.complete (lzwEncodeBody s.params s.snapshot.input s.own)) := by
  rw [exec_eq, if_neg Instr.noConfusion, show resultOf s.params s.snapshot .lzwEncode = _ from checkLen_pass hlen _,
    State.snapshot_own]

/-- Settles O39: where everything fits, both errors of `LzwEnds` are impossible. -/
theorem lzwRefinesStringEncoder : Obligations.LzwRefinesStringEncoder := by
  intro s hp hlen hobuf hdict
  have hpast : (lzwEncodeBody s.params s.snapshot.input s.own).own.KeepsPast (4 * ·) s.own.obuf :=
    lzwLoop_keepsPast (by have := Params.obufBits_lt hp; omega) _ _ fun _ _ => rfl
  have hframe := lzwEncodeBody_frame s.params s.snapshot.input s.own
  have hends := lzwEncodeBody_ends hp s.snapshot.input s.own
  rw [exec_lzwEncode_of_le hlen]
  generalize lzwEncodeBody s.params s.snapshot.input s.own = r at hpast hframe hends
  cases hends with
  | @done q hcodes hcount =>
    refine ⟨q, rfl, hframe, ?_, hcodes, hcount, hpast⟩
    rw [← Owned.outCodes_length, hcodes, List.length_map]
  | obufOvf hunit _ _ hobuf' =>
    obtain ⟨hk, -⟩ := List.getElem?_eq_some_iff.mp hunit
    omega
  | dictFull _ hmore _ _ _ hdict' => omega

/-- Settles O40: the first unit that does not fit is the one at which `LzwEnds` stops. -/
theorem lzwStopsAtFirstFailingUnit : Obligations.LzwStopsAtFirstFailingUnit := by
  intro s k c pos hp hlen hunit
  obtain ⟨hk, -⟩ := List.getElem?_eq_some_iff.mp hunit
  have hframe := lzwEncodeBody_frame s.params s.snapshot.input s.own
  have hends := lzwEncodeBody_ends hp s.snapshot.input s.own
  rw [exec_lzwEncode_of_le hlen]
  generalize lzwEncodeBody s.params s.snapshot.input s.own = r at hframe hends
  have hhuf := congrArg Owned.huf hframe
  have hrle := congrArg Owned.rle hframe
  refine ⟨fun hobuf hdict => ?_, fun hdict hobuf hmore => ?_⟩
  · cases hends with
    | done _ _ hobuf' => omega
    | @obufOvf q k' _ _ hunit' hcodes hcount hobuf' =>
      obtain rfl : k' = k := by omega
      obtain ⟨rfl, rfl⟩ := Prod.mk.inj (Option.some.inj (hunit'.symm.trans hunit))
      obtain ⟨houtLen, hwords⟩ := Owned.output_of_outCodes hk.le hcodes
      exact ⟨q, rfl, houtLen, hcount, hhuf, hrle, hwords⟩
    | dictFull _ _ _ _ hobuf' hdict' => omega
  · cases hends with
    | done _ _ _ hdict' => omega
    | obufOvf _ _ _ hobuf' hdict' => omega
    | @dictFull q k' _ _ hunit' _ hcodes hcount _ hdict' =>
      obtain rfl : k' = k := by omega
      obtain ⟨rfl, rfl⟩ := Prod.mk.inj (Option.some.inj (hunit'.symm.trans hunit))
      obtain ⟨houtLen, hwords⟩ := Owned.output_of_outCodes hmore.le hcodes
      exact ⟨q, rfl, houtLen, hcount, hhuf, hrle, hwords⟩

/-- Settles O41: the output is a beginning of the codes over strings, of which each is small enough. -/
theorem lzwHasNoForwardReferences : Obligations.LzwHasNoForwardReferences := by
  intro s t hp hlen hexec k w hk
  rw [exec_lzwEncode_of_le hlen] at hexec
  cases hexec
  rw [State.complete_own] at hk
  have hcode : (lzwEncodeBody s.params s.snapshot.input s.own).own.outCodes[k]? = some w.toNat := by
    rw [Owned.outCodes, List.getElem?_map]
    exact congrArg (Option.map BitVec.toNat) hk
  obtain ⟨more, hmore⟩ := (lzwEncodeBody_ends hp s.snapshot.input s.own).outCodes_prefix
  have hout : ((lzwOutput s.snapshot.input).map Prod.fst)[k]? = some w.toNat := by
    rw [← hmore, List.getElem?_append_left (List.getElem?_eq_some_iff.mp hcode).1, hcode]
  rw [List.getElem?_map] at hout
  obtain ⟨u, hu, hw⟩ := Option.map_eq_some_iff.mp hout
  exact hw ▸ lzwOutput_lt hu

/-- Settles O42: an input has at most as many codes as bytes, so that O39 applies; the rest is arithmetic on its lengths. -/
theorem lzwOutputSize : Obligations.LzwOutputSize := by
  intro s hp hlen hobuf hdict
  have hinput := s.snapshot.input_length
  have hle := lzwOutput_length_le s.snapshot.input
  obtain ⟨hcap, -⟩ := Params.dictCap_of_wf hp
  rw [State.snapshot_inLen] at hinput
  obtain ⟨o, hexec, -, houtLen, -, hcount, -⟩ := lzwRefinesStringEncoder s hp hlen (by omega) (by omega)
  refine ⟨o, hexec, by omega, fun hne => ⟨?_, ?_⟩, fun hzero => ?_⟩
  · have hnonempty : s.snapshot.input ≠ [] := by
      intro hnil
      exact hne (BitVec.eq_of_toNat_eq (by simpa [hnil] using hinput.symm))
    have hpos := List.length_pos_of_ne_nil (lzwOutput_ne_nil hnonempty)
    omega
  · rw [houtLen, ← hinput]
    exact lzwOutput_length_eq_iff _
  · have hzero' : s.inLen.toNat = 0 := congrArg BitVec.toNat hzero
    have hnone : (lzwOutput s.snapshot.input).length = 0 := by omega
    rw [hnone] at houtLen hcount
    exact ⟨BitVec.eq_of_toNat_eq houtLen, BitVec.eq_of_toNat_eq hcount⟩

end Sys2Proof.Machine
end

section
/-! PROOFS. The runs of an input (R190): the first run, and how long the text of the runs is (R99, R196). -/

namespace Sys2Proof.Machine

open Sys2Proof.Reference

/-! ### The first run -/

theorem runsOf_replicate (b : Byte) (n : Nat) : runsOf (List.replicate (n + 1) b) = [(b, n + 1)] := by
  have hchain : (List.replicate (n + 1) b).IsChain fun x y => (x == y) = true :=
    List.isChain_replicate_of_rel _ (beq_self_eq_true b)
  rw [runsOf, List.splitBy_of_isChain (by simp) hchain]
  simp [List.replicate_succ]

/-- Another byte ends a run. -/
theorem runsOf_replicate_append_cons {b c : Byte} (hne : c ≠ b) (n : Nat) (bs : List Byte) :
    runsOf (List.replicate (n + 1) b ++ c :: bs) = (b, n + 1) :: runsOf (c :: bs) := by
  have hend : ∀ x ∈ (List.replicate (n + 1) b).getLast?, (x == c) = false := by
    simp [List.getLast?_replicate, hne.symm]
  rw [runsOf, List.splitBy_append_cons bs hend, List.map_append]
  exact congrArg (· ++ runsOf (c :: bs)) (runsOf_replicate b n)

/-! ### The counts -/

theorem sum_runsOf_counts (input : List Byte) : ((runsOf input).map Prod.snd).sum = input.length := by
  rw [runsOf, List.map_map]
  exact List.length_flatten.symm.trans (congrArg List.length (List.flatten_splitBy _ input))

theorem runsOf_count_pos {input : List Byte} {r : Byte × Nat} (hr : r ∈ runsOf input) : 0 < r.2 := by
  obtain ⟨g, hg, rfl⟩ := List.mem_map.mp hr
  exact List.length_pos_of_ne_nil (List.ne_nil_of_mem_splitBy hg)

/-! ### The text -/

@[simp] theorem runText_length (r : Byte × Nat) : (runText r).length = (Nat.digits 10 r.2).length + 1 := by simp [runText]

theorem runsText_length (rs : List (Byte × Nat)) :
    (runsText rs).length = rs.length + (rs.map fun r => (Nat.digits 10 r.2).length).sum := by
  rw [runsText, List.length_flatMap]
  simp [List.sum_map_add, Nat.add_comm]

theorem runsText_concat (rs : List (Byte × Nat)) (r : Byte × Nat) : runsText (rs ++ [r]) = runsText rs ++ runText r := by
  simp [runsText]

theorem runsText_take_succ_length {rs : List (Byte × Nat)} {k : Nat} {r : Byte × Nat} (hr : rs[k]? = some r) :
    (runsText (rs.take (k + 1))).length = (runsText (rs.take k)).length + (runText r).length := by
  rw [List.take_add_one, hr, Option.toList_some, runsText_concat, List.length_append]

theorem runsText_take_length_le (rs : List (Byte × Nat)) (k : Nat) : (runsText (rs.take k)).length ≤ (runsText rs).length :=
  ((List.take_sublist k rs).flatMap runText).length_le

theorem runsText_take_length_mono (rs : List (Byte × Nat)) : Monotone fun k => (runsText (rs.take k)).length := by
  intro k m hkm
  have hle := runsText_take_length_le (rs.take m) k
  rwa [List.take_take, Nat.min_eq_left hkm] at hle

/-- R196: a run's text is at most two bytes for each byte of the run: a positive number has at most as many digits as its value. -/
theorem runText_length_le {r : Byte × Nat} (hr : 0 < r.2) : (runText r).length ≤ 2 * r.2 := by
  have hlog := Nat.log_lt_self 10 hr.ne'
  rw [runText_length, Nat.length_digits 10 r.2 (by omega) hr.ne']
  omega

theorem runsText_runsOf_length_le (input : List Byte) : (runsText (runsOf input)).length ≤ 2 * input.length := by
  rw [runsText, List.length_flatMap, ← sum_runsOf_counts, ← List.sum_map_mul_left]
  exact List.sum_le_sum fun r hr => runText_length_le (runsOf_count_pos hr)

theorem runsText_runsOf_length_of_ones {input : List Byte} (hones : ∀ r ∈ runsOf input, r.2 = 1) :
    (runsText (runsOf input)).length = 2 * input.length := by
  rw [runsText, List.length_flatMap, ← sum_runsOf_counts, ← List.sum_map_mul_left]
  refine congrArg List.sum (List.map_congr_left fun r hr => ?_)
  rw [runText_length, hones r hr]
  rfl

end Sys2Proof.Machine
end

section
/-! PROOFS. RleLoop (R191) writes the text of the runs, up to the first run that does not fit (R192). -/

namespace Sys2Proof.Machine

open Sys2Proof.Reference

/-- The output, as bytes of OBUF (R99). -/
def Owned.outBytes (o : Owned) : List Byte := bytesOf o.obuf o.outLen.toNat

@[simp] theorem Owned.outBytes_length (o : Owned) : o.outBytes.length = o.outLen.toNat := by simp [Owned.outBytes, bytesOf]

/-- How RLE_ENCODE ends on an input whose runs are `runs` (R192, R194, R214). -/
inductive RleEnds (p : Params) (runs : List (Byte × Nat)) : Result → Prop
  /-- Every run fits. -/
  | done {q : Owned} (htext : q.outBytes = runsText runs) (hfits : (runsText runs).length ≤ p.obufBytes) :
      RleEnds p runs (Result.complete q)
  /-- The runs before run `k` fit, and with it they do not. -/
  | obufOvf {q : Owned} {k : Nat} (htext : q.outBytes = runsText (runs.take k))
      (hfits : (runsText (runs.take k)).length ≤ p.obufBytes)
      (hover : p.obufBytes < (runsText (runs.take (k + 1))).length) :
      RleEnds p runs (Result.raise q .obufOvf ((runs.take k).map Prod.snd).sum)

/-- RleLoop's state at the input byte of index `i`: the runs `sent` are written, and `n + 1` bytes of a run of `b` are read. -/
structure Owned.InRun (p : Params) (sent : List (Byte × Nat)) (b : Byte) (n i : Nat) (o : Owned) : Prop where
  text : o.outBytes = runsText sent
  fits : (runsText sent).length ≤ p.obufBytes
  sym : o.rle.runSym = b
  cnt : o.rle.runCnt.toNat = n + 1
  start : o.rle.runStart.toNat = (sent.map Prod.snd).sum
  index : (sent.map Prod.snd).sum + (n + 1) = i

namespace Owned.InRun

variable {p : Params} {sent rest : List (Byte × Nat)} {b : Byte} {n i : Nat} {o : Owned}

/-- The hidden POS is no part of it. -/
theorem atPos (h : o.InRun p sent b n i) (j : Nat) : (o.atPos j).InRun p sent b n i :=
  ⟨h.text, h.fits, h.sym, h.cnt, h.start, h.index⟩

theorem outLen (h : o.InRun p sent b n i) : o.outLen.toNat = (runsText sent).length := by
  rw [← Owned.outBytes_length, h.text]

theorem runBytes_eq_runText (h : o.InRun p sent b n i) : runBytes o.rle.runSym o.rle.runCnt = runText (b, n + 1) := by
  have hne : o.rle.runCnt ≠ 0#32 := fun hzero => by simpa [hzero] using h.cnt
  rw [runBytes_eq _ _ hne, h.sym, h.cnt]

theorem runOverflows_iff (h : o.InRun p sent b n i) :
    o.runOverflows p = true ↔ p.obufBytes < (runsText (sent ++ [(b, n + 1)])).length := by
  rw [Owned.runOverflows, decide_eq_true_iff, h.runBytes_eq_runText, h.outLen, runsText_concat, List.length_append]

/-- One more byte of the run (R191). -/
theorem grow (h : o.InRun p sent b n i) (hi : i + 1 < 2 ^ 32) :
    Owned.InRun p sent b (n + 1) (i + 1) { o with rle := { o.rle with runCnt := o.rle.runCnt + 1#32 } } := by
  have hcnt := h.cnt
  have hindex := h.index
  refine ⟨h.text, h.fits, h.sym, ?_, h.start, by omega⟩
  show (o.rle.runCnt + 1#32).toNat = n + 1 + 1
  rw [BitVec.toNat_add, BitVec.toNat_one (by omega), hcnt]
  omega

/-- EmitRun where it does not fit (R192). -/
theorem overflow (h : o.InRun p sent b n i) (hover : o.runOverflows p = true) :
    RleEnds p (sent ++ (b, n + 1) :: rest) (Result.raise o .obufOvf o.rle.runStart.toNat) := by
  have hbefore : (sent ++ (b, n + 1) :: rest).take sent.length = sent := List.take_left
  have hwith : (sent ++ (b, n + 1) :: rest).take (sent.length + 1) = sent ++ [(b, n + 1)] := by
    rw [List.append_cons, List.take_left' (by simp)]
  rw [h.start]
  have hends := RleEnds.obufOvf (p := p) (runs := sent ++ (b, n + 1) :: rest) (q := o) (k := sent.length)
    (by rw [hbefore, h.text]) (by rw [hbefore]; exact h.fits) (by rw [hwith]; exact h.runOverflows_iff.mp hover)
  rwa [hbefore] at hends

section Fits

variable (hp : p.wf = true)
include hp

/-- EmitRun where it fits (R192): the run's text more. -/
theorem emit (h : o.InRun p sent b n i) (hfit : ¬ o.runOverflows p = true) :
    o.emitRun.outBytes = runsText (sent ++ [(b, n + 1)]) ∧ (runsText (sent ++ [(b, n + 1)])).length ≤ p.obufBytes := by
  have hobuf := Params.obufBits_lt hp
  rw [h.runOverflows_iff, Nat.not_lt] at hfit
  refine ⟨?_, hfit⟩
  rw [runsText_concat, List.length_append] at hfit
  obtain ⟨houtLen, hbytes, -⟩ := o.emitRun_spec _ h.runBytes_eq_runText (by rw [h.outLen]; omega)
  rw [Owned.outBytes, houtLen, hbytes, runsText_concat, ← h.text]
  rfl

/-- The last EmitRun, where it fits. -/
theorem last (h : o.InRun p sent b n i) (hfit : ¬ o.runOverflows p = true) :
    RleEnds p (sent ++ [(b, n + 1)]) (Result.complete o.emitRun) := by
  obtain ⟨htext, hfits⟩ := h.emit hp hfit
  exact .done htext hfits

/-- Another byte, where the run before it fits: a run of that byte begins (R191). -/
theorem next (h : o.InRun p sent b n i) (hfit : ¬ o.runOverflows p = true) (c : Byte) (hi : i < 2 ^ 32) :
    (o.emitRun.startRun c i).InRun p (sent ++ [(b, n + 1)]) c 0 (i + 1) := by
  obtain ⟨htext, hfits⟩ := h.emit hp hfit
  have hsum : ((sent ++ [(b, n + 1)]).map Prod.snd).sum = i := by simpa using h.index
  refine ⟨htext, hfits, rfl, rfl, ?_, by rw [hsum]⟩
  rw [hsum]
  exact Nat.mod_eq_of_lt hi

/-- RleLoop ends as the runs say: of the run in progress with the bytes to come, after those written. -/
theorem rleLoop_ends (h : o.InRun p sent b n i) (bs : List Byte) (hi : i + bs.length < 2 ^ 32) :
    RleEnds p (sent ++ runsOf (List.replicate (n + 1) b ++ bs)) (rleLoop p bs i o) := by
  induction bs generalizing sent b n i o with
  | nil =>
    rw [List.append_nil, runsOf_replicate, rleLoop]
    split
    · exact (h.atPos i).overflow ‹_›
    · exact (h.atPos i).last hp ‹_›
  | cons c bs ih =>
    rw [List.length_cons] at hi
    rw [rleLoop]
    split
    · next hc =>
      obtain rfl : c = b := hc.trans h.sym
      rw [List.append_cons, ← List.replicate_succ']
      exact ih ((h.atPos i).grow (by omega)) (by omega)
    · next hc =>
      rw [runsOf_replicate_append_cons (h.sym ▸ hc)]
      split
      · exact (h.atPos i).overflow ‹_›
      · rw [List.append_cons]
        exact ih ((h.atPos i).next hp ‹_› c (by omega)) (by omega)

end Fits

end Owned.InRun

/-- RLE_ENCODE's body ends as the runs say. -/
theorem rleEncodeBody_ends {p : Params} (hp : p.wf = true) {input : List Byte} (hinput : input.length < 2 ^ 32) (o : Owned) :
    RleEnds p (runsOf input) (rleEncodeBody p input o) := by
  cases input with
  | nil => exact .done rfl (Nat.zero_le _)
  | cons b bs =>
    have hfirst : (Owned.startRun { o with outLen := 0#32, pos := 0#32 } b 0).InRun p [] b 0 1 :=
      ⟨rfl, Nat.zero_le _, rfl, rfl, rfl, rfl⟩
    exact hfirst.rleLoop_ends hp bs (by rw [List.length_cons] at hinput; omega)

end Sys2Proof.Machine
end

section
/-! PROOFS. RLE_ENCODE (R194): the text of the runs, the first run that does not fit, and the size of the output (R196). -/

namespace Sys2Proof.Machine

open Sys2Proof.Reference

theorem Snapshot.input_length_lt (x : Snapshot) : x.input.length < 2 ^ 32 := x.input_length ▸ x.inLen.isLt

/-- RLE_ENCODE on an input of legal length: how it ends, and its frame. -/
theorem exec_rleEncode_of_le {s : State} (hp : s.params.wf = true) (hlen : s.inLen.toNat ≤ s.params.ibufBytes) :
    ∃ r : Result, exec .rleEncode s = .next (s.complete r) ∧ RleEnds s.params (runsOf s.snapshot.input) r ∧
      r.own = { s.own with obuf := r.own.obuf, outLen := r.own.outLen, pos := r.own.pos, rle := r.own.rle } ∧
      r.own.KeepsPast id s.own.obuf := by
  have hbits := Params.obufBits_lt hp
  refine ⟨rleEncodeBody s.params s.snapshot.input s.own, ?_, rleEncodeBody_ends hp s.snapshot.input_length_lt _,
    rleEncodeBody_frame _ _ _, rleEncodeBody_keepsPast (by omega) _ _⟩
  rw [exec_eq, if_neg Instr.noConfusion, show resultOf s.params s.snapshot .rleEncode = _ from checkLen_pass hlen _,
    State.snapshot_own]

/-- Settles O43: where everything fits, the error of `RleEnds` is impossible. -/
theorem rleWritesTheRuns : Obligations.RleWritesTheRuns := by
  intro s hp hlen hfits
  obtain ⟨r, hexec, hends, hframe, hpast⟩ := exec_rleEncode_of_le hp hlen
  rw [hexec]
  cases hends with
  | @done q htext => exact ⟨q, rfl, hframe, by rw [← Owned.outBytes_length, htext], htext, hpast⟩
  | @obufOvf _ k _ _ hover => exact absurd (hover.trans_le (runsText_take_length_le _ (k + 1))) hfits.not_gt

/-- Settles O44: the text grows with the runs, so the first run that does not fit is the one at which `RleEnds` stops. -/
theorem rleStopsAtFirstFailingRun : Obligations.RleStopsAtFirstFailingRun := by
  intro s k r hp hlen hrun hfits hover
  rw [← runsText_take_succ_length hrun] at hover
  obtain ⟨res, hexec, hends, hframe, hpast⟩ := exec_rleEncode_of_le hp hlen
  have hhuf := congrArg Owned.huf hframe
  have hlzw := congrArg Owned.lzw hframe
  have hmono := runsText_take_length_mono (runsOf s.snapshot.input)
  rw [hexec]
  cases hends with
  | done _ hall => exact absurd (hover.trans_le (runsText_take_length_le _ (k + 1))) hall.not_gt
  | @obufOvf q k' htext hfits' hover' =>
    have hle : k' < k + 1 := hmono.reflect_lt (hfits'.trans_lt hover)
    have hge : k < k' + 1 := hmono.reflect_lt (hfits.trans_lt hover')
    obtain rfl : k' = k := by omega
    exact ⟨q, rfl, hhuf, hlzw, by rw [← Owned.outBytes_length, htext], htext, hpast⟩

/-- Settles O45: the text takes at most two bytes for each byte of the input, so that O43 applies. -/
theorem rleOutputSize : Obligations.RleOutputSize := by
  intro s hp hlen hobuf
  have hinput : s.snapshot.input.length = s.inLen.toNat := s.snapshot.input_length
  have hle := runsText_runsOf_length_le s.snapshot.input
  obtain ⟨o, hexec, -, houtLen, -, -⟩ := rleWritesTheRuns s hp hlen (by omega)
  refine ⟨o, hexec, houtLen.trans (runsText_length _), by omega, fun hones => ?_⟩
  rw [houtLen, runsText_runsOf_length_of_ones hones, hinput]

end Sys2Proof.Machine
end

section
/-! PROOFS. An illegal command word (R211): from PENDING, and from the host's write of it to CMD. -/

namespace Sys2Proof.Machine

/-- R93: a word with a nonzero RSV, or with a reserved OP, decodes to no instruction. -/
theorem exists_decode_error {w : Word} (hw : w.toNat / 16 ≠ 0 ∨ (8 ≤ w.toNat % 16 ∧ w.toNat % 16 ≤ 14)) :
    ∃ e, decode w = .error e := by
  obtain ⟨-, hreservedBits, hreservedOp⟩ := legalWordsAreTheNine w
  by_cases hrsv : w.toNat / 16 = 0
  · exact ⟨_, hreservedOp.mpr ⟨hrsv, hw.resolve_left (not_not.mpr hrsv)⟩⟩
  · exact ⟨_, hreservedBits.mpr hrsv⟩

/-- A host's write of any word to CMD while idle, then the engine's turn, which finds the word pending. -/
theorem run_accept_engineStep {s : State} {w : Word} {rest : List HostOp} (hidle : s.busy = false)
    (hturns : s.turns = [.host, .engine]) (hhost : s.host = .write 4 (s.params.base + 0x008) w :: rest) :
    core.run 2 s = engineStep (State.accept { s with host := rest, turns := [] } w) := by
  have hturn : s.turn = .host := by simp [State.turn, hturns]
  have hnext : ((s.tookAccess rest).accept w).turn = .engine := by simp [State.turn, hturns]
  have htook : ((s.tookAccess rest).accept w).takeTurn = State.accept { s with host := rest, turns := [] } w := by
    simp [State.takeTurn, State.tookAccess, State.accept, hturns]
  rw [run_succ (step_write_cmd_of_idle rfl ⟨hturn, hhost⟩ hidle), run_one, step_engine hnext, htook]

theorem engineStep_of_decode_error {s : State} {w : Word} {x : Snapshot} {e : DecodeError} (hbusy : s.engine = .busy w x)
    (hdec : decode w = .error e) : engineStep s = .next (s.failed s.own .badCmd 0) := by
  simp only [engineStep, hbusy, hdec]
  rfl

/-- Settles O5: `engineStep_of_decode_error` in both cases, after the host's write on what the acceptance left. -/
theorem illegalWordCompletesWithBadCmd : Obligations.IllegalWordCompletesWithBadCmd := by
  intro s w hw
  obtain ⟨e, hdec⟩ := exists_decode_error hw
  refine ⟨fun x hturn hbusy => ?_, fun rest hidle hturns hhost => ?_⟩
  · exact (step_engine hturn).trans (engineStep_of_decode_error (s := s.takeTurn) hbusy hdec)
  · rw [run_accept_engineStep hidle hturns hhost, engineStep_of_decode_error (State.accept_engine _ w) hdec,
      ← extractLsb'_op_eq_ofNat, State.busy_eq_false_iff.mp hidle]
    rfl

end Sys2Proof.Machine
end

section
/-! PROOFS. The interrupt output (R220): its level, and what each event that changes DONE or DONE_IE makes of it. -/

namespace Sys2Proof.Machine

/-- R36: DONE_IE is bit 0 of IRQ_EN. -/
theorem irqEnWord_getLsbD_zero (b : Bool) : (irqEnWord b).getLsbD 0 = b := by
  simp only [irqEnWord, BitVec.getLsbD_append]
  simp

/-- R112, R220: a completion leaves the output at DONE_IE, whatever the outcome. -/
theorem State.complete_irq (s : State) (r : Result) : (s.complete r).irq = s.irqEn := by
  rw [State.complete_frame]
  exact Bool.true_and _

theorem exec_irq {i : Instr} {s t : State} (h : exec i s = .next t) : t.irq = s.irqEn := by
  rw [exec_frame h]
  exact Bool.true_and _

/-- The engine's turn while BUSY is a completion, of an instruction or of an illegal word (R112, R211). -/
theorem engineStep_irq {s t : State} (hbusy : s.busy = true) (h : engineStep s = .next t) : t.irq = s.irqEn := by
  rcases engineStep_cases s with ⟨hidle, -⟩ | ⟨_, _, _, -, -, hexec⟩ | ⟨_, _, _, -, -, hbadCmd⟩
  · exact absurd (hbusy.symm.trans (State.busy_idle hidle)) Bool.noConfusion
  · exact exec_irq (hexec.symm.trans h)
  · rw [hbadCmd] at h
    cases h
    exact State.complete_irq _ _

/-- Settles O22: DONE and DONE_IE are the bits that STATUS and IRQ_EN show, and each event writes one of the two. -/
theorem irqFollowsDoneAndEnable : Obligations.IrqFollowsDoneAndEnable := by
  refine ⟨fun s => ?_, fun s t h => ⟨fun hturn hbusy => ?_, fun v rest hwrite => ?_, fun v rest hwrite hv => ?_,
    fun v rest hwrite hidle => ?_, fun hturn => ?_⟩⟩
  · simp only [State.readReg, statusWord_getLsbD_one, irqEnWord_getLsbD_zero, State.irq]
  · exact engineStep_irq (s := s.takeTurn) hbusy ((step_engine hturn).symm.trans h)
  · rw [step_write_reg .irqEn rfl hwrite] at h
    cases h
    rfl
  · rw [step_write_reg .status rfl hwrite] at h
    cases h
    simp [State.irq, State.writeLoc, Status.clearBits, hv]
  · rw [step_write_cmd_of_idle rfl hwrite hidle] at h
    cases h
    rfl
  · rw [step_hwReset hturn] at h
    cases h
    rfl

end Sys2Proof.Machine
end

section
/-! PROOFS. Which errors each command can raise (R210), and why E_NO_CODE is none of HUF_ENCODE's (R141). -/

namespace Sys2Proof.Machine

/-- R210: the errors that each command can raise, its length check included. -/
def errorsOf : Instr → List ErrKind
  | .nop | .softReset | .hufTree | .hufCodes => []
  | .hufFreq => [.len]
  | .hufPack => [.len, .noCode, .obufOvf]
  | .hufEncode | .rleEncode => [.len, .obufOvf]
  | .lzwEncode => [.len, .obufOvf, .dictFull]

/-- R113: a command with a length check raises E_LEN, or what its body raises on an input of legal length. -/
theorem checkLen_raisesOnly_len_cons {es : List ErrKind} {p : Params} {x : Snapshot} {body : Result}
    (hbody : x.inLen.toNat ≤ p.ibufBytes → body.RaisesOnly es) : (checkLen p x body).RaisesOnly (.len :: es) := by
  rcases Nat.lt_or_ge p.ibufBytes x.inLen.toNat with hlen | hlen
  · rw [checkLen_raise hlen]
    exact Result.raise_raisesOnly List.mem_cons_self _ _
  · rw [checkLen_pass hlen]
    exact fun e pos h => List.mem_cons_of_mem _ (hbody hlen e pos h)

/-- R139: over bytes that all have codes Pack can only run out of room. -/
theorem packLoop_raisesOnly_of_valid (p : Params) {input : List Byte} (i : Nat) {o : Owned}
    (hvalid : ∀ b ∈ input, (o.huf.codeOf b).valid = true) : (packLoop p input i o).RaisesOnly [.obufOvf] := by
  induction input generalizing i o with
  | nil => exact Result.complete_raisesOnly _ _
  | cons b bs ih =>
    obtain ⟨hb, hbs⟩ := List.forall_mem_cons.mp hvalid
    simp only [packLoop, hb, Bool.not_true, Bool.false_eq_true, if_false]
    split
    · exact Result.raise_raisesOnly List.mem_cons_self _ _
    · exact ih _ (by rwa [Owned.putBits_huf])

/-- R141: HUF_ENCODE packs with the tables of its own input, in which every byte of it has a code. -/
theorem hufEncodeBody_raisesOnly (p : Params) {input : List Byte} (hlen : input.length ≤ 2 ^ 20) (o : Owned) :
    (hufEncodeBody p input o).RaisesOnly [.obufOvf] := by
  rw [hufEncodeBody_eq]
  exact packLoop_raisesOnly_of_valid p 0 fun b hb => Huffman.tablesOf_valid hlen hb

/-- R210: `Exec` raises only the command's own errors. -/
theorem resultOf_raisesOnly_errorsOf {s : State} (hp : s.params.wf = true) (i : Instr) :
    (resultOf s.params s.snapshot i).RaisesOnly (errorsOf i) := by
  cases i with
  | nop | softReset | hufTree | hufCodes => exact Result.complete_raisesOnly _ _
  | hufFreq => exact checkLen_raisesOnly_len_cons fun _ => Result.complete_raisesOnly _ _
  | hufPack => exact checkLen_raisesOnly_len_cons fun _ => packLoop_raisesOnly _ _ _ _
  | hufEncode =>
    exact checkLen_raisesOnly_len_cons fun hlen => hufEncodeBody_raisesOnly _ (State.input_length_le hp hlen) _
  | lzwEncode => exact checkLen_raisesOnly_len_cons fun _ => lzwLoop_raisesOnly _ _ _ _
  | rleEncode => exact checkLen_raisesOnly_len_cons fun _ => rleEncodeBody_raisesOnly _ _ _

/-- Settles O49: the error a completion leaves is one that `Exec` raised, so one of `errorsOf`. -/
theorem errorsOfEachCommand : Obligations.ErrorsOfEachCommand := by
  intro i s t e hp hs h he
  rw [(exec_own_error h).2] at he
  have hmem : e ∈ errorsOf i := State.complete_error_mem hs (resultOf_raisesOnly_errorsOf hp i) he
  cases i with
  | nop | softReset | hufTree | hufCodes => exact absurd hmem List.not_mem_nil
  | hufPack => simpa [errorsOf, or_comm] using hmem
  | hufFreq | hufEncode | lzwEncode | rleEncode => simpa [errorsOf] using hmem

end Sys2Proof.Machine
end

section
/-! PROOFS. A host inside the interface never stops the machine (R117, R210). -/

namespace Sys2Proof.Machine

/-- Settles O58: there is a next step, and it leaves the host only accesses it had. -/
theorem legalHostNeverStopsTheMachine : Obligations.LegalHostNeverStopsTheMachine := by
  intro s hs
  obtain ⟨t, hst⟩ := hs.exists_step
  exact ⟨t, hst, hs.step_keeps hst⟩

end Sys2Proof.Machine
end

section
/-! PROOFS. The host writes that are dropped while BUSY (R26, R33, R66, R250). -/

namespace Sys2Proof.Machine

/-- R250: at each of the three places a write while BUSY is `State.dropWrite`. -/
theorem State.writeLoc_of_busy {s : State} (hbusy : s.busy = true) (v : Word) {l : Loc}
    (hl : l = .reg .cmd ∨ l = .reg .inLen ∨ ∃ j, l = .ibuf j) : s.writeLoc v l = s.dropWrite := by
  rcases hl with rfl | rfl | ⟨j, rfl⟩
  · exact if_pos hbusy
  · exact if_pos hbusy
  · exact if_pos hbusy

/-- Settles O10: the offset names the place (R63), and a write there is dropped. -/
theorem busyWriteDropped : Obligations.BusyWriteDropped := by
  intro s l v k rest hp hvalid hl h hk hbusy
  rw [Nat.add_assoc] at h
  rw [step_write h (hvalid.offset_add_lt hp hk), locAt_offset_add hp hvalid hk,
    State.writeLoc_of_busy (s := s.tookAccess rest) hbusy v hl]
  rfl

end Sys2Proof.Machine
end
